-- ==== Sys2Proof/Word.lean ====
section
/-! DEFINITION. Sys2Proof/Word.lean: the two word types of the block (00_scope.md R12: all quantities are unsigned). -/

namespace Sys2Proof

/-- A byte: a frame byte, a UART data byte, an error code, a command (R12, R82). -/
abbrev Byte := BitVec 8

/-- A 16-bit word: the CRC field (R62) and the stimulus word (R88). -/
abbrev Word := BitVec 16

end Sys2Proof
end

