-- ==== Sys2Proof/Syntax.lean ====
section
/-! DEFINITION. Sys2Proof/Syntax.lean: the 21 operations of the block (30_encoding.md R90, spec/opcode_table.json),
one constructor a row, and the operand types they carry. -/

namespace Sys2Proof

/-- The role of a node (10_state.md R22). -/
inductive Role where
  | slave
  | master
deriving DecidableEq, Repr, Inhabited

/-- A message operand (00_scope.md R18): the address is 8 bits wide at the interface so that an out-of-range value can be
presented and rejected. -/
structure Msg where
  address : Byte
  rr : Bool
  command : Byte
  params : List Byte
deriving DecidableEq, Repr, Inhabited

/-- The operations of the block (R90), in the table's order. -/
inductive Instr where
  /-- INIT, `initialize(role, address)` (R151). -/
  | init (role : Role) (addr : Byte)
  /-- AVAIL, `message_available()` (R153). -/
  | avail
  /-- CONSUME, `consume_request()` (R154). -/
  | consume
  /-- ISRESP, `is_response_required(msg)` (R157). -/
  | isresp (msg : Msg)
  /-- RESPOND, `respond(msg)` (R160). -/
  | respond (msg : Msg)
  /-- SEND, `send_request(msg)` (R168). -/
  | send (msg : Msg)
  /-- ERRPUSH, `push(code)` (R212). -/
  | errpush (code : Byte)
  /-- ERRPOP, `pop()` (R213). -/
  | errpop
  /-- ERRPEEK, `peek()` (R214). -/
  | errpeek
  /-- ERROVF, `overflow()` (R215). -/
  | errovf
  /-- RXB, the byte-arrival event (R185). -/
  | rxb (mark : Bool) (data : Byte)
  /-- TXC, the byte-sent event (R192). -/
  | txc
  /-- RXERR, the UART's frame or overrun error (R195). -/
  | rxerr
  /-- TMR, the turnaround timer's expiry (R142). -/
  | tmr
  /-- DESYNC, the environment's demand for recovery (R196). -/
  | desync
  /-- CRC16, `compute(bytes)` (R114). -/
  | crc16 (bytes : List Byte)
  /-- CRCVFY, `verify(frame)` (R115). -/
  | crcvfy (bytes : List Byte)
  /-- ENCODE, `encode(msg)` with its payload count (R122). -/
  | encode (n : Byte) (msg : Msg)
  /-- DECODE, `decode(bytes)` (R126). -/
  | decode (bytes : List Byte)
  /-- DIRTX, the direction part of `load_tx`, internal (R138). -/
  | dirtx
  /-- DIRRX, the direction part of `enter_request`, internal (R139). -/
  | dirrx
deriving DecidableEq, Repr, Inhabited

end Sys2Proof
end

