-- ==== Sys2Proof/WellFormed.lean ====
section
/-! DEFINITION. Sys2Proof/WellFormed.lean: which terms of `Instr` a stimulus word and its operand bytes can spell
(30_encoding.md R88, R89): every list is counted by one byte. -/

namespace Sys2Proof

/-- A message operand's parameter count k is 0 to 255 (R89). -/
def Msg.wf (m : Msg) : Bool := decide (m.params.length ≤ 255)

/-- A format BL operand has k = 0 to 255 bytes (R88, R114). -/
def listWf (bs : List Byte) : Bool := decide (bs.length ≤ 255)

/-- An instruction can be spelled when its counted lists fit their count byte. -/
def Instr.wf : Instr → Bool
  | .init _ _ => true
  | .avail => true
  | .consume => true
  | .isresp m => m.wf
  | .respond m => m.wf
  | .send m => m.wf
  | .errpush _ => true
  | .errpop => true
  | .errpeek => true
  | .errovf => true
  | .rxb _ _ => true
  | .txc => true
  | .rxerr => true
  | .tmr => true
  | .desync => true
  | .crc16 bs => listWf bs
  | .crcvfy bs => listWf bs
  | .encode _ m => m.wf
  | .decode bs => listWf bs
  | .dirtx => true
  | .dirrx => true

/-- The two internal operations, which are no spelling of a stimulus (R90, R92). -/
def Instr.internal : Instr → Bool
  | .dirtx => true
  | .dirrx => true
  | .init _ _ => false
  | .avail => false
  | .consume => false
  | .isresp _ => false
  | .respond _ => false
  | .send _ => false
  | .errpush _ => false
  | .errpop => false
  | .errpeek => false
  | .errovf => false
  | .rxb _ _ => false
  | .txc => false
  | .rxerr => false
  | .tmr => false
  | .desync => false
  | .crc16 _ => false
  | .crcvfy _ => false
  | .encode _ _ => false
  | .decode _ => false

end Sys2Proof
end

