-- ==== Sys2Proof/Decode.lean ====
section
/-! DEFINITION. Sys2Proof/Decode.lean: the stimulus word and its operand bytes (30_encoding.md R88 to R92): the decoder, total
on any bytes, and the encoder written from the same tables. A stimulus is a stream of bytes, the word's high byte first
(log entry 5). -/

namespace Sys2Proof

/-- A word from its high and low byte. -/
def wordOf (hi lo : Byte) : Word := hi ++ lo

/-- Bits 15:8 of a word. -/
def hiByte (w : Word) : Byte := w.extractLsb' 8 8

/-- Bits 7:0 of a word. -/
def loByte (w : Word) : Byte := w.extractLsb' 0 8

/-- `OPSEL`, bits 15:11 of a stimulus word (R88). -/
def opselOf (w : Word) : BitVec 5 := w.extractLsb' 11 5

/-- Bits 10:9 of a stimulus word, which must be zero (R88). -/
def zeroOf (w : Word) : BitVec 2 := w.extractLsb' 9 2

/-- `F`, bit 8 of a stimulus word (R88). -/
def fOf (w : Word) : Bool := w.getLsbD 8

/-- The stimulus word `{OPSEL, 00, F, B}` (R88). -/
def mkWord (opsel : BitVec 5) (f : Bool) (b : Byte) : Word := opsel ++ 0#2 ++ BitVec.ofBool f ++ b

/-- The role bit of INIT (R22: Slave = 0, Master = 1). -/
def roleOfBit (f : Bool) : Role := if f then .master else .slave

/-- The role bit of INIT, the inverse of `roleOfBit`. -/
def bitOfRole : Role → Bool
  | .slave => false
  | .master => true

/-- The first n bytes and the rest; none when there are fewer (R92: "shorter than its count says"). -/
def takeBytes (n : Nat) (bs : List Byte) : Option (List Byte × List Byte) :=
  if bs.length < n then none else some (bs.take n, bs.drop n)

/-- A message operand `address, flags, command, k, p[0..k-1]` with `flags[7:1]` zero (R89). -/
def decodeMsg : List Byte → Option (Msg × List Byte)
  | a :: fl :: c :: k :: bs =>
    if fl.extractLsb' 1 7 = 0#7 then
      (takeBytes k.toNat bs).map fun (ps, rest) =>
        ({ address := a, rr := fl.getLsbD 0, command := c, params := ps }, rest)
    else none
  | _ => none

/-- A message operand's bytes (R89). -/
def encodeMsg (m : Msg) : List Byte :=
  m.address :: (BitVec.ofBool m.rr).setWidth 8 :: m.command :: BitVec.ofNat 8 m.params.length :: m.params

/-- Format Z: `F` and `B` are zero, no operand bytes (R88). -/
def formatZ (i : Instr) (f : Bool) (b : Byte) (bs : List Byte) : Option (Instr × List Byte) :=
  if f = false ∧ b = 0 then some (i, bs) else none

/-- Format B: `F` is zero, `B` an operand (R88). -/
def formatB (mk : Byte → Instr) (f : Bool) (b : Byte) (bs : List Byte) : Option (Instr × List Byte) :=
  if f = false then some (mk b, bs) else none

/-- Format FB: `F` and `B` are operands (R88). -/
def formatFB (mk : Bool → Byte → Instr) (f : Bool) (b : Byte) (bs : List Byte) : Option (Instr × List Byte) :=
  some (mk f b, bs)

/-- Format M: `F` and `B` are zero, one message operand follows (R88). -/
def formatM (mk : Msg → Instr) (f : Bool) (b : Byte) (bs : List Byte) : Option (Instr × List Byte) :=
  if f = false ∧ b = 0 then (decodeMsg bs).map fun (m, rest) => (mk m, rest) else none

/-- Format BM: `F` is zero, `B` an operand, one message operand follows (R88). -/
def formatBM (mk : Byte → Msg → Instr) (f : Bool) (b : Byte) (bs : List Byte) : Option (Instr × List Byte) :=
  if f = false then (decodeMsg bs).map fun (m, rest) => (mk b m, rest) else none

/-- Format BL: `F` is zero, `B` = k, k bytes follow (R88). -/
def formatBL (mk : List Byte → Instr) (f : Bool) (b : Byte) (bs : List Byte) : Option (Instr × List Byte) :=
  if f = false then (takeBytes b.toNat bs).map fun (l, rest) => (mk l, rest) else none

/-- The row that `OPSEL` selects (R90), read with the operands of the word and the bytes after it. Reserved selectors
(R92) give none. -/
def decodeRow (opsel : BitVec 5) (f : Bool) (b : Byte) (bs : List Byte) : Option (Instr × List Byte) :=
  match opsel.toNat with
  | 0b00000 => formatFB (fun f b => .init (roleOfBit f) b) f b bs
  | 0b00001 => formatZ .avail f b bs
  | 0b00010 => formatZ .consume f b bs
  | 0b00011 => formatM .isresp f b bs
  | 0b00100 => formatM .respond f b bs
  | 0b00101 => formatM .send f b bs
  | 0b00110 => formatB .errpush f b bs
  | 0b00111 => formatZ .errpop f b bs
  | 0b01000 => formatZ .errpeek f b bs
  | 0b01001 => formatZ .errovf f b bs
  | 0b10000 => formatFB .rxb f b bs
  | 0b10001 => formatZ .txc f b bs
  | 0b10010 => formatZ .rxerr f b bs
  | 0b10011 => formatZ .tmr f b bs
  | 0b10100 => formatZ .desync f b bs
  | 0b11000 => formatBL .crc16 f b bs
  | 0b11001 => formatBL .crcvfy f b bs
  | 0b11010 => formatBM .encode f b bs
  | 0b11011 => formatBL .decode f b bs
  | 0b11100 => formatZ .dirtx f b bs
  | 0b11101 => formatZ .dirrx f b bs
  | _ => none

/-- A stimulus word with the bytes after it: any word with bits 10:9 not zero is reserved (R92). -/
def decodeWord (w : Word) (bs : List Byte) : Option (Instr × List Byte) :=
  if zeroOf w = 0 then decodeRow (opselOf w) (fOf w) (loByte w) bs else none

/-- The first operation spelled by a stream of bytes, and the bytes after it. Every row of the table is read, the two
internal ones too. -/
def decodeBytes : List Byte → Option (Instr × List Byte)
  | hi :: lo :: bs => decodeWord (wordOf hi lo) bs
  | _ => none

/-- The decoder at the host port: DIRTX and DIRRX are no stimuli, and it "answers *invalid*" for them too (R92). -/
def decodeStimulus (bs : List Byte) : Option (Instr × List Byte) :=
  match decodeBytes bs with
  | some (i, rest) => if i.internal then none else some (i, rest)
  | none => none

/-- The two bytes of a stimulus word, high byte first (log entry 5). -/
def wordBytes (w : Word) : List Byte := [hiByte w, loByte w]

/-- A format Z, B or FB word. -/
def encodePlain (opsel : BitVec 5) (f : Bool) (b : Byte) : List Byte := wordBytes (mkWord opsel f b)

/-- A format BL word and its bytes. -/
def encodeBL (opsel : BitVec 5) (l : List Byte) : List Byte :=
  encodePlain opsel false (BitVec.ofNat 8 l.length) ++ l

/-- The stimulus word of a well-formed operation and its operand bytes (R88 to R90). -/
def encode : Instr → List Byte
  | .init r a => encodePlain 0b00000 (bitOfRole r) a
  | .avail => encodePlain 0b00001 false 0
  | .consume => encodePlain 0b00010 false 0
  | .isresp m => encodePlain 0b00011 false 0 ++ encodeMsg m
  | .respond m => encodePlain 0b00100 false 0 ++ encodeMsg m
  | .send m => encodePlain 0b00101 false 0 ++ encodeMsg m
  | .errpush c => encodePlain 0b00110 false c
  | .errpop => encodePlain 0b00111 false 0
  | .errpeek => encodePlain 0b01000 false 0
  | .errovf => encodePlain 0b01001 false 0
  | .rxb k d => encodePlain 0b10000 k d
  | .txc => encodePlain 0b10001 false 0
  | .rxerr => encodePlain 0b10010 false 0
  | .tmr => encodePlain 0b10011 false 0
  | .desync => encodePlain 0b10100 false 0
  | .crc16 l => encodeBL 0b11000 l
  | .crcvfy l => encodeBL 0b11001 l
  | .encode n m => encodePlain 0b11010 false n ++ encodeMsg m
  | .decode l => encodeBL 0b11011 l
  | .dirtx => encodePlain 0b11100 false 0
  | .dirrx => encodePlain 0b11101 false 0

/-- The most operand bytes a stimulus has: four bytes of a message operand and 255 parameters (R89). -/
def maxOperandBytes : Nat := 259

/-- The bytes of an instruction given as one number w, numbered as spec/opcode_table.json numbers its bits: the stimulus
word is bits 15:0 (stored high byte first), operand byte k is bits 16+8k+7 : 16+8k; bits at and above nbits are zero. -/
def tableBytes (nbits w : Nat) : List Byte :=
  let v := w % 2 ^ nbits
  wordBytes (BitVec.ofNat 16 v) ++ (List.range maxOperandBytes).map fun k => BitVec.ofNat 8 (v / 2 ^ (16 + 8 * k))

/-- The instruction the decoder reads from a word of the opcode table. -/
def decodeTableWord (nbits w : Nat) : Option Instr :=
  (decodeBytes (tableBytes nbits w)).map fun p => p.1

end Sys2Proof
end

