-- ==== Sys2Proof/Config.lean ====
section
/-! DEFINITION. Sys2Proof/Config.lean: the configuration record `cfg` (00_scope.md R9) and the values the spec leaves open,
each an opaque constant no proof can see. -/

namespace Sys2Proof

/-- Which CRC function an instance was built with (40_crc16.md R111): the default of R112, or some other function, which
the model leaves uninterpreted (log entry 3). -/
inductive CrcFn where
  | modbus
  | other (k : Nat)
deriving DecidableEq, Repr, Inhabited

namespace Config

/-- `SINK_DEPTH` (R9). -/
abbrev sinkDepth : Nat := 8

/-- `ADDR_MAX` (R9). -/
abbrev addrMax : Nat := 127

/-- The largest payload count (R9, 93_implementation_defined.md U11). -/
abbrev countMax : Nat := 251

/-- FREE VALUE: the CRC function of an instance not built with the default (R111, log entry 3). -/
opaque crc16Fn : Nat → List Byte → Word

/-- OPEN: `F_CLK` of the default configuration (R9, log entry 4). -/
opaque fClk : Nat

/-- OPEN: `BAUD` of the default configuration (R9, log entry 4). -/
opaque baud : Nat

/-- FREE VALUE: `ROLE` at reset, unspecified (R45, log entry 2). -/
opaque resetRole : Role

/-- FREE VALUE: `LADDR` at reset, unspecified (R45, log entry 2). -/
opaque resetLaddr : BitVec 7

/-- FREE VALUE: `FRAME[i]` at reset, unspecified (R45, log entry 2). -/
opaque resetFrame : Nat → Byte

/-- FREE VALUE: `CURSOR` at reset, unspecified (R45, log entry 2). -/
opaque resetCursor : BitVec 8

/-- FREE VALUE: `REMAIN` at reset, unspecified (R45, log entry 2). -/
opaque resetRemain : BitVec 8

/-- FREE VALUE: `INUSE` at reset, unspecified (R45, log entry 2). -/
opaque resetInuse : Bool

/-- FREE VALUE: `STK[i]` at reset, unspecified (R45, log entry 2). -/
opaque resetStk : Nat → Byte

/-- FREE VALUE: what ERRPOP and ERRPEEK return for an index of `STK` beyond its eight entries, which only a launch state
UNKNOWN or RESET with `SP` above 8 reaches (R28, R213, log entry 11). -/
opaque stkBeyond : Nat → Byte

end Config

/-- The configuration record (R9). Its fixed entries `SINK_DEPTH` and `ADDR_MAX` are `Config.sinkDepth` and
`Config.addrMax`. -/
structure Cfg where
  /-- `N_PARAM` -/
  nParam : Nat
  /-- `N_RET` -/
  nRet : Nat
  /-- `T_TURN_MS` -/
  tTurnMs : Nat
  /-- `F_CLK`, read by no rule -/
  fClk : Nat
  /-- `BAUD`, read by no rule -/
  baud : Nat
  /-- `CRC16_FN` (R111) -/
  crcFn : CrcFn
deriving DecidableEq, Repr, Inhabited

/-- The defaults of R9: 8 parameters, 8 return values, 5 ms, CRC-16/MODBUS. `F_CLK` and `BAUD` have no default and stay
open (log entry 4). -/
def Cfg.standard : Cfg where
  nParam := 8
  nRet := 8
  tTurnMs := 5
  fClk := Config.fClk
  baud := Config.baud
  crcFn := .modbus

/-- `L_REQ`, the request frame's length (R9). -/
def Cfg.lReq (c : Cfg) : Nat := c.nParam + 4

/-- `L_RSP`, the response frame's length (R9). -/
def Cfg.lRsp (c : Cfg) : Nat := c.nRet + 4

/-- `LMAX`, the frame buffer's capacity (R9). -/
def Cfg.lMax (c : Cfg) : Nat := max c.lReq c.lRsp

/-- Both counts are 0 to 251 (R9). -/
def Cfg.inRange (c : Cfg) : Bool := decide (c.nParam ≤ 251) && decide (c.nRet ≤ 251)

end Sys2Proof
end

