-- ==== Sys2Proof/Machine/State.lean ====
section
/-! DEFINITION. Sys2Proof/Machine/State.lean: the thirteen state elements of 10_state.md R20, the interface registers of one
step (R15, R231), the reset state (R45) and the reasons a step can stop. -/

namespace Sys2Proof.Machine

/-- The protocol state (R24). -/
inductive PState where
  | init
  | request
  | command
  | msgbody
  | process
  | response
  | unknown
  | reset
deriving DecidableEq, Repr, Inhabited

/-- The 3-bit value of a protocol state (R24). -/
def PState.value : PState → BitVec 3
  | .init => 0
  | .request => 1
  | .command => 2
  | .msgbody => 3
  | .process => 4
  | .response => 5
  | .unknown => 6
  | .reset => 7

/-- The transceiver direction line (R29). -/
inductive Dir where
  | rx
  | tx
deriving DecidableEq, Repr, Inhabited

/-- The transmit phase (R30); `value3` is the 2-bit value 3, which no rule writes. -/
inductive TxPhase where
  | none
  | settle
  | sending
  | value3
deriving DecidableEq, Repr, Inhabited

/-- The 2-bit value of a transmit phase (R20, R30). -/
def TxPhase.value : TxPhase → BitVec 2
  | .none => 0
  | .settle => 1
  | .sending => 2
  | .value3 => 3

/-- The one-bit value of a role (R22). -/
def roleValue : Role → BitVec 1
  | .slave => 0
  | .master => 1

/-- The one-bit value of the direction line (R29). -/
def Dir.value : Dir → BitVec 1
  | .rx => 0
  | .tx => 1

/-- The ten error codes (60_exceptions.md R220). -/
inductive ErrCode where
  | noRequestExpected
  | noResponseExpected
  | noRequestAvailable
  | addressInvalid
  | broadcastNoResponse
  | invalidParamSize
  | frameError
  | invalidCrc
  | requestDropped
  | stateMachineReset
deriving DecidableEq, Repr, Inhabited

/-- The frame buffer as a memory (20_memory.md section 1): byte i is the list's element i. -/
abbrev Memory := List Byte

/-- The complete state of one instance of the block, exactly the fields of R20. -/
structure Block where
  /-- `ROLE` (R22). -/
  role : Role
  /-- `LADDR` (R23). -/
  laddr : BitVec 7
  /-- `PSTATE` (R24). -/
  pstate : PState
  /-- `FRAME[0..LMAX-1]` (R33). -/
  frame : Memory
  /-- `CURSOR` (R34). -/
  cursor : BitVec 8
  /-- `REMAIN` (R35). -/
  remain : BitVec 8
  /-- `INUSE` (R36). -/
  inuse : Bool
  /-- `DIR` (R29). -/
  dir : Dir
  /-- `TXPH` (R30). -/
  txph : TxPhase
  /-- `AFILT` (R31). -/
  afilt : Bool
  /-- `STK[0..7]` (R40). -/
  stk : Vector Byte 8
  /-- `SP` (R40). -/
  sp : BitVec 4
  /-- `OVF` (R41). -/
  ovf : Bool
deriving DecidableEq, Repr

/-- An output action of a step (00_scope.md R15). -/
inductive Action where
  | uartTx (mark : Bool) (data : Byte)
  | timerStart (ms : Nat)
  | timerCancel
deriving DecidableEq, Repr, Inhabited

/-- A message CONSUME or DECODE returns (R18): it also has the CRC field. -/
structure RxMsg where
  address : Byte
  rr : Bool
  command : Byte
  params : List Byte
  crc16 : Word
deriving DecidableEq, Repr, Inhabited

/-- The result a step returns to its caller (30_encoding.md R98). Status and code bytes are the values of R91, 0 for
success or for an empty sink. -/
inductive Result where
  /-- nothing is returned (INIT, ERRPUSH, the events, an internal operation) -/
  | nothing
  /-- SEND, RESPOND -/
  | status (e : Byte)
  /-- AVAIL, ISRESP, ERROVF, CRCVFY -/
  | bit (b : Bool)
  /-- ERRPOP, ERRPEEK -/
  | code (c : Byte)
  /-- CRC16 -/
  | word (w : Word)
  /-- ENCODE -/
  | encoded (e : Byte) (bytes : List Byte)
  /-- CONSUME, DECODE -/
  | message (e : Byte) (m : Option RxMsg)
deriving DecidableEq, Repr, Inhabited

/-- The machine's state: the block (R20), its configuration (R9, R21: a parameter of every step; log entry 1), the stimulus
bytes the environment has yet to present (R231, log entry 5), and the result and output actions of the last step (R15, log
entry 6). -/
structure State where
  cfg : Cfg
  blk : Block
  input : List Byte
  result : Result
  actions : List Action
deriving DecidableEq, Repr

/-- No step of this machine faults: no behaviour of the block is treated as `fault` or `stuck`, since "The engine never
halts on error" (60_exceptions.md R225, 93_implementation_defined.md section 1). The type is closed and has no
constructor. -/
inductive Fault where
deriving DecidableEq, Repr

/-- Why a step has no meaning (00_scope.md R17). Every one is SAFE: the model stops where the spec gives no meaning. -/
inductive Refusal where
  /-- Raised by no arm of this model (the host's name for an instruction without a meaning). Safe. -/
  | notModelled (mnemonic : String)
  /-- Raised by `step` when the environment presents nothing: a step is one operation (R14). Safe. -/
  | noOperation
  /-- Raised by `step` on a reserved, malformed or truncated stimulus (R92). Safe. -/
  | reservedStimulus
  /-- Raised by `step` when DIRTX or DIRRX is presented as a stimulus (R92). Safe. -/
  | internalStimulus
  /-- Raised by every operation when a payload count is above 251 (R9, U15). Safe. -/
  | configOutOfRange
  /-- Raised by every operation when `TXPH` holds the value 3 (R30, U5). Safe. -/
  | txphValue3
  /-- Raised by every operation at a launch state that is no row of the table of R44 (U6, log entry 7). Safe. -/
  | launchStateOffTable
  /-- Raised by INIT when `PSTATE` is not INIT (R152 a, U7). Safe. -/
  | initOutsideInit
  /-- Raised by INIT of a slave with address 0 (R152 b, U8). Safe. -/
  | initSlaveBroadcast
  /-- Raised by INIT of a slave with an address above 127 (R152 c, U8). Safe. -/
  | initSlaveOutOfRange
  /-- Raised by CRCVFY of fewer than 2 bytes (R115, U11). Safe. -/
  | crcvfyTooShort
  /-- Raised by DECODE of fewer than 4 bytes (R126, U11). Safe. -/
  | decodeTooShort
  /-- Raised by ENCODE with a payload count above 251 (R122, U11). Safe. -/
  | encodeCountTooLarge
deriving DecidableEq, Repr

/-- What one operation answers. -/
abbrev StepResult := Host.Outcome State Fault Refusal

/-- The block after power-on reset (R45): the elements the spec leaves unspecified hold opaque values (log entry 2). -/
def Block.reset : Block where
  role := Config.resetRole
  laddr := Config.resetLaddr
  pstate := .init
  frame := (List.range Cfg.standard.lMax).map Config.resetFrame
  cursor := Config.resetCursor
  remain := Config.resetRemain
  inuse := Config.resetInuse
  dir := .rx
  txph := .none
  afilt := false
  stk := #v[Config.resetStk 0, Config.resetStk 1, Config.resetStk 2, Config.resetStk 3,
    Config.resetStk 4, Config.resetStk 5, Config.resetStk 6, Config.resetStk 7]
  sp := 0
  ovf := false

/-- The machine right after reset (R45, R260): the default configuration, nothing presented, no result, no action. -/
def State.reset : State where
  cfg := Cfg.standard
  blk := Block.reset
  input := []
  result := .nothing
  actions := []

end Sys2Proof.Machine
end

