-- ==== Sys2Proof/Machine/Operands.lean ====
section
/-! DEFINITION. Sys2Proof/Machine/Operands.lean: the operand values of the rules: the frame buffer read and written by
index, the frame lengths, the CRC function, the frame codec's functions and the address match. -/

namespace Sys2Proof.Machine

/-! ### The frame buffer as a memory (20_memory.md) -/

/-- The buffer holds `LMAX` bytes (R60). -/
def Memory.wf (lmax : Nat) (m : Memory) : Bool := decide (m.length = lmax)

/-- Byte i of the buffer; none at an index that does not exist (R60). -/
def Memory.read (m : Memory) (i : Nat) : Option Byte := m[i]?

/-- `FRAME[i]` as a value; the rules read it below the frame's length only (R65). -/
def Memory.byte (m : Memory) (i : Nat) : Byte := m.getD i 0

/-- `FRAME[i] <- v` (R13); an index that does not exist holds nothing. -/
def Memory.write (m : Memory) (i : Nat) (v : Byte) : Memory := m.set i v

/-- The buffer with every byte zero (R38). -/
def Memory.zeros (lmax : Nat) : Memory := List.replicate lmax 0

/-- The two-byte CRC field whose low byte is at index i (R62, R63, R85). -/
def crcField (bs : List Byte) (i : Nat) : Word := wordOf (bs.getD (i + 1) 0) (bs.getD i 0)

/-! ### Frame lengths (R66) -/

/-- `rxlen()` (R66). -/
def rxLen (c : Cfg) : Role → Nat
  | .slave => c.lReq
  | .master => c.lRsp

/-- `txlen()` (R66). -/
def txLen (c : Cfg) : Role → Nat
  | .master => c.lReq
  | .slave => c.lRsp

/-- `rxn()` (R66). -/
def rxN (c : Cfg) (r : Role) : Nat := rxLen c r - 4

/-- `txn()` (R66). -/
def txN (c : Cfg) (r : Role) : Nat := txLen c r - 4

/-! ### The CRC function (40_crc16.md) -/

/-- One bit step of the default CRC (R112). -/
def crcBit (c : Word) : Word := if c.getLsbD 0 then (c >>> 1) ^^^ 0xA001#16 else c >>> 1

/-- n bit steps. -/
def crcBits : Nat → Word → Word
  | 0, c => c
  | n + 1, c => crcBits n (crcBit c)

/-- One byte step of the default CRC (R112). -/
def crcByte (c : Word) (b : Byte) : Word := crcBits 8 (c ^^^ b.setWidth 16)

/-- `crc16_default`, CRC-16/MODBUS (R112). -/
def crc16Modbus (bs : List Byte) : Word := bs.foldl crcByte 0xFFFF#16

/-- `crc16`, the configuration's CRC function (R111). -/
def crc16 (c : Cfg) (bs : List Byte) : Word :=
  match c.crcFn with
  | .modbus => crc16Modbus bs
  | .other k => Config.crc16Fn k bs

/-- `crc_verify(f)`, for a list of at least two bytes (R115). -/
def crcVerify (c : Cfg) (f : List Byte) : Bool :=
  crc16 c (f.take (f.length - 2)) == crcField f (f.length - 2)

/-! ### The frame codec (41_frame_codec.md) -/

/-- `validate(msg, N)`, the first failing check (R123, R124). -/
def validate (m : Msg) (n : Nat) : Option ErrCode :=
  if Config.addrMax < m.address.toNat then some .addressInvalid
  else if m.address = 0 ∧ m.rr = true then some .broadcastNoResponse
  else if n < m.params.length then some .invalidParamSize
  else none

/-- The address byte `{rr, address[6:0]}` (R84). -/
def addressByte (rr : Bool) (address : Byte) : Byte := BitVec.ofBool rr ++ address.extractLsb' 0 7

/-- The N + 2 bytes a frame's CRC covers: address byte, command, zero-padded parameters (R110, R121). -/
def frameSpan (m : Msg) (n : Nat) : List Byte :=
  addressByte m.rr m.address :: m.command :: (List.range n).map fun i => m.params.getD i 0

/-- `encode(msg, N)`: the span and its CRC, low byte first (R121). -/
def encodeFrame (c : Cfg) (m : Msg) (n : Nat) : List Byte :=
  let crc := crc16 c (frameSpan m n)
  frameSpan m n ++ [loByte crc, hiByte crc]

/-- The message view of a frame with payload count N (R33, R125). -/
def messageView (bs : List Byte) (n : Nat) : RxMsg where
  address := ((bs.getD 0 0).extractLsb' 0 7).setWidth 8
  rr := (bs.getD 0 0).getLsbD 7
  command := bs.getD 1 0
  params := (bs.drop 2).take n
  crc16 := crcField bs (n + 2)

/-- `decode(bytes, N)`: the broadcast check and the message (R125). -/
def decodeFrame (bs : List Byte) (n : Nat) : Option ErrCode × RxMsg :=
  let m := messageView bs n
  (if m.address = 0 ∧ m.rr = true then some .broadcastNoResponse else none, m)

/-! ### Addresses -/

/-- The address match of a slave: its own address or broadcast, bit 7 taking no part (R184). -/
def addressMatch (laddr : BitVec 7) (b : Byte) : Bool :=
  b.extractLsb' 0 7 == laddr || b.extractLsb' 0 7 == 0

/-! ### Code values -/

/-- The numeric value of an error code (30_encoding.md R91). -/
def ErrCode.code : ErrCode → Byte
  | .noRequestExpected => 1
  | .noResponseExpected => 2
  | .noRequestAvailable => 3
  | .addressInvalid => 4
  | .broadcastNoResponse => 5
  | .invalidParamSize => 6
  | .frameError => 7
  | .invalidCrc => 8
  | .requestDropped => 9
  | .stateMachineReset => 10

/-- The value of a status: 0 for success (R91). -/
def statusCode : Option ErrCode → Byte
  | none => 0
  | some e => e.code

end Sys2Proof.Machine
end

