-- ==== Sys2Proof/Machine/Flags.lean ====
section
/-! DEFINITION. Sys2Proof/Machine/Flags.lean: the block's flags and state predicates (10_state.md R31, R39, R40), and which
launch states the rules are stated for (R44, 93_implementation_defined.md U5, U6, U15). -/

namespace Sys2Proof.Machine

/-- The availability flag, a predicate and no register (R39). -/
def Block.available (b : Block) : Bool := b.pstate == .process

/-- The address filter of a node idling in REQUEST (R31). -/
def idleFilter : Role → Bool
  | .slave => true
  | .master => false

/-- The codes the sink holds, oldest first (R40). -/
def Block.held (b : Block) : List Byte := b.stk.toList.take b.sp.toNat

/-- RESPOND is eligible: RESPONSE before a response is loaded (R160). -/
def Block.respondEligible (b : Block) : Bool := b.pstate == .response && b.txph == .none

/-- A hardware event in this state is a desynchronization (R28, R182 b). -/
def Block.lost (b : Block) : Bool := b.pstate == .unknown || b.pstate == .reset

/-- The bus is not driven and no frame is being sent. -/
def Block.listening (b : Block) : Bool := b.dir == .rx && b.txph == .none

/-- The line is switched and the turnaround timer armed (R30). -/
def Block.settling (b : Block) : Bool := b.dir == .tx && b.txph == .settle

/-- A character of the loaded frame is in flight (R30). -/
def Block.sendingPhase (b : Block) : Bool := b.dir == .tx && b.txph == .sending

/-- `CURSOR` and `REMAIN` hold these values. -/
def Block.counters (b : Block) (cursor remain : Nat) : Bool :=
  b.cursor.toNat == cursor && b.remain.toNat == remain

/-- `CURSOR` lies between two bounds and `REMAIN` counts up to the length l (R35). -/
def Block.between (b : Block) (lo hi l : Nat) : Bool :=
  decide (lo ≤ b.cursor.toNat) && decide (b.cursor.toNat ≤ hi) && b.cursor.toNat + b.remain.toNat == l

/-- The rows of the table of R44, all columns but `FRAME`. UNKNOWN and RESET are launch states with a meaning of their own
(R28). -/
def Block.onTable (c : Cfg) (b : Block) : Bool :=
  match b.pstate with
  | .init => b.listening && !b.afilt
  | .request => b.listening && b.afilt == idleFilter b.role && !b.inuse && b.counters 0 0
  | .command => !b.afilt && b.inuse &&
      ((b.listening && b.counters 1 (rxLen c b.role - 1)) ||
       (b.role == .master && b.settling && b.counters 0 c.lReq) ||
       (b.role == .master && b.sendingPhase && b.counters 1 (c.lReq - 1)))
  | .msgbody => !b.afilt && b.inuse &&
      ((b.listening && b.between 2 (rxLen c b.role - 1) (rxLen c b.role)) ||
       (b.role == .master && b.sendingPhase && b.between 2 c.lReq c.lReq))
  | .process => b.listening && b.afilt && b.inuse && b.counters (rxLen c b.role) 0
  | .response => b.role == .slave && b.afilt && b.inuse &&
      ((b.listening && b.counters c.lReq 0) ||
       (b.settling && b.counters 0 c.lRsp) ||
       (b.sendingPhase && b.between 1 c.lRsp c.lRsp))
  | .unknown => true
  | .reset => true

/-- Every byte from index i on is zero (R44 "rest zero"). -/
def Memory.zeroFrom (i : Nat) (m : Memory) : Bool := (m.drop i).all fun v => v == 0

/-- The buffer holds a whole frame of length l that the block itself received or encoded: its CRC verifies, byte 0 is not
the broadcast address with the response flag, and nothing follows it (R44, R33, R93 a). -/
def Memory.holdsFrame (c : Cfg) (l : Nat) (m : Memory) : Bool :=
  crcVerify c (m.take l) && m.byte 0 != 0x80 && m.zeroFrom l

/-- The column `FRAME` of the table of R44. An encoded request or response is a frame that verifies and is not addressed to
`0x80`: `encode` makes every such frame, and no other. -/
def Block.frameOnTable (c : Cfg) (b : Block) : Bool :=
  match b.pstate with
  | .init => true
  | .request => b.frame.zeroFrom 0
  | .command => if b.txph = .none then b.frame.zeroFrom 1 else b.frame.holdsFrame c c.lReq
  | .msgbody => if b.txph = .none then b.frame.zeroFrom b.cursor.toNat else b.frame.holdsFrame c c.lReq
  | .process => b.frame.holdsFrame c (rxLen c b.role)
  | .response =>
      if b.txph = .none then b.frame.holdsFrame c c.lReq && (b.frame.byte 0).getLsbD 7
      else b.frame.holdsFrame c c.lRsp
  | .unknown => true
  | .reset => true

/-- The fill count lies in its range (R20, R44); of UNKNOWN and RESET nothing is asked (R28, log entry 11). -/
def Block.sinkOnTable (b : Block) : Bool := b.lost || decide (b.sp.toNat ≤ Config.sinkDepth)

/-- Why the rules are not stated for a launch state, if they are not (U15, U5, U6). -/
def launchRefusal (s : State) : Option Refusal :=
  if s.cfg.inRange = false then some .configOutOfRange
  else if s.blk.txph = .value3 then some .txphValue3
  else if (Memory.wf s.cfg.lMax s.blk.frame && s.blk.sinkOnTable && s.blk.onTable s.cfg &&
      s.blk.frameOnTable s.cfg) = false then some .launchStateOffTable
  else none

/-- The rules are stated for this state. -/
def State.legal (s : State) : Bool := (launchRefusal s).isNone

end Sys2Proof.Machine
end

