-- ==== Sys2Proof/Machine/Ops.lean ====
section
/-! DEFINITION. Sys2Proof/Machine/Ops.lean: the procedures the rules share (00_scope.md R16): outputs of a step, the error
sink's push, `report`, `enter_request`, `desync`, `load_tx`, the byte-transfer primitives, `frame_complete`, and the
presentation of a stimulus. A reported error is this block's exception: it saves nothing and transfers no control
(60_exceptions.md R224, R232), and there is no return operation (R234). -/

namespace Sys2Proof.Machine

/-! ### Outputs of a step (R15) -/

/-- A step begins with no result and no action. -/
def State.start (s : State) : State := { s with result := .nothing, actions := [] }

/-- `emit a`: the actions of a step stand in order (R15). -/
def emit (a : Action) (s : State) : State := { s with actions := s.actions ++ [a] }

/-- `result <- r`. -/
def returns (r : Result) (s : State) : State := { s with result := r }

/-- An ignored operation: the block is unchanged, no output, no result (R17). -/
def ignored (s : State) : State := s.start

/-- An operation whose caller gets r and which changes nothing of the block. -/
def answers (r : Result) (s : State) : State := returns r s.start

/-- A rule runs only at a state it is stated for (U5, U6, U15). -/
def guarded (s : State) (k : StepResult) : StepResult :=
  match launchRefusal s with
  | some r => .refused r
  | none => k

/-- An internal operation is one part of a step already under way, so the table of R44 is not asked of it; the two
refusals of R9 and R30 hold all the same. -/
def guardedInternal (s : State) (k : StepResult) : StepResult :=
  if s.cfg.inRange = false then .refused .configOutOfRange
  else if s.blk.txph = .value3 then .refused .txphValue3
  else k

/-! ### The error sink (45_error_sink.md) -/

/-- `sink_push(c)` on the block (R211). -/
def Block.push (c : Byte) (b : Block) : Block :=
  if b.sp.toNat < Config.sinkDepth then
    { b with stk := b.stk.setIfInBounds b.sp.toNat c, sp := b.sp + 1 }
  else { b with ovf := true }

/-- `STK[SP-1]`, the newest held code, 0 for an empty sink (R213, R214). Beyond the eight entries it is a free value, the
spec stating none (log entry 11). -/
def Block.top (b : Block) : Byte :=
  if 0 < b.sp.toNat then b.stk.toList.getD (b.sp.toNat - 1) (Config.stkBeyond (b.sp.toNat - 1)) else 0

/-- Removal of the newest code: the entry stays in `STK` as a stale value (R213). -/
def Block.pop (b : Block) : Block := if 0 < b.sp.toNat then { b with sp := b.sp - 1 } else b

/-- `sink_push(c)` (R211). -/
def sinkPush (c : Byte) (s : State) : State := { s with blk := s.blk.push c }

/-- `report(E)`: push the code and make it the status (R224). -/
def report (e : ErrCode) (s : State) : State := returns (.status e.code) (sinkPush e.code s)

/-! ### Direction (42_bus_direction.md) -/

/-- The direction part of `load_tx` (R138). -/
def dirTx (s : State) : State :=
  emit (.timerStart s.cfg.tTurnMs) { s with blk := { s.blk with dir := .tx, txph := .settle } }

/-- The direction part of `enter_request` (R139): an armed timer is cancelled, the line switches back. -/
def dirRx (s : State) : State :=
  let s' := if s.blk.txph = .settle then emit .timerCancel s else s
  { s' with blk := { s'.blk with txph := .none, dir := .rx } }

/-! ### Procedures of the state machine -/

/-- The buffer and its bookkeeping zeroed, the filter of an idle node, REQUEST (R181). -/
def Block.idle (c : Cfg) (b : Block) : Block :=
  { b with
    frame := Memory.zeros c.lMax
    cursor := 0
    remain := 0
    inuse := false
    afilt := idleFilter b.role
    pstate := .request }

/-- `enter_request()`, the one way into REQUEST (R181). -/
def enterRequest (s : State) : State :=
  let s' := dirRx s
  { s' with blk := s'.blk.idle s'.cfg }

/-- `desync()` (R182): the pseudostate RESET is passed through inside the step and is not observable (R26). -/
def desync (s : State) : State := enterRequest (sinkPush ErrCode.stateMachineReset.code s)

/-- The whole buffer after a frame is loaded: the frame, then zeros (R137). -/
def frameImage (c : Cfg) (m : Msg) (n : Nat) : Memory :=
  (List.range c.lMax).map fun i => (encodeFrame c m n).getD i 0

/-- `load_tx(msg, N)` (R137). -/
def loadTx (m : Msg) (n : Nat) (s : State) : State :=
  dirTx { s with blk := { s.blk with
    frame := frameImage s.cfg m n
    cursor := 0
    remain := BitVec.ofNat 8 (n + 4) } }

/-- The receive store at the cursor with post-increment (R69). -/
def rxStore (b : Byte) (s : State) : State :=
  { s with blk := { s.blk with
    frame := s.blk.frame.write s.blk.cursor.toNat b
    cursor := s.blk.cursor + 1
    remain := s.blk.remain - 1 } }

/-- The transmit load at the cursor with post-increment (R70). -/
def txNext (mark : Bool) (s : State) : State :=
  emit (.uartTx mark (s.blk.frame.byte s.blk.cursor.toNat)) { s with blk := { s.blk with
    cursor := s.blk.cursor + 1
    remain := s.blk.remain - 1 } }

/-- `frame_complete()` (R190): CRC first, then the broadcast check, then PROCESS. -/
def frameComplete (s : State) : State :=
  let l := rxLen s.cfg s.blk.role
  if crc16 s.cfg (s.blk.frame.take (l - 2)) ≠ crcField s.blk.frame (l - 2) then
    enterRequest (sinkPush ErrCode.invalidCrc.code s)
  else if s.blk.frame.byte 0 = 0x80 then
    enterRequest (sinkPush ErrCode.broadcastNoResponse.code s)
  else
    { s with blk := { s.blk with afilt := true, pstate := .process } }

/-! ### The presentation of a stimulus -/

/-- The next operation the environment presents (R14, R231) and the state with its bytes taken from the input; a
reserved, malformed or truncated stimulus has no meaning (R92). -/
def present (s : State) : Except Refusal (Instr × State) :=
  match s.input with
  | [] => .error .noOperation
  | bs =>
    match decodeStimulus bs with
    | some (i, rest) => .ok (i, { s with input := rest })
    | none => .error (if (decodeBytes bs).isSome then .internalStimulus else .reservedStimulus)

end Sys2Proof.Machine
end

