-- ==== Sys2Proof/Machine/Api.lean ====
section
/-! DEFINITION. Sys2Proof/Machine/Api.lean: the application operations (43_psm_api.md). A failing one reports exactly one
code and changes nothing else (R150). -/

namespace Sys2Proof.Machine

/-- "store role/address" (R151): the low 7 bits of the address operand, for a master too (R23). -/
def storeIdentity (role : Role) (addr : Byte) (s : State) : State :=
  { s with blk := { s.blk with role := role, laddr := addr.extractLsb' 0 7 } }

/-- INIT (R151); outside its preconditions it is refused (R152). -/
def execInit (role : Role) (addr : Byte) (s : State) : StepResult :=
  guarded s
    (if s.blk.pstate ≠ .init then .refused .initOutsideInit
     else if role = .slave ∧ addr = 0 then .refused .initSlaveBroadcast
     else if role = .slave ∧ Config.addrMax < addr.toNat then .refused .initSlaveOutOfRange
     else .next (enterRequest (storeIdentity role addr s.start)))

/-- AVAIL (R153). -/
def execAvail (s : State) : StepResult := guarded s (.next (answers (.bit s.blk.available) s))

/-- CONSUME in PROCESS (R155): a slave that owes a response enters RESPONSE, every other node REQUEST. The message is a
copy of the frame's fields (R156). -/
def consumeFrame (s : State) : State :=
  let m := messageView (s.blk.frame.take (rxLen s.cfg s.blk.role)) (rxN s.cfg s.blk.role)
  let s' :=
    if s.blk.role = .slave ∧ (s.blk.frame.byte 0).getLsbD 7 = true then
      { s with blk := { s.blk with pstate := .response } }
    else enterRequest s
  returns (.message 0 (some m)) s'

/-- CONSUME (R154). -/
def execConsume (s : State) : StepResult :=
  guarded s
    (if s.blk.pstate ≠ .process then
      .next (returns (.message ErrCode.noRequestAvailable.code none) (report .noRequestAvailable s.start))
     else .next (consumeFrame s.start))

/-- ISRESP (R157): the operand's flag; no state is read. -/
def execIsresp (msg : Msg) (s : State) : StepResult := guarded s (.next (answers (.bit msg.rr) s))

/-- RESPOND in the eligible state with a valid message (R162). -/
def respondLoad (msg : Msg) (s : State) : State := returns (.status 0) (loadTx msg s.cfg.nRet s)

/-- RESPOND (R160, R161, R162). -/
def execRespond (msg : Msg) (s : State) : StepResult :=
  guarded s
    (if s.blk.respondEligible = false then .next (report .noResponseExpected s.start)
     else
      match validate msg s.cfg.nRet with
      | some e => .next (report e s.start)
      | none => .next (respondLoad msg s.start))

/-- SEND by a master in REQUEST with a valid message (R170). -/
def sendLoad (msg : Msg) (s : State) : State :=
  let s' := loadTx msg s.cfg.nParam s
  returns (.status 0) { s' with blk := { s'.blk with inuse := true, afilt := false, pstate := .command } }

/-- SEND (R168, R169, R170): `PSTATE` is tested before `ROLE`. -/
def execSend (msg : Msg) (s : State) : StepResult :=
  guarded s
    (if ¬(s.blk.pstate = .request ∧ s.blk.role = .master) then .next (report .noRequestExpected s.start)
     else
      match validate msg s.cfg.nParam with
      | some e => .next (report e s.start)
      | none => .next (sendLoad msg s.start))

end Sys2Proof.Machine
end

