-- ==== Sys2Proof/Machine/Codec.lean ====
section
/-! DEFINITION. Sys2Proof/Machine/Codec.lean: the Frame Codec's queries (41_frame_codec.md). They change no state and push
nothing (R122, R126). -/

namespace Sys2Proof.Machine

/-- ENCODE (R122): the failing check's status and no bytes, or 0 and the frame; N > 251 is refused (U11). -/
def execEncode (n : Byte) (msg : Msg) (s : State) : StepResult :=
  guarded s
    (if Config.countMax < n.toNat then .refused .encodeCountTooLarge
     else
      match validate msg n.toNat with
      | some e => .next (answers (.encoded e.code []) s)
      | none => .next (answers (.encoded 0 (encodeFrame s.cfg msg n.toNat)) s))

/-- DECODE (R126): N = k - 4; k < 4 is refused (U11); the CRC is not checked. -/
def execDecode (bytes : List Byte) (s : State) : StepResult :=
  guarded s
    (if bytes.length < 4 then .refused .decodeTooShort
     else
      let d := decodeFrame bytes (bytes.length - 4)
      .next (answers (.message (statusCode d.1) (some d.2)) s))

end Sys2Proof.Machine
end

