-- ==== Sys2Proof/Machine/Crc.lean ====
section
/-! DEFINITION. Sys2Proof/Machine/Crc.lean: the CRC16 Engine's queries (40_crc16.md section 3). They change no state. -/

namespace Sys2Proof.Machine

/-- CRC16 (R114): the function's value on any list; the length is not checked. -/
def execCrc16 (bytes : List Byte) (s : State) : StepResult :=
  guarded s (.next (answers (.word (crc16 s.cfg bytes)) s))

/-- CRCVFY (R115): k < 2 is refused, no CRC field exists (U11). -/
def execCrcvfy (bytes : List Byte) (s : State) : StepResult :=
  guarded s
    (if bytes.length < 2 then .refused .crcvfyTooShort
     else .next (answers (.bit (crcVerify s.cfg bytes)) s))

end Sys2Proof.Machine
end

