-- ==== Sys2Proof/Machine/Direction.lean ====
section
/-! DEFINITION. Sys2Proof/Machine/Direction.lean: the Bus Direction Controller (42_bus_direction.md): the two internal
operations and the timer event. -/

namespace Sys2Proof.Machine

/-- DIRTX (R138), the direction part of `load_tx`. As a stimulus it is refused before it gets here (R92, `present`). -/
def execDirtx (s : State) : StepResult := guardedInternal s (.next (dirTx s.start))

/-- DIRRX (R139), the direction part of `enter_request`. As a stimulus it is refused before it gets here (R92,
`present`). -/
def execDirrx (s : State) : StepResult := guardedInternal s (.next (dirRx s.start))

/-- TMR with `TXPH = SETTLE` (R143): byte 0 goes out, marked when the node is a master. -/
def tmrFirstByte (s : State) : State :=
  let s' := emit (.uartTx (s.blk.role == .master) (s.blk.frame.byte 0)) s
  { s' with blk := { s'.blk with cursor := 1, remain := s'.blk.remain - 1, txph := .sending } }

/-- TMR (R142): the dispatch, first matching line. -/
def execTmr (s : State) : StepResult :=
  guarded s
    (if s.blk.pstate = .init then .next (ignored s)
     else if s.blk.lost then .next (desync s.start)
     else if s.blk.txph = .settle then .next (tmrFirstByte s.start)
     else .next (ignored s))

end Sys2Proof.Machine
end

