-- ==== Sys2Proof/Machine/Events.lean ====
section
/-! DEFINITION. Sys2Proof/Machine/Events.lean: the hardware events of the UART and of the environment (44_psm_events.md).
Events return no result (R180). -/

namespace Sys2Proof.Machine

/-- RXB in REQUEST (R186): a slave takes a matching address byte, a master any character. -/
def rxRequest (b : Byte) (s : State) : State :=
  if s.blk.role = .slave ∧ addressMatch s.blk.laddr b = false then s
  else
    { s with blk := { s.blk with
      frame := s.blk.frame.write 0 b
      cursor := 1
      remain := BitVec.ofNat 8 (rxLen s.cfg s.blk.role - 1)
      inuse := true
      afilt := false
      pstate := .command } }

/-- RXB in COMMAND (R187): a marked character is a desynchronization. -/
def rxCommand (mark : Bool) (b : Byte) (s : State) : State :=
  if mark then desync s
  else
    { s with blk := { s.blk with
      frame := s.blk.frame.write 1 b
      cursor := 2
      remain := BitVec.ofNat 8 (rxLen s.cfg s.blk.role - 2)
      pstate := .msgbody } }

/-- RXB in MSGBODY (R189): the last byte completes the frame in the same step. -/
def rxBody (mark : Bool) (b : Byte) (s : State) : State :=
  if mark then desync s
  else
    let s' := rxStore b s
    if s'.blk.remain = 0 then frameComplete s' else s'

/-- RXB in PROCESS or RESPONSE (R188): the old frame is kept, the new one dropped. -/
def rxBusy (b : Byte) (s : State) : State :=
  if s.blk.role = .master ∨ addressMatch s.blk.laddr b = true then sinkPush ErrCode.requestDropped.code s
  else s

/-- RXB (R185): the dispatch, first matching line. -/
def execRxb (mark : Bool) (data : Byte) (s : State) : StepResult :=
  guarded s
    (if s.blk.pstate = .init then .next (ignored s)
     else if s.blk.lost then .next (desync s.start)
     else if s.blk.dir = .tx then .next (ignored s)
     else if s.blk.afilt = true ∧ mark = false then .next (ignored s)
     else if s.blk.pstate = .request then .next (rxRequest data s.start)
     else if s.blk.pstate = .command then .next (rxCommand mark data s.start)
     else if s.blk.pstate = .msgbody then .next (rxBody mark data s.start)
     else .next (rxBusy data s.start))

/-- TXC with `TXPH = SENDING` (R193): the next byte goes out without a mark, or the transfer ends. -/
def txcSending (s : State) : State :=
  if 0 < s.blk.remain.toNat then
    let s' := txNext false s
    if s'.blk.pstate = .command then { s' with blk := { s'.blk with pstate := .msgbody } } else s'
  else enterRequest s

/-- TXC (R192): the dispatch, first matching line. -/
def execTxc (s : State) : StepResult :=
  guarded s
    (if s.blk.pstate = .init then .next (ignored s)
     else if s.blk.lost then .next (desync s.start)
     else if s.blk.txph = .sending then .next (txcSending s.start)
     else .next (ignored s))

/-- RXERR (R195): FrameError and REQUEST from every state after INIT. -/
def execRxerr (s : State) : StepResult :=
  guarded s
    (if s.blk.pstate = .init then .next (ignored s)
     else if s.blk.lost then .next (desync s.start)
     else .next (enterRequest (sinkPush ErrCode.frameError.code s.start)))

/-- DESYNC (R196). -/
def execDesync (s : State) : StepResult :=
  guarded s (if s.blk.pstate = .init then .next (ignored s) else .next (desync s.start))

end Sys2Proof.Machine
end

