-- ==== Sys2Proof/Machine/Sink.lean ====
section
/-! DEFINITION. Sys2Proof/Machine/Sink.lean: the Error Reporting Sink's operations (45_error_sink.md). -/

namespace Sys2Proof.Machine

/-- ERRPUSH (R212): any 8-bit value is stored as given. -/
def execErrpush (code : Byte) (s : State) : StepResult := guarded s (.next (sinkPush code s.start))

/-- ERRPOP (R213): the newest code, or 0 for an empty sink. -/
def execErrpop (s : State) : StepResult :=
  guarded s (.next (returns (.code s.blk.top) { s.start with blk := s.blk.pop }))

/-- ERRPEEK (R214). -/
def execErrpeek (s : State) : StepResult := guarded s (.next (answers (.code s.blk.top) s))

/-- ERROVF (R215): reading the flag does not clear it. -/
def execErrovf (s : State) : StepResult := guarded s (.next (answers (.bit s.blk.ovf) s))

end Sys2Proof.Machine
end

