-- ==== Sys2Proof/Machine/Dispatch.lean ====
section
/-! DEFINITION. Sys2Proof/Machine/Dispatch.lean: one arm per operation (30_encoding.md R90), one direct call of its meaning. -/

namespace Sys2Proof.Machine

def exec (i : Instr) (s : State) : Host.Outcome State Fault Refusal :=
  match i with
  -- application operations
  | .init role addr => Sys2Proof.Machine.execInit role addr s
  | .avail => Sys2Proof.Machine.execAvail s
  | .consume => Sys2Proof.Machine.execConsume s
  | .isresp msg => Sys2Proof.Machine.execIsresp msg s
  | .respond msg => Sys2Proof.Machine.execRespond msg s
  | .send msg => Sys2Proof.Machine.execSend msg s
  -- the error sink
  | .errpush code => Sys2Proof.Machine.execErrpush code s
  | .errpop => Sys2Proof.Machine.execErrpop s
  | .errpeek => Sys2Proof.Machine.execErrpeek s
  | .errovf => Sys2Proof.Machine.execErrovf s
  -- hardware events
  | .rxb mark data => Sys2Proof.Machine.execRxb mark data s
  | .txc => Sys2Proof.Machine.execTxc s
  | .rxerr => Sys2Proof.Machine.execRxerr s
  | .tmr => Sys2Proof.Machine.execTmr s
  | .desync => Sys2Proof.Machine.execDesync s
  -- component functions
  | .crc16 bytes => Sys2Proof.Machine.execCrc16 bytes s
  | .crcvfy bytes => Sys2Proof.Machine.execCrcvfy bytes s
  | .encode n msg => Sys2Proof.Machine.execEncode n msg s
  | .decode bytes => Sys2Proof.Machine.execDecode bytes s
  -- internal operations
  | .dirtx => Sys2Proof.Machine.execDirtx s
  | .dirrx => Sys2Proof.Machine.execDirrx s

end Sys2Proof.Machine
end

