-- ==== Sys2Proof/Machine/Step.lean ====
section
/-! DEFINITION. Sys2Proof/Machine/Step.lean: one step is one operation (00_scope.md R14): the next stimulus of the input is
taken and executed. -/

namespace Sys2Proof.Machine

/-- One step (R14). The block fetches nothing (R27): the next operation is what the environment presents. -/
def step (s : State) : Host.Outcome State Fault Refusal :=
  match present s with
  | .error r => .refused r
  | .ok (i, s') => exec i s'

/-- s with one instruction of the opcode table presented as the next stimulus: its bytes become the input. -/
def State.withFetchWord (s : State) (nbits w : Nat) : State := { s with input := tableBytes nbits w }

end Sys2Proof.Machine
end

