-- ==== Sys2Proof/Safety.lean ====
section
/-! DEFINITION. Sys2Proof/Safety.lean: the terms claims are stated in: the invariant of reachable states (10_state.md R44),
the CRC property of R113, a block back in REQUEST, and runs of several operations. -/

namespace Sys2Proof.Machine

/-- A complete frame of length l in the buffer: the CRC field verifies, byte 0 is not the broadcast address with the
response flag, and the bytes beyond the frame are zero (R44 row PROCESS, R33, R190). -/
def ValidFrame (c : Cfg) (l : Nat) (f : Memory) : Prop :=
  crcVerify c (f.take l) = true ∧ f.byte 0 ≠ 0x80 ∧ ∀ i, l ≤ i → f.byte i = 0

/-- The buffer holds a frame some valid message encodes to, zeros after it (R44 "encoded request", "encoded response"). -/
def EncodedFrame (c : Cfg) (n : Nat) (f : Memory) : Prop :=
  ∃ m : Msg, validate m n = none ∧ f = frameImage c m n

/-- The column `FRAME` of the table of R44. -/
def FrameOk (c : Cfg) (b : Block) : Prop :=
  match b.pstate with
  | .init => True
  | .request => b.frame = Memory.zeros c.lMax
  | .command =>
      (b.txph = .none ∧ ∀ i, 1 ≤ i → b.frame.byte i = 0) ∨ (b.txph ≠ .none ∧ EncodedFrame c c.nParam b.frame)
  | .msgbody =>
      (b.txph = .none ∧ ∀ i, b.cursor.toNat ≤ i → b.frame.byte i = 0) ∨
      (b.txph ≠ .none ∧ EncodedFrame c c.nParam b.frame)
  | .process => ValidFrame c (rxLen c b.role) b.frame
  | .response =>
      (b.txph = .none ∧ ValidFrame c c.lReq b.frame ∧ (b.frame.byte 0).getLsbD 7 = true) ∨
      (b.txph ≠ .none ∧ EncodedFrame c c.nRet b.frame)
  | .unknown => False
  | .reset => False

/-- The invariant of reachable states: the whole table of R44. -/
def Inv (s : State) : Prop := s.legal = true ∧ FrameOk s.cfg s.blk

/-- A slave that has been initialised owns an address from 1 to 127 (R23, R151). -/
def AddressOwned (b : Block) : Prop := b.pstate ≠ .init → b.role = .slave → b.laddr ≠ 0

/-- The list with bit k of its byte i inverted (R113). -/
def flipBit (bs : List Byte) (i k : Nat) : List Byte := bs.modify i fun b => b ^^^ BitVec.twoPow 8 k

/-- The property every CRC function must have: one inverted bit changes the value (R113). -/
def CrcSensitive (c : Cfg) : Prop :=
  ∀ (bs : List Byte) (i k : Nat), i < bs.length → k < 8 → crc16 c (flipBit bs i k) ≠ crc16 c bs

/-- The block after `enter_request`, written out (R181): everything but `ROLE`, `LADDR`, `STK`, `SP`, `OVF` is set. -/
def Block.inRequest (c : Cfg) (b : Block) : Block where
  role := b.role
  laddr := b.laddr
  pstate := .request
  frame := List.replicate c.lMax 0
  cursor := 0
  remain := 0
  inuse := false
  dir := .rx
  txph := .none
  afilt := if b.role = .slave then true else false
  stk := b.stk
  sp := b.sp
  ovf := b.ovf

/-- What `enter_request` emits: an armed timer is cancelled (R181). -/
def Block.cancels (b : Block) : List Action := if b.txph = .settle then [.timerCancel] else []

/-- Several operations in turn: the state after the last and all the actions emitted, in order; none when one of them is
refused (R73: each takes effect completely before the next begins). -/
def runOps : List Instr → State → Option (State × List Action)
  | [], s => some (s, [])
  | i :: is, s =>
    match exec i s with
    | .next t => (runOps is t).map fun r => (r.1, t.actions ++ r.2)
    | .fault _ => none
    | .refused _ => none

end Sys2Proof.Machine

namespace Sys2Proof

/-- The hardware events (R226). -/
def Instr.isEvent : Instr → Bool
  | .rxb _ _ => true
  | .txc => true
  | .rxerr => true
  | .tmr => true
  | .desync => true
  | .init _ _ => false
  | .avail => false
  | .consume => false
  | .isresp _ => false
  | .respond _ => false
  | .send _ => false
  | .errpush _ => false
  | .errpop => false
  | .errpeek => false
  | .errovf => false
  | .crc16 _ => false
  | .crcvfy _ => false
  | .encode _ _ => false
  | .decode _ => false
  | .dirtx => false
  | .dirrx => false

/-- The operations that change no state (R68). -/
def Instr.isPure : Instr → Bool
  | .avail => true
  | .isresp _ => true
  | .errpeek => true
  | .errovf => true
  | .crc16 _ => true
  | .crcvfy _ => true
  | .encode _ _ => true
  | .decode _ => true
  | .init _ _ => false
  | .consume => false
  | .respond _ => false
  | .send _ => false
  | .errpush _ => false
  | .errpop => false
  | .rxb _ _ => false
  | .txc => false
  | .rxerr => false
  | .tmr => false
  | .desync => false
  | .dirtx => false
  | .dirrx => false

/-- The operands of an operation are ones the spec gives it a meaning for, whatever the state: the lists of CRCVFY and
DECODE are long enough and the count of ENCODE is in range (U11); INIT has conditions on the state as well (R152). -/
def Instr.operandsOk : Instr → Bool
  | .crcvfy bs => decide (2 ≤ bs.length)
  | .encode n _ => decide (n.toNat ≤ 251)
  | .decode bs => decide (4 ≤ bs.length)
  | .init _ _ => true
  | .avail => true
  | .consume => true
  | .isresp _ => true
  | .respond _ => true
  | .send _ => true
  | .errpush _ => true
  | .errpop => true
  | .errpeek => true
  | .errovf => true
  | .rxb _ _ => true
  | .txc => true
  | .rxerr => true
  | .tmr => true
  | .desync => true
  | .crc16 _ => true
  | .dirtx => true
  | .dirrx => true

end Sys2Proof
end

