-- ==== Sys2Proof/Certificates/Slice0/Obligations.lean ====
section
/-! DEFINITION. Sys2Proof/Certificates/Slice0/Obligations.lean: the statements for the provers. Each docstring names
the rule of spec/ it formalises. A hypothesis `s.legal = true` says that s is a launch state the rules are stated for,
a row of the table of R44 or UNKNOWN or RESET (U6, U3, log entry 7). Where a docstring says "the spec's own derivation" the rule it names is marked derived in the
spec. -/

open Sys2Proof Sys2Proof.Machine

/-! ### Reset and the values of names -/

/-- R45, R260: what reset leaves in the elements whose reset value the spec states; reset emits no action. That the
field `result` holds nothing at reset is the model's choice (log entry 6). -/
def Obligations.ResetHoldsTheStatedValues : Prop :=
  State.reset.blk.pstate = .init ∧ State.reset.blk.dir = .rx ∧ State.reset.blk.txph = .none ∧
  State.reset.blk.afilt = false ∧ State.reset.blk.sp = 0 ∧ State.reset.blk.ovf = false ∧
  State.reset.actions = [] ∧ State.reset.result = .nothing

/-- R91: the numeric values of the ten error codes, 0 being no error. -/
def Obligations.ErrorCodesAreNumberedAsListed : Prop :=
  statusCode none = 0 ∧ statusCode (some .noRequestExpected) = 1 ∧ statusCode (some .noResponseExpected) = 2 ∧
  statusCode (some .noRequestAvailable) = 3 ∧ statusCode (some .addressInvalid) = 4 ∧
  statusCode (some .broadcastNoResponse) = 5 ∧ statusCode (some .invalidParamSize) = 6 ∧
  statusCode (some .frameError) = 7 ∧ statusCode (some .invalidCrc) = 8 ∧
  statusCode (some .requestDropped) = 9 ∧ statusCode (some .stateMachineReset) = 10 ∧
  ∀ e e' : ErrCode, e.code = e'.code → e = e'

/-! ### Stimuli -/

/-- R14, R231: a step is the operation that the next bytes of the input spell, at the state with those bytes taken.
That the operations come as one stream of bytes is the model's choice (log entry 5). -/
def Obligations.StepRunsThePresentedOperation : Prop :=
  ∀ (s : State) (i : Instr) (rest : List Byte),
    decodeStimulus s.input = some (i, rest) → step s = exec i { s with input := rest }

/-- R88, R90, 95_test_vectors.md 2.7: words written out from the table decode to their operations. That a word's high
byte comes first in the stream is the model's choice (log entry 5). -/
def Obligations.ListedWordsDecodeToTheirOperations : Prop :=
  decodeStimulus (wordBytes 0x0005) = some (.init .slave 5, []) ∧
  decodeStimulus (wordBytes 0x017F) = some (.init .master 127, []) ∧
  decodeStimulus (wordBytes 0x0800) = some (.avail, []) ∧
  decodeStimulus (wordBytes 0x1000) = some (.consume, []) ∧
  decodeStimulus (wordBytes 0x2800 ++ [0x05, 0x01, 0x10, 0x02, 0xAA, 0xBB]) =
    some (.send { address := 5, rr := true, command := 0x10, params := [0xAA, 0xBB] }, []) ∧
  decodeStimulus (wordBytes 0x300A) = some (.errpush 10, []) ∧
  decodeStimulus (wordBytes 0x8185) = some (.rxb true 0x85, []) ∧
  decodeStimulus (wordBytes 0x9800) = some (.tmr, []) ∧
  decodeStimulus (wordBytes 0xC804 ++ [0x01, 0x42, 0x80, 0x11]) = some (.crcvfy [0x01, 0x42, 0x80, 0x11], []) ∧
  decodeStimulus (wordBytes 0xD008 ++ [0x05, 0x01, 0x10, 0x02, 0xAA, 0xBB]) =
    some (.encode 8 { address := 5, rr := true, command := 0x10, params := [0xAA, 0xBB] }, [])

/-- R88, R89, R90: decoding the bytes of a well-formed operation gives it back and leaves what follows. That the bytes
form one stream, high byte first, is the model's choice (log entry 5). -/
def Obligations.DecodeOfEncodeIsTheInstruction : Prop :=
  ∀ (i : Instr) (rest : List Byte), i.wf = true → decodeBytes (encode i ++ rest) = some (i, rest)

/-- R88, R89, R92: whatever the decoder reads is the one spelling of a well-formed operation (byte order of the
stream: log entry 5). -/
def Obligations.EncodeOfDecodeIsTheBytes : Prop :=
  ∀ (bs : List Byte) (i : Instr) (rest : List Byte),
    decodeBytes bs = some (i, rest) → i.wf = true ∧ bs = encode i ++ rest

/-- R92: the decoder answers invalid for every reserved stimulus and the step is refused: a reserved selector, bits
10:9, a bit a format requires zero, the flags of a message operand, an operand shorter than its count, DIRTX and
DIRRX. -/
def Obligations.ReservedStimuliAreRefused : Prop :=
  ∀ (w : Word) (bs : List Byte),
    ((opselOf w).toNat ∈ [10, 11, 12, 13, 14, 15, 21, 22, 23, 30, 31] ∨
      zeroOf w ≠ 0 ∨
      ((opselOf w).toNat ∈ [1, 2, 3, 4, 5, 7, 8, 9, 17, 18, 19, 20] ∧ (fOf w = true ∨ loByte w ≠ 0)) ∨
      ((opselOf w).toNat ∈ [6, 24, 25, 26, 27] ∧ fOf w = true) ∨
      ((opselOf w).toNat ∈ [3, 4, 5, 26] ∧
        (bs.length < 4 ∨ (bs.getD 1 0).extractLsb' 1 7 ≠ 0 ∨ bs.length < 4 + (bs.getD 3 0).toNat)) ∨
      ((opselOf w).toNat ∈ [24, 25, 27] ∧ bs.length < (loByte w).toNat) ∨
      (opselOf w).toNat = 28 ∨ (opselOf w).toNat = 29) →
    decodeStimulus (wordBytes w ++ bs) = none ∧
    ∀ s : State, s.input = wordBytes w ++ bs → ∃ r, step s = .refused r

/-! ### CRC16 Engine -/

/-- R114, R115: CRC16 answers the function's value on any list, CRCVFY compares the two last bytes, low byte first,
with the function's value on the bytes before them, and is refused below two bytes. Neither changes the block. -/
def Obligations.CrcQueriesAnswerTheFunction : Prop :=
  ∀ (s : State) (bs rest : List Byte), s.legal = true → bs.length ≤ 255 →
    decodeStimulus (wordBytes (0xC000 + (BitVec.ofNat 8 bs.length).setWidth 16) ++ bs ++ rest) = some (.crc16 bs, rest) ∧
    decodeStimulus (wordBytes (0xC800 + (BitVec.ofNat 8 bs.length).setWidth 16) ++ bs ++ rest) = some (.crcvfy bs, rest) ∧
    exec (.crc16 bs) s = .next { s with result := .word (crc16 s.cfg bs), actions := [] } ∧
    (bs.length < 2 → exec (.crcvfy bs) s = .refused .crcvfyTooShort) ∧
    ∀ (span : List Byte) (lo hi : Byte), bs = span ++ [lo, hi] →
      exec (.crcvfy bs) s =
        .next { s with
          result := .bit (decide (crc16 s.cfg span = lo.setWidth 16 ||| (hi.setWidth 16 <<< 8)))
          actions := [] }

/-- R113, R112: the default CRC function changes under every inversion of one bit of its input. -/
def Obligations.DefaultCrcDetectsEverySingleBitFlip : Prop :=
  ∀ c : Cfg, c.crcFn = .modbus → CrcSensitive c

/-! ### Frame Codec -/

/-- R121, R137: every byte of an encoded frame, and the buffer it is loaded into. -/
def Obligations.EncodedFrameHasTheWireLayout : Prop :=
  ∀ (c : Cfg) (m : Msg) (n : Nat),
    (encodeFrame c m n).length = n + 4 ∧
    (encodeFrame c m n)[0]? = some (((BitVec.ofBool m.rr).setWidth 8 <<< 7) ||| (m.address &&& 0x7F)) ∧
    (encodeFrame c m n)[1]? = some m.command ∧
    (∀ i, i < n → (encodeFrame c m n)[2 + i]? = some (if i < m.params.length then m.params.getD i 0 else 0)) ∧
    (encodeFrame c m n)[n + 2]? = some ((crc16 c ((encodeFrame c m n).take (n + 2))).extractLsb' 0 8) ∧
    (encodeFrame c m n)[n + 3]? = some ((crc16 c ((encodeFrame c m n).take (n + 2))).extractLsb' 8 8) ∧
    (frameImage c m n).length = c.lMax ∧
    ∀ i, i < c.lMax → (frameImage c m n)[i]? =
      some (if i < n + 4 then (encodeFrame c m n).getD i 0 else 0)

/-- R123, R124: `validate` reports the first failing check. -/
def Obligations.ValidateReportsTheFirstFailingCheck : Prop :=
  ∀ (m : Msg) (n : Nat),
    (validate m n = some .addressInvalid ↔ 127 < m.address.toNat) ∧
    (validate m n = some .broadcastNoResponse ↔ m.address = 0 ∧ m.rr = true) ∧
    (validate m n = some .invalidParamSize ↔
      m.address.toNat ≤ 127 ∧ ¬(m.address = 0 ∧ m.rr = true) ∧ n < m.params.length) ∧
    (validate m n = none ↔
      m.address.toNat ≤ 127 ∧ ¬(m.address = 0 ∧ m.rr = true) ∧ m.params.length ≤ n)

/-- R122: ENCODE answers the failing check's code and no bytes, or 0 and the frame; the block is unchanged; a count
above 251 is refused. -/
def Obligations.EncodeQueryAnswersStatusAndFrame : Prop :=
  ∀ (s : State) (n : Byte) (m : Msg) (rest : List Byte), s.legal = true → m.params.length ≤ 255 →
    decodeStimulus (wordBytes (0xD000 + n.setWidth 16) ++ encodeMsg m ++ rest) = some (.encode n m, rest) ∧
    (251 < n.toNat → exec (.encode n m) s = .refused .encodeCountTooLarge) ∧
    (n.toNat ≤ 251 → ∀ e, validate m n.toNat = some e →
      exec (.encode n m) s = .next { s with result := .encoded e.code [], actions := [] }) ∧
    (n.toNat ≤ 251 → validate m n.toNat = none →
      exec (.encode n m) s =
        .next { s with result := .encoded 0 (encodeFrame s.cfg m n.toNat), actions := [] })

/-- R125, R126: DECODE of k >= 4 bytes returns the fields of the frame with N = k - 4, with `BroadcastNoResponse`
exactly when byte 0 is 0x80; the block is unchanged; fewer bytes are refused. -/
def Obligations.DecodeQueryReturnsTheFields : Prop :=
  ∀ (s : State) (bs rest : List Byte), s.legal = true → bs.length ≤ 255 →
    decodeStimulus (wordBytes (0xD800 + (BitVec.ofNat 8 bs.length).setWidth 16) ++ bs ++ rest) = some (.decode bs, rest) ∧
    (bs.length < 4 → exec (.decode bs) s = .refused .decodeTooShort) ∧
    ∀ (b0 b1 lo hi : Byte) (params : List Byte), bs = b0 :: b1 :: params ++ [lo, hi] →
      exec (.decode bs) s = .next { s with
        result := .message (if b0 = 0x80 then 5 else 0) (some {
          address := (b0.extractLsb' 0 7).setWidth 8
          rr := b0.getLsbD 7
          command := b1
          params := params
          crc16 := lo.setWidth 16 ||| (hi.setWidth 16 <<< 8) })
        actions := [] }

/-- R127, the spec's own derivation from R121 and R125: decoding an encoded message gives its fields back, the
parameters with their padding and the CRC of the leading bytes; the frame verifies; a broadcast with the response flag
is rejected before encoding. -/
def Obligations.DecodeInvertsEncodeOfAValidMessage : Prop :=
  ∀ (c : Cfg) (m : Msg) (n : Nat),
    (validate m n = none →
      decodeFrame (encodeFrame c m n) n = (none, {
        address := m.address
        rr := m.rr
        command := m.command
        params := m.params ++ List.replicate (n - m.params.length) 0
        crc16 := crc16 c ((encodeFrame c m n).take (n + 2)) }) ∧
      crcVerify c (encodeFrame c m n) = true) ∧
    (m.address = 0 → m.rr = true → validate m n = some .broadcastNoResponse)

/-! ### Bus Direction Controller -/

/-- R138, R139, R92: what the two internal operations do, and that neither is a stimulus. That they can be run as
operations of their own at all is the model's choice (log entry 8). -/
def Obligations.DirectionOperationsSwitchTheLine : Prop :=
  ∀ s : State, s.legal = true →
    exec .dirtx s = .next { s with
      blk := { s.blk with dir := .tx, txph := .settle }
      result := .nothing
      actions := [.timerStart s.cfg.tTurnMs] } ∧
    exec .dirrx s = .next { s with
      blk := { s.blk with dir := .rx, txph := .none }
      result := .nothing
      actions := if s.blk.txph = .settle then [.timerCancel] else [] } ∧
    ∀ (t : State) (rest : List Byte), (t.input = wordBytes 0xE000 ++ rest ∨ t.input = wordBytes 0xE800 ++ rest) →
      step t = .refused .internalStimulus

/-- R143: the timer's expiry during the settle delay hands byte 0 to the UART, marked by a master only; the buffer and
`PSTATE` (COMMAND for a master, RESPONSE for a slave) are unchanged. -/
def Obligations.TimerHandsOverTheFirstByte : Prop :=
  ∀ s : State, s.legal = true → s.blk.txph = .settle → s.blk.pstate ≠ .unknown → s.blk.pstate ≠ .reset →
    exec .tmr s = .next { s with
      blk := { s.blk with cursor := 1, remain := s.blk.remain - 1, txph := .sending }
      result := .nothing
      actions := [.uartTx (decide (s.blk.role = .master)) (s.blk.frame.byte 0)] } ∧
    (s.blk.remain - 1).toNat = txLen s.cfg s.blk.role - 1 ∧
    s.blk.pstate = if s.blk.role = .master then .command else .response

/-- R144, R194: TMR outside the settle delay and TXC outside a transmission are ignored. -/
def Obligations.StrayTimerAndSentEventsAreIgnored : Prop :=
  ∀ (s : State) (rest : List Byte), s.legal = true →
    s.blk.pstate ∈ [PState.request, .command, .msgbody, .process, .response] →
    decodeStimulus (wordBytes 0x9800 ++ rest) = some (.tmr, rest) ∧
    (s.blk.txph ≠ .settle → exec .tmr s = .next { s with result := .nothing, actions := [] }) ∧
    (s.blk.txph ≠ .sending → exec .txc s = .next { s with result := .nothing, actions := [] })

/-- R30 and, the spec's own derivation, R42 a: the turnaround timer is started in exactly the steps that enter the
settle delay, with the configured delay, and cancelled in exactly the steps that leave it for NONE; only TMR takes it
to SENDING. -/
def Obligations.TimerIsArmedExactlyWhileSettling : Prop :=
  ∀ (i : Instr) (s t : State), i.internal = false → exec i s = .next t →
    (∀ ms, Action.timerStart ms ∈ t.actions ↔
      ms = s.cfg.tTurnMs ∧ s.blk.txph ≠ .settle ∧ t.blk.txph = .settle) ∧
    (Action.timerCancel ∈ t.actions ↔ s.blk.txph = .settle ∧ t.blk.txph = .none) ∧
    (s.blk.txph = .settle → t.blk.txph = .sending → i = .tmr)

/-- R143, R193 and, the spec's own derivation, R145: a character is handed to the UART only by TMR ending a settle
delay, byte 0 with the master's mark, or by TXC during a transmission, the byte at the cursor without a mark; a step
hands over at most one. -/
def Obligations.CharactersLeaveOnlyAfterTheTimer : Prop :=
  ∀ (i : Instr) (s t : State) (mark : Bool) (b : Byte), exec i s = .next t → Action.uartTx mark b ∈ t.actions →
    t.actions = [.uartTx mark b] ∧ t.blk.txph = .sending ∧
    ((i = .tmr ∧ s.blk.txph = .settle ∧ mark = decide (s.blk.role = .master) ∧ b = s.blk.frame.byte 0) ∨
     (i = .txc ∧ s.blk.txph = .sending ∧ mark = false ∧ b = s.blk.frame.byte s.blk.cursor.toNat))

/-- R136, the spec's own derivation from R155, R162 and R170: the line turns to transmit only in an accepted SEND of a
master in REQUEST or an accepted RESPOND of a slave in RESPONSE. -/
def Obligations.LineTurnsToTransmitOnlyInSendAndRespond : Prop :=
  ∀ (i : Instr) (s t : State), i.internal = false → exec i s = .next t → s.blk.dir = .rx → t.blk.dir = .tx →
    (∃ m, i = .send m ∧ s.blk.pstate = .request ∧ s.blk.role = .master ∧ validate m s.cfg.nParam = none) ∨
    (∃ m, i = .respond m ∧ s.blk.pstate = .response ∧ s.blk.role = .slave ∧ s.blk.txph = .none ∧
      validate m s.cfg.nRet = none)

/-! ### Application operations -/

/-- R151, R152: INIT from the state after reset stores role and address and enters REQUEST, the sink untouched,
nothing emitted; outside its preconditions it is refused. -/
def Obligations.InitEntersRequestOnceOrIsRefused : Prop :=
  ∀ (s : State) (role : Role) (addr : Byte) (rest : List Byte), s.legal = true →
    decodeStimulus (wordBytes ((if role = .master then 0x0100 else 0x0000) + addr.setWidth 16) ++ rest) =
      some (.init role addr, rest) ∧
    (s.blk.pstate = .init → (role = .slave → 1 ≤ addr.toNat ∧ addr.toNat ≤ 127) →
      exec (.init role addr) s = .next { s with
        blk := {
          role := role
          laddr := addr.extractLsb' 0 7
          pstate := .request
          frame := List.replicate s.cfg.lMax 0
          cursor := 0
          remain := 0
          inuse := false
          dir := .rx
          txph := .none
          afilt := decide (role = .slave)
          stk := s.blk.stk
          sp := s.blk.sp
          ovf := s.blk.ovf }
        result := .nothing
        actions := [] }) ∧
    (s.blk.pstate ≠ .init → exec (.init role addr) s = .refused .initOutsideInit) ∧
    (s.blk.pstate = .init → exec (.init .slave 0) s = .refused .initSlaveBroadcast) ∧
    (s.blk.pstate = .init → 127 < addr.toNat → exec (.init .slave addr) s = .refused .initSlaveOutOfRange)

/-- R153, the spec's own derivation from R39: AVAIL answers whether `PSTATE` is PROCESS, in every state, and changes
nothing. -/
def Obligations.AvailAnswersWhetherAFrameWaits : Prop :=
  ∀ (s : State) (rest : List Byte), s.legal = true →
    decodeStimulus (wordBytes 0x0800 ++ rest) = some (.avail, rest) ∧
    exec .avail s = .next { s with result := .bit (decide (s.blk.pstate = .process)), actions := [] }

/-- R154, R155, R156: CONSUME outside PROCESS pushes and returns `NoRequestAvailable`, no message, and changes nothing
else; in PROCESS it returns the fields of the frame, and a slave that owes a response enters RESPONSE with everything
else unchanged, every other node enters REQUEST. -/
def Obligations.ConsumeReturnsTheFrameOrReportsNone : Prop :=
  ∀ (s : State) (rest : List Byte), s.legal = true →
    decodeStimulus (wordBytes 0x1000 ++ rest) = some (.consume, rest) ∧
    (s.blk.pstate ≠ .process →
      exec .consume s = .next { s with blk := s.blk.push 3, result := .message 3 none, actions := [] }) ∧
    (s.blk.pstate = .process →
      exec .consume s = .next { s with
        blk := if s.blk.role = .slave ∧ (s.blk.frame.byte 0).getLsbD 7 = true then { s.blk with pstate := .response }
          else s.blk.inRequest s.cfg
        result := .message 0 (some {
          address := ((s.blk.frame.byte 0).extractLsb' 0 7).setWidth 8
          rr := (s.blk.frame.byte 0).getLsbD 7
          command := s.blk.frame.byte 1
          params := (List.range (rxN s.cfg s.blk.role)).map fun i => s.blk.frame.byte (2 + i)
          crc16 := s.blk.frame.byte (3 + rxN s.cfg s.blk.role) ++ s.blk.frame.byte (2 + rxN s.cfg s.blk.role) })
        actions := [] })

/-- R157: ISRESP answers the operand's flag, whatever the address, and changes nothing. -/
def Obligations.IsrespAnswersTheOperandsFlag : Prop :=
  ∀ (s : State) (m : Msg) (rest : List Byte), s.legal = true → m.params.length ≤ 255 →
    decodeStimulus (wordBytes 0x1800 ++ encodeMsg m ++ rest) = some (.isresp m, rest) ∧
    exec (.isresp m) s = .next { s with result := .bit m.rr, actions := [] }

/-- R160, R161, R162, R173: RESPOND outside the eligible state reports `NoResponseExpected`, in it the failing check's
code, pushed and returned with nothing else changed; a valid message is loaded, the line switched and the timer
started. -/
def Obligations.RespondLoadsTheResponseOrReports : Prop :=
  ∀ (s : State) (m : Msg) (rest : List Byte), s.legal = true →
    (m.params.length ≤ 255 → decodeStimulus (wordBytes 0x2000 ++ encodeMsg m ++ rest) = some (.respond m, rest)) ∧
    (¬(s.blk.pstate = .response ∧ s.blk.txph = .none) →
      exec (.respond m) s = .next { s with blk := s.blk.push 2, result := .status 2, actions := [] }) ∧
    (s.blk.pstate = .response → s.blk.txph = .none → ∀ e, validate m s.cfg.nRet = some e →
      exec (.respond m) s = .next { s with blk := s.blk.push e.code, result := .status e.code, actions := [] }) ∧
    (s.blk.pstate = .response → s.blk.txph = .none → validate m s.cfg.nRet = none →
      exec (.respond m) s = .next { s with
        blk := { s.blk with
          frame := frameImage s.cfg m s.cfg.nRet
          cursor := 0
          remain := BitVec.ofNat 8 s.cfg.lRsp
          dir := .tx
          txph := .settle }
        result := .status 0
        actions := [.timerStart s.cfg.tTurnMs] })

/-- R168, R169, R170, R173: SEND outside REQUEST or by a slave reports `NoRequestExpected`, of an invalid message the
failing check's code, pushed and returned with nothing else changed; a valid message is loaded, the line switched, the
timer started and COMMAND entered. -/
def Obligations.SendLoadsTheRequestOrReports : Prop :=
  ∀ (s : State) (m : Msg) (rest : List Byte), s.legal = true →
    (m.params.length ≤ 255 → decodeStimulus (wordBytes 0x2800 ++ encodeMsg m ++ rest) = some (.send m, rest)) ∧
    (¬(s.blk.pstate = .request ∧ s.blk.role = .master) →
      exec (.send m) s = .next { s with blk := s.blk.push 1, result := .status 1, actions := [] }) ∧
    (s.blk.pstate = .request → s.blk.role = .master → ∀ e, validate m s.cfg.nParam = some e →
      exec (.send m) s = .next { s with blk := s.blk.push e.code, result := .status e.code, actions := [] }) ∧
    (s.blk.pstate = .request → s.blk.role = .master → validate m s.cfg.nParam = none →
      exec (.send m) s = .next { s with
        blk := { s.blk with
          pstate := .command
          frame := frameImage s.cfg m s.cfg.nParam
          cursor := 0
          remain := BitVec.ofNat 8 s.cfg.lReq
          inuse := true
          dir := .tx
          txph := .settle
          afilt := false }
        result := .status 0
        actions := [.timerStart s.cfg.tTurnMs] })

/-! ### Hardware events -/

/-- R185, R186, R188, R184: a character is ignored while the node drives the bus, by the address filter when unmarked,
and by a slave in REQUEST, PROCESS or RESPONSE whose address it does not match. -/
def Obligations.CharactersForOthersAreIgnored : Prop :=
  ∀ (s : State) (mark : Bool) (b : Byte), s.legal = true →
    s.blk.pstate ∈ [PState.request, .command, .msgbody, .process, .response] →
    (s.blk.dir = .tx ∨ (s.blk.afilt = true ∧ mark = false) ∨
      (s.blk.pstate ∈ [PState.request, .process, .response] ∧ s.blk.role = .slave ∧
        b.extractLsb' 0 7 ≠ s.blk.laddr ∧ b.extractLsb' 0 7 ≠ 0)) →
    exec (.rxb mark b) s = .next { s with result := .nothing, actions := [] }

/-- R186: in REQUEST a slave takes a marked matching character, a master any character, as byte 0 of a frame; a
character that a slave's address does not match is ignored. -/
def Obligations.AddressByteStartsAFrame : Prop :=
  ∀ (s : State) (mark : Bool) (b : Byte) (rest : List Byte), s.legal = true → s.blk.pstate = .request →
    decodeStimulus (wordBytes ((if mark then 0x8100 else 0x8000) + b.setWidth 16) ++ rest) = some (.rxb mark b, rest) ∧
    ((s.blk.role = .slave → mark = true ∧ (b.extractLsb' 0 7 = s.blk.laddr ∨ b.extractLsb' 0 7 = 0)) →
      exec (.rxb mark b) s = .next { s with
        blk := { s.blk with
          frame := s.blk.frame.set 0 b
          cursor := 1
          remain := BitVec.ofNat 8 (rxLen s.cfg s.blk.role - 1)
          inuse := true
          afilt := false
          pstate := .command }
        result := .nothing
        actions := [] }) ∧
    (s.blk.role = .slave → b.extractLsb' 0 7 ≠ s.blk.laddr → b.extractLsb' 0 7 ≠ 0 →
      exec (.rxb mark b) s = .next { s with result := .nothing, actions := [] })

/-- R187: in COMMAND an unmarked character is stored as byte 1 and the body begins; a marked one is a
desynchronization. -/
def Obligations.CommandByteIsStored : Prop :=
  ∀ (s : State) (b : Byte), s.legal = true → s.blk.pstate = .command → s.blk.dir = .rx →
    exec (.rxb false b) s = .next { s with
      blk := { s.blk with
        frame := s.blk.frame.set 1 b
        cursor := 2
        remain := BitVec.ofNat 8 (rxLen s.cfg s.blk.role - 2)
        pstate := .msgbody }
      result := .nothing
      actions := [] } ∧
    exec (.rxb true b) s = .next { s with
      blk := (s.blk.push 10).inRequest s.cfg
      result := .nothing
      actions := [] }

/-- R182 c, R187, R189: a marked character inside a frame is a desynchronization: code 10 is pushed, the character is
discarded and REQUEST entered. -/
def Obligations.MarkedCharacterInsideAFrameResynchronizes : Prop :=
  ∀ (s : State) (b : Byte), s.legal = true → (s.blk.pstate = .command ∨ s.blk.pstate = .msgbody) → s.blk.dir = .rx →
    exec (.rxb true b) s = .next { s with
      blk := (s.blk.push 10).inRequest s.cfg
      result := .nothing
      actions := [] }

/-- R189, R69: in MSGBODY an unmarked character that is not the last is stored at the cursor; no other byte of the
buffer changes and the cursor's index exists. -/
def Obligations.BodyByteIsStoredAtTheCursor : Prop :=
  ∀ (s : State) (b : Byte), s.legal = true → s.blk.pstate = .msgbody → s.blk.dir = .rx → s.blk.remain ≠ 1 →
    ∃ t, exec (.rxb false b) s = .next t ∧
      t = { s with
        blk := { s.blk with
          frame := t.blk.frame
          cursor := s.blk.cursor + 1
          remain := s.blk.remain - 1 }
        result := .nothing
        actions := [] } ∧
      t.blk.cursor.toNat = s.blk.cursor.toNat + 1 ∧ t.blk.remain.toNat + 1 = s.blk.remain.toNat ∧
      t.blk.frame.read s.blk.cursor.toNat = some b ∧
      ∀ j, j ≠ s.blk.cursor.toNat → t.blk.frame.read j = s.blk.frame.read j

/-- R189, R190: the last byte of a frame: a CRC mismatch discards the frame with code 8, a broadcast with the response
flag with code 5, and any other frame is available in PROCESS. -/
def Obligations.LastByteClassifiesTheFrame : Prop :=
  ∀ (s : State) (b : Byte) (f : Memory) (l : Nat), s.legal = true → s.blk.pstate = .msgbody → s.blk.dir = .rx →
    s.blk.remain = 1 → f = s.blk.frame.set s.blk.cursor.toNat b → l = rxLen s.cfg s.blk.role →
    s.blk.cursor.toNat = l - 1 ∧
    (crc16 s.cfg (f.take (l - 2)) ≠ f.byte (l - 1) ++ f.byte (l - 2) →
      exec (.rxb false b) s = .next { s with
        blk := (s.blk.push 8).inRequest s.cfg, result := .nothing, actions := [] }) ∧
    (crc16 s.cfg (f.take (l - 2)) = f.byte (l - 1) ++ f.byte (l - 2) → f.byte 0 = 0x80 →
      exec (.rxb false b) s = .next { s with
        blk := (s.blk.push 5).inRequest s.cfg, result := .nothing, actions := [] }) ∧
    (crc16 s.cfg (f.take (l - 2)) = f.byte (l - 1) ++ f.byte (l - 2) → f.byte 0 ≠ 0x80 →
      exec (.rxb false b) s = .next { s with
        blk := { s.blk with
          frame := f
          cursor := BitVec.ofNat 8 l
          remain := 0
          afilt := true
          pstate := .process }
        result := .nothing
        actions := [] })

/-- R188: while a frame occupies the buffer a marked character for this node is dropped with code 9, one for another
slave is ignored; the buffer is kept. -/
def Obligations.NewFrameIsDroppedWhileOneIsHeld : Prop :=
  ∀ (s : State) (b : Byte), s.legal = true → (s.blk.pstate = .process ∨ s.blk.pstate = .response) → s.blk.dir = .rx →
    s.blk.afilt = true ∧
    ((s.blk.role = .master ∨ b.extractLsb' 0 7 = s.blk.laddr ∨ b.extractLsb' 0 7 = 0) →
      exec (.rxb true b) s = .next { s with blk := s.blk.push 9, result := .nothing, actions := [] }) ∧
    (s.blk.role = .slave → b.extractLsb' 0 7 ≠ s.blk.laddr → b.extractLsb' 0 7 ≠ 0 →
      exec (.rxb true b) s = .next { s with result := .nothing, actions := [] })

/-- R192, R193: during a transmission TXC hands over the byte at the cursor while bytes remain, and ends the transfer
in REQUEST when none does. -/
def Obligations.SentEventHandsOverTheNextByte : Prop :=
  ∀ (s : State) (rest : List Byte), s.legal = true → s.blk.txph = .sending → s.blk.pstate ≠ .unknown →
    s.blk.pstate ≠ .reset →
    decodeStimulus (wordBytes 0x8800 ++ rest) = some (.txc, rest) ∧
    (0 < s.blk.remain.toNat →
      s.blk.cursor.toNat < s.blk.frame.length ∧
      exec .txc s = .next { s with
        blk := { s.blk with
          cursor := s.blk.cursor + 1
          remain := s.blk.remain - 1
          pstate := if s.blk.pstate = .command then .msgbody else s.blk.pstate }
        result := .nothing
        actions := [.uartTx false (s.blk.frame.byte s.blk.cursor.toNat)] }) ∧
    (s.blk.remain.toNat = 0 →
      exec .txc s = .next { s with blk := s.blk.inRequest s.cfg, result := .nothing, actions := [] })

/-- R195: RXERR is ignored in INIT, a desynchronization in UNKNOWN and RESET, and in every other state pushes code 7
and enters REQUEST, cancelling an armed timer. -/
def Obligations.UartErrorDiscardsTheExchange : Prop :=
  ∀ (s : State) (rest : List Byte), s.legal = true →
    decodeStimulus (wordBytes 0x9000 ++ rest) = some (.rxerr, rest) ∧
    (s.blk.pstate = .init → exec .rxerr s = .next { s with result := .nothing, actions := [] }) ∧
    (s.blk.pstate = .unknown ∨ s.blk.pstate = .reset → exec .rxerr s = .next { s with
      blk := (s.blk.push 10).inRequest s.cfg, result := .nothing, actions := s.blk.cancels }) ∧
    (s.blk.pstate ∈ [PState.request, .command, .msgbody, .process, .response] → exec .rxerr s = .next { s with
      blk := (s.blk.push 7).inRequest s.cfg, result := .nothing, actions := s.blk.cancels })

/-- R196, R182 a: DESYNC in every state but INIT pushes code 10 and enters REQUEST, cancelling an armed timer. -/
def Obligations.DesyncForcesRequest : Prop :=
  ∀ (s : State) (rest : List Byte), s.legal = true →
    decodeStimulus (wordBytes 0xA000 ++ rest) = some (.desync, rest) ∧
    (s.blk.pstate = .init → exec .desync s = .next { s with result := .nothing, actions := [] }) ∧
    (s.blk.pstate ≠ .init → exec .desync s = .next { s with
      blk := (s.blk.push 10).inRequest s.cfg, result := .nothing, actions := s.blk.cancels })

/-- R183: in INIT every hardware event is ignored. -/
def Obligations.EventsBeforeInitAreIgnored : Prop :=
  ∀ (s : State) (i : Instr), s.legal = true → s.blk.pstate = .init → i.isEvent = true →
    exec i s = .next { s with result := .nothing, actions := [] }

/-- R28, R26, R182 b: at a launch state UNKNOWN or RESET every hardware event is a desynchronization, the application
operations follow their generic rules, and INIT is refused; no operation but an event leaves that state
(of DIRTX and DIRRX, run as operations of their own, that is log entry 8). -/
def Obligations.UnknownStateIsLeftByEventsOnly : Prop :=
  ∀ (s : State) (m : Msg) (role : Role) (addr : Byte), s.legal = true →
    (s.blk.pstate = .unknown ∨ s.blk.pstate = .reset) →
    (∀ i : Instr, i.isEvent = true → exec i s = .next { s with
      blk := (s.blk.push 10).inRequest s.cfg, result := .nothing, actions := s.blk.cancels }) ∧
    exec .avail s = .next { s with result := .bit false, actions := [] } ∧
    exec .consume s = .next { s with blk := s.blk.push 3, result := .message 3 none, actions := [] } ∧
    exec (.send m) s = .next { s with blk := s.blk.push 1, result := .status 1, actions := [] } ∧
    exec (.respond m) s = .next { s with blk := s.blk.push 2, result := .status 2, actions := [] } ∧
    exec (.init role addr) s = .refused .initOutsideInit ∧
    ∀ (i : Instr) (t : State), i.isEvent = false → exec i s = .next t → t.blk.pstate = s.blk.pstate

/-! ### Error Reporting Sink -/

/-- R211, R212: a push stores the code above the held ones while there is room, and is dropped with the overflow flag
set when there is none. -/
def Obligations.PushStoresOrSetsTheOverflowFlag : Prop :=
  ∀ (s : State) (c : Byte) (rest : List Byte), s.legal = true →
    decodeStimulus (wordBytes (0x3000 + c.setWidth 16) ++ rest) = some (.errpush c, rest) ∧
    (∀ h : s.blk.sp.toNat < 8, exec (.errpush c) s = .next { s with
        blk := { s.blk with stk := s.blk.stk.set s.blk.sp.toNat c h, sp := s.blk.sp + 1 }
        result := .nothing
        actions := [] } ∧
      (s.blk.push c).held = s.blk.held ++ [c]) ∧
    (¬ s.blk.sp.toNat < 8 → exec (.errpush c) s = .next { s with
        blk := { s.blk with ovf := true }
        result := .nothing
        actions := [] } ∧
      (s.blk.push c).held = s.blk.held)

/-- R213: a pop returns and removes the newest held code and leaves the overflow flag; an empty sink answers 0 and is
unchanged. At a launch state UNKNOWN or RESET with `SP` above 8 the code is a free value, which is the model's choice
(log entry 11). -/
def Obligations.PopReturnsTheNewestCode : Prop :=
  ∀ (s : State) (rest : List Byte), s.legal = true →
    decodeStimulus (wordBytes 0x3800 ++ rest) = some (.errpop, rest) ∧
    (∀ (older : List Byte) (c : Byte), s.blk.sp.toNat ≤ 8 → s.blk.held = older ++ [c] →
      ∃ t, exec .errpop s = .next t ∧ t.blk.held = older ∧ t = { s with
        blk := { s.blk with sp := s.blk.sp - 1 }
        result := .code c
        actions := [] }) ∧
    (8 < s.blk.sp.toNat → exec .errpop s = .next { s with
        blk := { s.blk with sp := s.blk.sp - 1 }
        result := .code (Config.stkBeyond (s.blk.sp.toNat - 1))
        actions := [] }) ∧
    (s.blk.held = [] → exec .errpop s = .next { s with result := .code 0, actions := [] })

/-- R214, R215: a peek answers the newest held code, or 0, and ERROVF the flag; neither changes the block. With `SP`
above 8, at a launch state UNKNOWN or RESET, the peek answers a free value, which is the model's choice (log entry 11).
-/
def Obligations.PeekAndOverflowAnswerWithoutChange : Prop :=
  ∀ (s : State) (rest : List Byte), s.legal = true →
    decodeStimulus (wordBytes 0x4000 ++ rest) = some (.errpeek, rest) ∧
    decodeStimulus (wordBytes 0x4800 ++ rest) = some (.errovf, rest) ∧
    exec .errpeek s = .next { s with
      result := .code (if s.blk.sp.toNat ≤ 8 then s.blk.held.getLastD 0 else Config.stkBeyond (s.blk.sp.toNat - 1))
      actions := [] } ∧
    exec .errovf s = .next { s with result := .bit s.blk.ovf, actions := [] }

/-- R216, the spec's own derivation from R211 and R213: nine pushes into an empty sink keep the first eight in LIFO
pop order and set the overflow flag, which the pops do not clear; the ninth pop finds the sink empty. -/
def Obligations.SinkSaturatesAndPopsInReverse : Prop :=
  ∀ (s : State) (cs : List Byte), s.legal = true → s.blk.sp = 0 → cs.length = 9 →
    ∃ t, runOps (cs.map .errpush) s = some (t, []) ∧ t.blk.sp = 8 ∧ t.blk.stk.toList = cs.take 8 ∧
      t.blk.ovf = true ∧
      ∀ k, k ≤ 8 → ∃ u v, runOps (List.replicate k .errpop) t = some (u, []) ∧
        u.blk.held = cs.take (8 - k) ∧ u.blk.ovf = true ∧ exec .errpop u = .next v ∧ v.blk.ovf = true ∧
        v.result = .code (if k < 8 then cs.getD (7 - k) 0 else 0)

/-! ### Whole-machine rules -/

/-- R44, the spec's own derivation, with R45: the state after reset meets the table of reachable states. -/
def Obligations.ResetMeetsTheTableOfStates : Prop := Inv State.reset

/-- R44, the spec's own derivation from its transition rules: every step from a state of the table ends in a state of
the table. -/
def Obligations.StepKeepsTheTableOfStates : Prop :=
  ∀ s t : State, Inv s → step s = .next t → Inv t

/-- R151, R152 and, the spec's own derivation, R23: an initialised slave owns an address from 1 to 127, and every
operation keeps that. -/
def Obligations.SlaveNeverOwnsTheBroadcastAddress : Prop :=
  ∀ (i : Instr) (s t : State), AddressOwned s.blk → exec i s = .next t → AddressOwned t.blk

/-- R225, R276: at a legal state every operation but INIT, with operands it has a meaning for, completes. That DIRTX and
DIRRX complete as operations of their own is the model's choice (log entry 8). -/
def Obligations.EngineNeverHalts : Prop :=
  ∀ (i : Instr) (s : State), s.legal = true → i.operandsOk = true → (∀ r a, i ≠ .init r a) →
    ∃ t, exec i s = .next t

/-- R30, U5, U6, U15: no operation runs at a launch state that is no row of the table of R44; among those states are the
ones the spec names and, column by column, those whose buffer is no row's. It is the model's choice that UNKNOWN and
RESET are legal whatever `SP` (log entry 11) and are asked `TXPH`, the counts and the buffer's length only (log entry 7,
deduced from U3 and R28), that the queries which read no state are refused off the table too (log entry 7), and that
DIRTX and DIRRX are not (log entry 8). -/
def Obligations.OffTableLaunchStatesAreRefused : Prop :=
  (∀ (i : Instr) (s : State), s.legal = false → i.internal = false → ∃ r, exec i s = .refused r) ∧
  (∀ s : State, s.blk.pstate = .unknown ∨ s.blk.pstate = .reset →
    (s.legal = true ↔ s.blk.txph ≠ .value3 ∧ s.cfg.nParam ≤ 251 ∧ s.cfg.nRet ≤ 251 ∧
      s.blk.frame.length = s.cfg.lMax)) ∧
  ∀ s : State,
    (s.blk.txph = .value3 ∨ 251 < s.cfg.nParam ∨ 251 < s.cfg.nRet ∨
      (s.blk.pstate ∈ [PState.init, .request, .command, .msgbody, .process, .response] ∧ 8 < s.blk.sp.toNat) ∨
      (s.blk.pstate = .request ∧ ∃ j, s.blk.frame.byte j ≠ 0) ∨
      (s.blk.pstate = .command ∧ s.blk.txph = .none ∧ ∃ j, 1 ≤ j ∧ s.blk.frame.byte j ≠ 0) ∨
      (s.blk.pstate = .msgbody ∧ s.blk.txph = .none ∧ ∃ j, s.blk.cursor.toNat ≤ j ∧ s.blk.frame.byte j ≠ 0) ∨
      ((s.blk.pstate = .command ∨ s.blk.pstate = .msgbody) ∧ s.blk.txph ≠ .none ∧
        ¬ EncodedFrame s.cfg s.cfg.nParam s.blk.frame) ∨
      (s.blk.pstate = .response ∧ s.blk.txph ≠ .none ∧ ¬ EncodedFrame s.cfg s.cfg.nRet s.blk.frame) ∨
      (s.blk.pstate = .response ∧ s.blk.txph = .none ∧ (s.blk.frame.byte 0).getLsbD 7 = false) ∨
      ((s.blk.pstate = .process ∨ s.blk.pstate = .response ∧ s.blk.txph = .none) ∧
        ¬ ValidFrame s.cfg (rxLen s.cfg s.blk.role) s.blk.frame) ∨
      (s.blk.pstate = .msgbody ∧ s.cfg.lMax ≤ s.blk.cursor.toNat ∧ s.blk.dir = .rx) ∨
      (s.blk.pstate = .msgbody ∧ s.blk.remain = 0 ∧ s.blk.dir = .rx) ∨
      (s.blk.pstate = .response ∧ s.blk.role = .master) ∨
      (s.blk.pstate ∈ [PState.init, .request, .command, .msgbody, .process, .response] ∧
        s.blk.dir = .tx ∧ s.blk.txph = .none)) →
    s.legal = false

/-- R22, R23, R21, R10: the role and the local address are written by INIT only, the configuration by nothing. -/
def Obligations.RoleAndConfigurationAreFixed : Prop :=
  ∀ (i : Instr) (s t : State), exec i s = .next t →
    t.cfg = s.cfg ∧ ((∀ r a, i ≠ .init r a) → t.blk.role = s.blk.role ∧ t.blk.laddr = s.blk.laddr)

/-- R41, R211: the overflow flag is set only by a step that finds the sink full, and no operation clears it. -/
def Obligations.OverflowFlagIsSticky : Prop :=
  ∀ (i : Instr) (s t : State), exec i s = .next t →
    (s.blk.ovf = true → t.blk.ovf = true) ∧
    (s.blk.ovf = false → t.blk.ovf = true → 8 ≤ s.blk.sp.toNat ∧ t.blk.sp = s.blk.sp ∧ t.blk.stk = s.blk.stk)

/-- R230, R211, R213 and, the spec's own derivation, R217: a step leaves the held codes alone, adds one on top, or, if
it is ERRPOP, removes the newest. That with `SP` above 8 ERRPOP leaves the eight entries alone is the model's choice (log
entry 11). -/
def Obligations.OneCodeAtMostPerStep : Prop :=
  ∀ (i : Instr) (s t : State), exec i s = .next t →
    (i ≠ .errpop ∧ (t.blk.held = s.blk.held ∨ ∃ c, t.blk.held = s.blk.held ++ [c])) ∨
    (i = .errpop ∧ t.blk.held = if s.blk.sp.toNat ≤ 8 then s.blk.held.dropLast else s.blk.held)

/-- R221, the spec's own derivation from the rules that raise codes: where each code is raised, and that no other
operation raises any. -/
def Obligations.CodesAreRaisedOnlyWhereListed : Prop :=
  ∀ (i : Instr) (s t : State) (c : Byte), exec i s = .next t → t.blk.held = s.blk.held ++ [c] →
    (∀ x, i ≠ .errpush x) →
    (c = 1 ∧ ∃ m, i = .send m ∧ (s.blk.pstate ≠ .request ∨ s.blk.role = .slave)) ∨
    (c = 2 ∧ ∃ m, i = .respond m ∧ ¬(s.blk.pstate = .response ∧ s.blk.txph = .none)) ∨
    (c = 3 ∧ i = .consume ∧ s.blk.pstate ≠ .process) ∨
    (c = 4 ∧ ∃ m, (i = .send m ∨ i = .respond m) ∧ 127 < m.address.toNat) ∨
    (c = 5 ∧ ∃ m, (i = .send m ∨ i = .respond m) ∧ m.address = 0 ∧ m.rr = true) ∨
    (c = 5 ∧ t.blk.pstate = .request ∧ s.blk.pstate = .msgbody ∧ s.blk.dir = .rx ∧ s.blk.remain = 1 ∧
      s.blk.frame.byte 0 = 0x80 ∧
      ∃ b, i = .rxb false b ∧
        crcVerify s.cfg ((s.blk.frame.set s.blk.cursor.toNat b).take (rxLen s.cfg s.blk.role)) = true) ∨
    (c = 6 ∧ ∃ m, (i = .send m ∧ s.cfg.nParam < m.params.length) ∨ (i = .respond m ∧ s.cfg.nRet < m.params.length)) ∨
    (c = 7 ∧ t.blk.pstate = .request ∧ i = .rxerr ∧
      s.blk.pstate ∈ [PState.request, .command, .msgbody, .process, .response]) ∨
    (c = 8 ∧ t.blk.pstate = .request ∧ s.blk.pstate = .msgbody ∧ s.blk.dir = .rx ∧ s.blk.remain = 1 ∧
      ∃ b, i = .rxb false b ∧
        crcVerify s.cfg ((s.blk.frame.set s.blk.cursor.toNat b).take (rxLen s.cfg s.blk.role)) = false) ∨
    (c = 9 ∧ (s.blk.pstate = .process ∨ s.blk.pstate = .response) ∧ s.blk.dir = .rx ∧
      ∃ b, i = .rxb true b ∧ (s.blk.role = .master ∨ addressMatch s.blk.laddr b = true)) ∨
    (c = 10 ∧ t.blk.pstate = .request ∧ i.isEvent = true ∧
      ((i = .desync ∧ s.blk.pstate ≠ .init) ∨ s.blk.pstate = .unknown ∨ s.blk.pstate = .reset ∨
        ((s.blk.pstate = .command ∨ s.blk.pstate = .msgbody) ∧ s.blk.dir = .rx ∧ ∃ b, i = .rxb true b)))

/-- R68, the spec's own derivation: AVAIL, ISRESP, ERRPEEK, ERROVF and the function queries change no state and emit
nothing. -/
def Obligations.QueriesChangeNothing : Prop :=
  ∀ (i : Instr) (s t : State), i.isPure = true → exec i s = .next t →
    t = { s with result := t.result, actions := [] }

/-- R20 (column "written by"), R60: every byte of the buffer is unchanged by an operation other than INIT, SEND,
RESPOND, RXB, the paths through `enter_request`, which end in REQUEST. -/
def Obligations.BufferIsWrittenOnlyByItsWriters : Prop :=
  ∀ (i : Instr) (s t : State), exec i s = .next t → t.blk.frame ≠ s.blk.frame →
    (∃ r a, i = .init r a) ∨ (∃ m, i = .send m) ∨ (∃ m, i = .respond m) ∨ (∃ k b, i = .rxb k b) ∨
    (t.blk = t.blk.inRequest t.cfg ∧ (i = .consume ∨ i = .txc ∨ i = .rxerr ∨ i = .tmr ∨ i = .desync))

/-- R31: the address filter after every step is the table's function of role and state. -/
def Obligations.FilterFollowsRoleAndState : Prop :=
  ∀ (i : Instr) (s t : State), i.internal = false → exec i s = .next t →
    (t.blk.pstate = .request → t.blk.afilt = decide (t.blk.role = .slave)) ∧
    (t.blk.pstate = .command → t.blk.afilt = false) ∧ (t.blk.pstate = .msgbody → t.blk.afilt = false) ∧
    (t.blk.pstate = .process → t.blk.afilt = true) ∧
    (t.blk.pstate = .response → t.blk.afilt = true ∧ t.blk.role = .slave) ∧
    (t.blk.pstate = .init → t.blk.afilt = false)

/-- R189, R190 and, the spec's own derivation, R39 and R153: a frame becomes available only in the step that stores
its last byte, and then its CRC has validated. -/
def Obligations.OnlyValidatedFramesBecomeAvailable : Prop :=
  ∀ (i : Instr) (s t : State), exec i s = .next t → s.blk.pstate ≠ .process → t.blk.pstate = .process →
    (∃ b, i = .rxb false b) ∧ s.blk.pstate = .msgbody ∧ s.blk.remain = 1 ∧
    crcVerify t.cfg (t.blk.frame.take (rxLen t.cfg t.blk.role)) = true ∧ t.blk.frame.byte 0 ≠ 0x80

/-- R186, R187, R189, R190 and, the spec's own derivation, R197: a node in REQUEST that receives the bytes of one
frame, the first with the mark its role needs, ends as `frame_complete` classifies the frame. -/
def Obligations.ReceptionClassifiesEveryFrame : Prop :=
  ∀ (s : State) (mark : Bool) (b0 : Byte) (body : List Byte), s.legal = true → s.blk.pstate = .request →
    (s.blk.role = .slave → mark = true ∧ (b0.extractLsb' 0 7 = s.blk.laddr ∨ b0.extractLsb' 0 7 = 0)) →
    body.length + 1 = rxLen s.cfg s.blk.role →
    ∃ t, runOps (.rxb mark b0 :: body.map (.rxb false)) s = some (t, []) ∧ t.cfg = s.cfg ∧
      t.blk =
        if crcVerify s.cfg (b0 :: body) = false then (s.blk.push 8).inRequest s.cfg
        else if b0 = 0x80 then (s.blk.push 5).inRequest s.cfg
        else { s.blk with
          frame := b0 :: body ++ List.replicate (s.cfg.lMax - rxLen s.cfg s.blk.role) 0
          cursor := BitVec.ofNat 8 (rxLen s.cfg s.blk.role)
          remain := 0
          inuse := true
          afilt := true
          pstate := .process }

/-- R143, R193, R198: from the settle delay one TMR and as many TXC as the frame has bytes hand over every byte of the
frame in order, the first with the mark of a master, and end in REQUEST. -/
def Obligations.TransmissionHandsOverTheWholeFrame : Prop :=
  ∀ s : State, s.legal = true → s.blk.txph = .settle → s.blk.pstate ≠ .unknown → s.blk.pstate ≠ .reset →
    ∃ t, runOps (.tmr :: List.replicate (txLen s.cfg s.blk.role) .txc) s =
        some (t, (List.range (txLen s.cfg s.blk.role)).map fun j =>
          .uartTx (decide (j = 0 ∧ s.blk.role = .master)) (s.blk.frame.byte j)) ∧
      t.cfg = s.cfg ∧ t.blk = s.blk.inRequest s.cfg

/-- R155, R156, R186 to R190 and the round trip of R127 (testable property E4; that the fields beyond the address and
the flag come back is the spec's own derivation): a node that receives the frame of a valid message and consumes it
gets the message's fields back, and a slave then owes a response exactly when the flag was set. -/
def Obligations.ReceivedMessageIsConsumedUnchanged : Prop :=
  ∀ (s : State) (mark : Bool) (m : Msg) (b0 : Byte) (body : List Byte), s.legal = true → s.blk.pstate = .request →
    validate m (rxN s.cfg s.blk.role) = none →
    encodeFrame s.cfg m (rxN s.cfg s.blk.role) = b0 :: body →
    (s.blk.role = .slave → mark = true ∧ (m.address.extractLsb' 0 7 = s.blk.laddr ∨ m.address = 0)) →
    ∃ t, runOps (.rxb mark b0 :: body.map (.rxb false) ++ [.consume]) s = some (t, []) ∧
      t.result = .message 0 (some {
        address := m.address
        rr := m.rr
        command := m.command
        params := m.params ++ List.replicate (rxN s.cfg s.blk.role - m.params.length) 0
        crc16 := crc16 s.cfg ((encodeFrame s.cfg m (rxN s.cfg s.blk.role)).take (rxN s.cfg s.blk.role + 2)) }) ∧
      t.blk.pstate = (if s.blk.role = .slave ∧ m.rr = true then .response else .request) ∧
      t.blk.held = s.blk.held ∧ t.blk.ovf = s.blk.ovf
end

