-- ==== Sys2Proof/Laws/Codec.lean ====
section
/-! SUPPORT. Sys2Proof/Laws/Codec.lean: lengths and bytes of encoded frames, and the buffer they are loaded into
(41_frame_codec.md R121, 42_bus_direction.md R137). -/

namespace Sys2Proof.Machine

@[simp] theorem length_frameSpan (m : Msg) (n : Nat) : (frameSpan m n).length = n + 2 := by simp [frameSpan]

@[simp] theorem length_encodeFrame (c : Cfg) (m : Msg) (n : Nat) : (encodeFrame c m n).length = n + 4 := by
  simp [encodeFrame]

@[simp] theorem length_frameImage (c : Cfg) (m : Msg) (n : Nat) : (frameImage c m n).length = c.lMax := by
  simp [frameImage]

/-- The bytes before the CRC field are the span. -/
@[simp] theorem take_encodeFrame (c : Cfg) (m : Msg) (n : Nat) : (encodeFrame c m n).take (n + 2) = frameSpan m n := by
  simp [encodeFrame]

/-- The CRC field of an encoded frame is the span's CRC, low byte first. -/
theorem crcField_encodeFrame (c : Cfg) (m : Msg) (n : Nat) :
    crcField (encodeFrame c m n) (n + 2) = crc16 c (frameSpan m n) := by
  have h0 : (encodeFrame c m n).getD (n + 2) 0 = loByte (crc16 c (frameSpan m n)) := by
    simp [encodeFrame, List.getD_eq_getElem?_getD]
  have h1 : (encodeFrame c m n).getD (n + 2 + 1) 0 = hiByte (crc16 c (frameSpan m n)) := by
    simp [encodeFrame, List.getD_eq_getElem?_getD]
  rw [crcField, h0, h1]
  apply BitVec.eq_of_getLsbD_eq
  intro i hi
  simp only [wordOf, hiByte, loByte, BitVec.getLsbD_append, BitVec.getLsbD_extractLsb']
  by_cases h : i < 8
  · simp [h]
  · have : i - 8 < 8 := by omega
    have h2 : 8 + (i - 8) = i := by omega
    simp [h, this, h2]

/-- An encoded frame verifies (R127). -/
theorem crcVerify_encodeFrame (c : Cfg) (m : Msg) (n : Nat) : crcVerify c (encodeFrame c m n) = true := by
  have h : (encodeFrame c m n).length - 2 = n + 2 := by simp
  simp only [crcVerify, h, take_encodeFrame, crcField_encodeFrame, beq_self_eq_true]

/-- Verification of a frame of length l is the comparison `frame_complete` makes (R190). -/
theorem crcVerify_take {c : Cfg} {f : Memory} {l : Nat} (hl : 2 ≤ l) (hf : l ≤ f.length) :
    crcVerify c (f.take l) = (crc16 c (f.take (l - 2)) == crcField f (l - 2)) := by
  have h1 : (f.take l).length - 2 = l - 2 := by simp; omega
  have h2 : (f.take l).take (l - 2) = f.take (l - 2) := by
    rw [List.take_take]; congr 1; omega
  have h3 : crcField (f.take l) (l - 2) = crcField f (l - 2) := by
    unfold crcField
    have a : l - 2 < l := by omega
    have b : l - 2 + 1 < l := by omega
    simp [List.getD_eq_getElem?_getD, a, b]
  rw [crcVerify, h1, h2, h3]

/-- A loaded buffer's bytes: the frame, then zeros (R137). -/
theorem frameImage_byte (c : Cfg) (m : Msg) (n i : Nat) (hi : i < c.lMax) :
    (frameImage c m n).byte i = (encodeFrame c m n).getD i 0 := by
  simp [frameImage, Memory.byte, List.getD_eq_getElem?_getD, hi]

/-- When the frame fits, the buffer is the frame and zeros. -/
theorem frameImage_eq_append {c : Cfg} {m : Msg} {n : Nat} (h : n + 4 ≤ c.lMax) :
    frameImage c m n = encodeFrame c m n ++ List.replicate (c.lMax - (n + 4)) 0 := by
  apply List.ext_getElem?
  intro i
  by_cases hi : i < c.lMax
  · by_cases hj : i < n + 4
    · have : i < (encodeFrame c m n).length := by simpa using hj
      rw [List.getElem?_append_left this]
      simp [frameImage, hi, List.getD_eq_getElem?_getD, List.getElem?_eq_getElem this]
    · have : (encodeFrame c m n).length ≤ i := by simp; omega
      rw [List.getElem?_append_right this]
      have h2 : i - (n + 4) < c.lMax - (n + 4) := by omega
      simp [frameImage, hi, List.getD_eq_getElem?_getD, List.getElem?_eq_none this, h2]
  · have h1 : (frameImage c m n).length ≤ i := by simp; omega
    rw [List.getElem?_eq_none h1, List.getElem?_eq_none]
    simp; omega

/-- Byte 0 of an encoded frame (R84). -/
theorem encodeFrame_byte0 (c : Cfg) (m : Msg) (n : Nat) :
    (encodeFrame c m n).getD 0 0 = addressByte m.rr m.address := by
  simp [encodeFrame, frameSpan]

/-- The address byte's low seven bits are the address's. -/
@[simp] theorem addressByte_address (rr : Bool) (a : Byte) : (addressByte rr a).extractLsb' 0 7 = a.extractLsb' 0 7 := by
  apply BitVec.eq_of_getLsbD_eq
  intro i hi
  simp only [addressByte, BitVec.getLsbD_extractLsb', BitVec.getLsbD_append, Nat.zero_add, hi, decide_true, Bool.true_and,
    if_true]

/-- The address byte's bit 7 is the response flag. -/
@[simp] theorem addressByte_rr (rr : Bool) (a : Byte) : (addressByte rr a).getLsbD 7 = rr := by
  simp only [addressByte, BitVec.getLsbD_append]
  simp

/-- A 7-bit address comes back from its low seven bits. -/
theorem address_of_low7 {a : Byte} (h : a.toNat ≤ 127) : (a.extractLsb' 0 7).setWidth 8 = a := by
  apply BitVec.eq_of_toNat_eq
  simp
  omega

/-- A message passes validation exactly when none of the three checks fails (R123). -/
theorem validate_none {m : Msg} {n : Nat} : validate m n = none ↔
    m.address.toNat ≤ 127 ∧ ¬(m.address = 0 ∧ m.rr = true) ∧ m.params.length ≤ n := by
  simp only [validate, Config.addrMax]
  by_cases h1 : 127 < m.address.toNat
  · rw [if_pos h1]
    exact ⟨nofun, fun h => absurd h.1 (by omega)⟩
  rw [if_neg h1]
  by_cases h2 : m.address = 0 ∧ m.rr = true
  · rw [if_pos h2]
    exact ⟨nofun, fun h => absurd h2 h.2.1⟩
  rw [if_neg h2]
  by_cases h3 : n < m.params.length
  · rw [if_pos h3]
    exact ⟨nofun, fun h => absurd h.2.2 (by omega)⟩
  rw [if_neg h3]
  exact ⟨fun _ => ⟨by omega, h2, by omega⟩, fun _ => rfl⟩

/-- The address byte of a valid message is not the broadcast address with the response flag (R93 a). -/
theorem addressByte_ne {m : Msg} {n : Nat} (h : validate m n = none) : addressByte m.rr m.address ≠ 0x80 := by
  obtain ⟨ha, hb, -⟩ := validate_none.mp h
  intro e
  have h1 : m.rr = true := by
    rw [← addressByte_rr m.rr m.address, e]
    decide
  have h2 : m.address = 0 := by
    have := congrArg (fun v => v.extractLsb' 0 7) e
    rw [addressByte_address] at this
    have h3 := address_of_low7 ha
    rw [this] at h3
    simpa using h3.symm
  exact hb ⟨h2, h1⟩

/-- The two-byte field written as a sum of shifts (R63). -/
theorem or_eq_wordOf (lo hi : Byte) : lo.setWidth 16 ||| (hi.setWidth 16 <<< 8) = wordOf hi lo := by
  apply BitVec.eq_of_getLsbD_eq
  intro i h
  simp only [wordOf, BitVec.getLsbD_append, BitVec.getLsbD_or, BitVec.getLsbD_shiftLeft, BitVec.getLsbD_setWidth]
  by_cases h8 : i < 8
  · simp [h8, h]
  · have : lo.getLsbD i = false := by apply BitVec.getLsbD_of_ge; omega
    have h3 : i - 8 < 16 := by omega
    simp [h8, h, this, h3]

/-- Verification of a span followed by two bytes (R115). -/
theorem crcVerify_append (c : Cfg) (span : List Byte) (lo hi : Byte) :
    crcVerify c (span ++ [lo, hi]) = (crc16 c span == wordOf hi lo) := by
  have h : (span ++ [lo, hi]).length - 2 = span.length := by simp
  rw [crcVerify, h]
  simp [crcField, List.getD_eq_getElem?_getD]

/-- The broadcast address with the response flag is the byte 0x80 (R93 a). -/
theorem broadcast_rr_iff (b0 : Byte) :
    ((b0.extractLsb' 0 7).setWidth 8 = (0 : Byte) ∧ b0.getLsbD 7 = true) ↔ b0 = 0x80 := by
  revert b0; decide

/-- The message view of the leading l = n + 4 bytes of a buffer, in terms of the buffer's bytes (R33). -/
theorem messageView_take {f : Memory} {l n : Nat} (h : l = n + 4) (hf : l ≤ f.length) :
    messageView (f.take l) n = {
      address := ((f.byte 0).extractLsb' 0 7).setWidth 8
      rr := (f.byte 0).getLsbD 7
      command := f.byte 1
      params := (List.range n).map fun i => f.byte (2 + i)
      crc16 := f.byte (3 + n) ++ f.byte (2 + n) } := by
  have hg : ∀ i, i < l → (f.take l).getD i 0 = f.byte i := by
    intro i hi
    simp [List.getD_eq_getElem?_getD, Memory.byte, hi]
  simp only [messageView, crcField, wordOf]
  rw [hg 0 (by omega), hg 1 (by omega), hg (n + 2 + 1) (by omega), hg (n + 2) (by omega)]
  have e1 : n + 2 + 1 = 3 + n := by omega
  have e2 : n + 2 = 2 + n := by omega
  rw [e1, e2]
  congr 1
  apply List.ext_getElem?
  intro i
  by_cases hi : i < n
  · have h1 : 2 + i < l := by omega
    have h2 : 2 + i < f.length := by omega
    simp [hi, h1, Memory.byte, List.getD_eq_getElem?_getD, h2]
  · simp [hi]

/-- The address match, spelled out (R184). -/
theorem addressMatch_true {l : BitVec 7} {b : Byte} :
    addressMatch l b = true ↔ b.extractLsb' 0 7 = l ∨ b.extractLsb' 0 7 = 0 := by
  simp [addressMatch]

theorem addressMatch_false {l : BitVec 7} {b : Byte} :
    addressMatch l b = false ↔ b.extractLsb' 0 7 ≠ l ∧ b.extractLsb' 0 7 ≠ 0 := by
  simp [addressMatch]

end Sys2Proof.Machine
end

