-- ==== Sys2Proof/Laws/Crc.lean ====
section
/-! SUPPORT. Sys2Proof/Laws/Crc.lean: a bit step, a byte step and the whole of the default CRC lose no information
(40_crc16.md R112), the ground of R113. -/

namespace Sys2Proof.Machine

/-- The top bit of a bit step's result is the bit shifted out. -/
theorem crcBit_top (c : Word) : (crcBit c).getLsbD 15 = c.getLsbD 0 := by
  unfold crcBit
  cases h : c.getLsbD 0
  · simp
  · simp only [if_true, BitVec.getLsbD_xor, BitVec.getLsbD_ushiftRight]
    simp

/-- A bit step loses no information. -/
theorem crcBit_injective {c d : Word} (h : crcBit c = crcBit d) : c = d := by
  have h0 : c.getLsbD 0 = d.getLsbD 0 := by rw [← crcBit_top, ← crcBit_top, h]
  have hs : c >>> 1 = d >>> 1 := by
    unfold crcBit at h
    rw [← h0] at h
    split at h
    · have := congrArg (fun v => v ^^^ 0xA001#16) h
      simpa [BitVec.xor_assoc] using this
    · exact h
  apply BitVec.eq_of_getLsbD_eq
  intro i hi
  by_cases hz : i = 0
  · rw [hz, h0]
  · have := congrArg (fun v => v.getLsbD (i - 1)) hs
    simp only [BitVec.getLsbD_ushiftRight] at this
    have e : 1 + (i - 1) = i := by omega
    rwa [e] at this

theorem crcBits_injective : ∀ (n : Nat) {c d : Word}, crcBits n c = crcBits n d → c = d
  | 0, _, _, h => h
  | n + 1, _, _, h => crcBit_injective (crcBits_injective n h)

/-- Two different CRC states stay different under the same byte. -/
theorem crcByte_injective {c d : Word} {b : Byte} (h : crcByte c b = crcByte d b) : c = d := by
  have := crcBits_injective 8 h
  have h2 := congrArg (fun v => v ^^^ b.setWidth 16) this
  simpa [BitVec.xor_assoc] using h2

/-- Two different bytes give different CRC states. -/
theorem crcByte_byte_injective {c : Word} {a b : Byte} (h : crcByte c a = crcByte c b) : a = b := by
  have h1 := crcBits_injective 8 h
  have h2 : a.setWidth 16 = b.setWidth 16 := by
    have := congrArg (fun v => c ^^^ v) h1
    simpa [← BitVec.xor_assoc] using this
  have h3 := congrArg (fun v => v.setWidth 8) h2
  simpa using h3

/-- Two different CRC states stay different under the same bytes. -/
theorem crcFold_injective : ∀ (bs : List Byte) {c d : Word}, bs.foldl crcByte c = bs.foldl crcByte d → c = d
  | [], _, _, h => h
  | _ :: bs, _, _, h => crcByte_injective (crcFold_injective bs h)

/-- Inverting a bit changes a byte. -/
theorem flip_ne {b : Byte} {k : Nat} (hk : k < 8) : b ^^^ BitVec.twoPow 8 k ≠ b := by
  intro h
  have := congrArg (fun v => v.getLsbD k) h
  simp [hk] at this

end Sys2Proof.Machine
end

