-- ==== Sys2Proof/Laws/Decode.lean ====
section
/-! SUPPORT. Sys2Proof/Laws/Decode.lean: the fields of a stimulus word, and each operand format read back from what the
encoder writes. -/

namespace Sys2Proof

@[simp] theorem wordOf_bytes (w : Word) : wordOf (hiByte w) (loByte w) = w := by
  apply BitVec.eq_of_getLsbD_eq
  intro i hi
  simp only [wordOf, hiByte, loByte, BitVec.getLsbD_append, BitVec.getLsbD_extractLsb']
  by_cases h : i < 8
  · simp [h]
  · have : i - 8 < 8 := by omega
    have h2 : 8 + (i - 8) = i := by omega
    simp [h, this, h2]

@[simp] theorem hiByte_wordOf (hi lo : Byte) : hiByte (wordOf hi lo) = hi := by
  apply BitVec.eq_of_getLsbD_eq
  intro i h
  simp only [wordOf, hiByte, BitVec.getLsbD_append, BitVec.getLsbD_extractLsb']
  simp [h]

@[simp] theorem loByte_wordOf (hi lo : Byte) : loByte (wordOf hi lo) = lo := by
  apply BitVec.eq_of_getLsbD_eq
  intro i h
  simp only [wordOf, loByte, BitVec.getLsbD_append, BitVec.getLsbD_extractLsb']
  simp [h]

@[simp] theorem opselOf_mkWord (o : BitVec 5) (f : Bool) (b : Byte) : opselOf (mkWord o f b) = o := by
  apply BitVec.eq_of_getLsbD_eq
  intro i h
  have h1 : ¬ 11 + i < 8 := by omega
  have h2 : ¬ 11 + i - 8 < 1 := by omega
  have h3 : ¬ 11 + i - 8 - 1 < 2 := by omega
  have h4 : 11 + i - 8 - 1 - 2 = i := by omega
  simp only [opselOf, mkWord, BitVec.getLsbD_append, BitVec.getLsbD_extractLsb', h, h1, h2, h3, h4, if_false,
    decide_true, Bool.true_and]

@[simp] theorem zeroOf_mkWord (o : BitVec 5) (f : Bool) (b : Byte) : zeroOf (mkWord o f b) = 0 := by
  apply BitVec.eq_of_getLsbD_eq
  intro i h
  have h1 : ¬ 9 + i < 8 := by omega
  have h2 : ¬ 9 + i - 8 < 1 := by omega
  have h3 : 9 + i - 8 - 1 < 2 := by omega
  simp only [zeroOf, mkWord, BitVec.getLsbD_append, BitVec.getLsbD_extractLsb', h1, h2, h3, if_true, if_false]
  simp

@[simp] theorem fOf_mkWord (o : BitVec 5) (f : Bool) (b : Byte) : fOf (mkWord o f b) = f := by
  simp only [fOf, mkWord, BitVec.getLsbD_append]
  simp

@[simp] theorem loByte_mkWord (o : BitVec 5) (f : Bool) (b : Byte) : loByte (mkWord o f b) = b := by
  apply BitVec.eq_of_getLsbD_eq
  intro i h
  simp only [loByte, mkWord, BitVec.getLsbD_append, BitVec.getLsbD_extractLsb']
  simp [h]

/-- A stimulus word is its four fields. -/
theorem mkWord_fields {w : Word} (h : zeroOf w = 0) : mkWord (opselOf w) (fOf w) (loByte w) = w := by
  apply BitVec.eq_of_getLsbD_eq
  intro i hi
  have hz : ∀ j, j < 2 → w.getLsbD (9 + j) = false := by
    intro j hj
    have := congrArg (fun v => v.getLsbD j) h
    simpa [zeroOf, hj] using this
  simp only [mkWord, BitVec.getLsbD_append, opselOf, fOf, loByte, BitVec.getLsbD_extractLsb']
  by_cases h1 : i < 8
  · simp [h1]
  · by_cases h2 : i - 8 < 1
    · have : i = 8 := by omega
      subst this
      simp
    · by_cases h3 : i - 8 - 1 < 2
      · have hj := hz (i - 9) (by omega)
        have e : 9 + (i - 9) = i := by omega
        rw [e] at hj
        simp [h1, h2, h3, hj]
      · have h4 : i - 8 - 1 - 2 < 5 := by omega
        have h5 : 11 + (i - 8 - 1 - 2) = i := by omega
        simp [h1, h2, h3, h4, h5]

/-- The word's two bytes and then bs decode as the word. -/
@[simp] theorem decodeBytes_wordBytes (w : Word) (bs : List Byte) :
    decodeBytes (wordBytes w ++ bs) = decodeWord w bs := by
  simp [decodeBytes, wordBytes]

/-- What a word made of its fields decodes to. -/
theorem decodeBytes_encodePlain (o : BitVec 5) (f : Bool) (b : Byte) (bs : List Byte) :
    decodeBytes (encodePlain o f b ++ bs) = decodeRow o f b bs := by
  simp [encodePlain, decodeWord]

/-- The first k bytes come back whole. -/
theorem takeBytes_append (l rest : List Byte) : takeBytes l.length (l ++ rest) = some (l, rest) := by
  simp [takeBytes]

/-- A count byte of a list no longer than 255 is its length. -/
theorem toNat_length {l : List Byte} (h : l.length ≤ 255) : (BitVec.ofNat 8 l.length).toNat = l.length := by
  simp only [BitVec.toNat_ofNat]
  omega

/-- A message operand comes back. -/
theorem decodeMsg_encodeMsg {m : Msg} (h : m.wf = true) (rest : List Byte) :
    decodeMsg (encodeMsg m ++ rest) = some (m, rest) := by
  have hl : m.params.length ≤ 255 := by simpa [Msg.wf] using h
  have hf : ((BitVec.ofBool m.rr).setWidth 8 : Byte).extractLsb' 1 7 = 0#7 := by cases m.rr <;> decide
  have hr : ((BitVec.ofBool m.rr).setWidth 8 : Byte).getLsbD 0 = m.rr := by cases m.rr <;> decide
  simp only [encodeMsg, List.cons_append, decodeMsg, hf, if_true, hr, toNat_length hl, takeBytes_append, Option.map_some]

/-- Format M reads a message operand back. -/
theorem formatM_encodeMsg (mk : Msg → Instr) {m : Msg} (h : m.wf = true) (rest : List Byte) :
    formatM mk false 0 (encodeMsg m ++ rest) = some (mk m, rest) := by
  simp [formatM, decodeMsg_encodeMsg h]

/-- Format BM reads a message operand back. -/
theorem formatBM_encodeMsg (mk : Byte → Msg → Instr) (b : Byte) {m : Msg} (h : m.wf = true) (rest : List Byte) :
    formatBM mk false b (encodeMsg m ++ rest) = some (mk b m, rest) := by
  simp [formatBM, decodeMsg_encodeMsg h]

/-- Format BL reads a list back. -/
theorem formatBL_append (mk : List Byte → Instr) {l : List Byte} (h : listWf l = true) (rest : List Byte) :
    formatBL mk false (BitVec.ofNat 8 l.length) (l ++ rest) = some (mk l, rest) := by
  have hl : l.length ≤ 255 := by simpa [listWf] using h
  simp only [formatBL, if_true, toNat_length hl, takeBytes_append, Option.map_some]

/-- The host port's decoder is the table's, less the internal rows. -/
theorem decodeStimulus_eq_some {bs rest : List Byte} {i : Instr} :
    decodeStimulus bs = some (i, rest) ↔ decodeBytes bs = some (i, rest) ∧ i.internal = false := by
  unfold decodeStimulus
  cases h : decodeBytes bs with
  | none => simp
  | some p =>
    obtain ⟨j, r⟩ := p
    cases hj : j.internal
    · simp only [hj]
      constructor
      · intro e; simp at e; obtain ⟨rfl, rfl⟩ := e; exact ⟨rfl, hj⟩
      · rintro ⟨e, -⟩; simpa using e
    · simp only [hj]
      constructor
      · intro e; simp at e
      · rintro ⟨e, h'⟩; simp at e; obtain ⟨rfl, rfl⟩ := e; simp [hj] at h'

/-! ### What the decoder accepts, format by format -/

theorem takeBytes_eq_some {n : Nat} {bs l rest : List Byte} (h : takeBytes n bs = some (l, rest)) :
    l.length = n ∧ bs = l ++ rest := by
  unfold takeBytes at h
  split at h
  · cases h
  · simp at h
    obtain ⟨rfl, rfl⟩ := h
    simp
    omega

theorem decodeMsg_eq_some {bs rest : List Byte} {m : Msg} (h : decodeMsg bs = some (m, rest)) :
    m.wf = true ∧ bs = encodeMsg m ++ rest := by
  unfold decodeMsg at h
  split at h
  · rename_i a fl c k bs
    split at h
    · rename_i hf
      cases ht : takeBytes k.toNat bs with
      | none => simp [ht] at h
      | some p =>
        obtain ⟨l, r⟩ := p
        simp only [ht, Option.map_some, Option.some.injEq, Prod.mk.injEq] at h
        obtain ⟨rfl, rfl⟩ := h
        obtain ⟨hlen, rfl⟩ := takeBytes_eq_some ht
        have hk : k.toNat < 256 := k.isLt
        refine ⟨by simp [Msg.wf]; omega, ?_⟩
        have e1 : (BitVec.ofBool (fl.getLsbD 0)).setWidth 8 = fl := by
          apply BitVec.eq_of_getLsbD_eq
          intro i hi
          by_cases h0 : i = 0
          · subst h0; simp
          · have := congrArg (fun v => v.getLsbD (i - 1)) hf
            have e2 : 1 + (i - 1) = i := by omega
            have h7 : i - 1 < 7 := by omega
            simp only [BitVec.getLsbD_extractLsb', h7, e2, decide_true, Bool.true_and, BitVec.getLsbD_zero] at this
            rw [this]
            simp [hi, h0, BitVec.getLsbD_ofBool]
        have e2 : BitVec.ofNat 8 l.length = k := by rw [hlen]; simp
        simp only [encodeMsg, e1, e2, List.cons_append]
    · cases h
  · cases h

theorem formatZ_eq_some {i j : Instr} {f : Bool} {b : Byte} {bs rest : List Byte}
    (h : formatZ i f b bs = some (j, rest)) : f = false ∧ b = 0 ∧ j = i ∧ rest = bs := by
  unfold formatZ at h
  split at h
  · rename_i hc; simp at h; exact ⟨hc.1, hc.2, h.1.symm, h.2.symm⟩
  · cases h

theorem formatB_eq_some {mk : Byte → Instr} {j : Instr} {f : Bool} {b : Byte} {bs rest : List Byte}
    (h : formatB mk f b bs = some (j, rest)) : f = false ∧ j = mk b ∧ rest = bs := by
  unfold formatB at h
  split at h
  · rename_i hc; simp at h; exact ⟨hc, h.1.symm, h.2.symm⟩
  · cases h

theorem formatFB_eq_some {mk : Bool → Byte → Instr} {j : Instr} {f : Bool} {b : Byte} {bs rest : List Byte}
    (h : formatFB mk f b bs = some (j, rest)) : j = mk f b ∧ rest = bs := by
  simp [formatFB] at h
  exact ⟨h.1.symm, h.2.symm⟩

theorem formatM_eq_some {mk : Msg → Instr} {j : Instr} {f : Bool} {b : Byte} {bs rest : List Byte}
    (h : formatM mk f b bs = some (j, rest)) :
    f = false ∧ b = 0 ∧ ∃ m, j = mk m ∧ m.wf = true ∧ bs = encodeMsg m ++ rest := by
  unfold formatM at h
  split at h
  · rename_i hc
    cases hd : decodeMsg bs with
    | none => simp [hd] at h
    | some p =>
      obtain ⟨m, r⟩ := p
      simp [hd] at h
      obtain ⟨rfl, rfl⟩ := h
      exact ⟨hc.1, hc.2, m, rfl, decodeMsg_eq_some hd⟩
  · cases h

theorem formatBM_eq_some {mk : Byte → Msg → Instr} {j : Instr} {f : Bool} {b : Byte} {bs rest : List Byte}
    (h : formatBM mk f b bs = some (j, rest)) :
    f = false ∧ ∃ m, j = mk b m ∧ m.wf = true ∧ bs = encodeMsg m ++ rest := by
  unfold formatBM at h
  split at h
  · rename_i hc
    cases hd : decodeMsg bs with
    | none => simp [hd] at h
    | some p =>
      obtain ⟨m, r⟩ := p
      simp [hd] at h
      obtain ⟨rfl, rfl⟩ := h
      exact ⟨hc, m, rfl, decodeMsg_eq_some hd⟩
  · cases h

theorem formatBL_eq_some {mk : List Byte → Instr} {j : Instr} {f : Bool} {b : Byte} {bs rest : List Byte}
    (h : formatBL mk f b bs = some (j, rest)) :
    f = false ∧ ∃ l, j = mk l ∧ listWf l = true ∧ b = BitVec.ofNat 8 l.length ∧ bs = l ++ rest := by
  unfold formatBL at h
  split at h
  · rename_i hc
    cases ht : takeBytes b.toNat bs with
    | none => simp [ht] at h
    | some p =>
      obtain ⟨l, r⟩ := p
      simp [ht] at h
      obtain ⟨rfl, rfl⟩ := h
      obtain ⟨hlen, rfl⟩ := takeBytes_eq_some ht
      have := b.isLt
      exact ⟨hc, l, rfl, by simp [listWf]; omega, by rw [hlen]; simp, rfl⟩
  · cases h

/-! ### Stimuli by their word (R90) -/

/-- A format Z stimulus decodes to its operation. -/
theorem decodeStimulus_formatZ (i : Instr) {w : Word} (o : BitVec 5) (hw : w = mkWord o false 0) (rest : List Byte)
    (hr : ∀ f b l, decodeRow o f b l = formatZ i f b l) (hi : i.internal = false) :
    decodeStimulus (wordBytes w ++ rest) = some (i, rest) := by
  rw [decodeStimulus_eq_some]
  refine ⟨?_, hi⟩
  rw [hw, ← encodePlain, decodeBytes_encodePlain, hr]
  rfl

/-- A format B stimulus decodes to its operation. -/
theorem decodeStimulus_formatB (mk : Byte → Instr) {w : Word} (o : BitVec 5) (b : Byte) (hw : w = mkWord o false b)
    (rest : List Byte) (hr : ∀ f b l, decodeRow o f b l = formatB mk f b l) (hi : (mk b).internal = false) :
    decodeStimulus (wordBytes w ++ rest) = some (mk b, rest) := by
  rw [decodeStimulus_eq_some]
  refine ⟨?_, hi⟩
  rw [hw, ← encodePlain, decodeBytes_encodePlain, hr]
  rfl

/-- A format FB stimulus decodes to its operation. -/
theorem decodeStimulus_formatFB (mk : Bool → Byte → Instr) {w : Word} (o : BitVec 5) (f : Bool) (b : Byte)
    (hw : w = mkWord o f b) (rest : List Byte) (hr : ∀ f b l, decodeRow o f b l = formatFB mk f b l)
    (hi : (mk f b).internal = false) : decodeStimulus (wordBytes w ++ rest) = some (mk f b, rest) := by
  rw [decodeStimulus_eq_some]
  refine ⟨?_, hi⟩
  rw [hw, ← encodePlain, decodeBytes_encodePlain, hr]
  rfl

/-- A format M stimulus decodes to its operation. -/
theorem decodeStimulus_formatM (mk : Msg → Instr) {w : Word} (o : BitVec 5) (hw : w = mkWord o false 0) (m : Msg)
    (rest : List Byte) (hm : m.wf = true) (hr : ∀ f b l, decodeRow o f b l = formatM mk f b l)
    (hi : (mk m).internal = false) : decodeStimulus (wordBytes w ++ encodeMsg m ++ rest) = some (mk m, rest) := by
  rw [decodeStimulus_eq_some]
  refine ⟨?_, hi⟩
  rw [hw, ← encodePlain, List.append_assoc, decodeBytes_encodePlain, hr, formatM_encodeMsg mk hm]

/-- A format BM stimulus decodes to its operation. -/
theorem decodeStimulus_formatBM (mk : Byte → Msg → Instr) {w : Word} (o : BitVec 5) (b : Byte)
    (hw : w = mkWord o false b) (m : Msg) (rest : List Byte) (hm : m.wf = true)
    (hr : ∀ f b l, decodeRow o f b l = formatBM mk f b l) (hi : (mk b m).internal = false) :
    decodeStimulus (wordBytes w ++ encodeMsg m ++ rest) = some (mk b m, rest) := by
  rw [decodeStimulus_eq_some]
  refine ⟨?_, hi⟩
  rw [hw, ← encodePlain, List.append_assoc, decodeBytes_encodePlain, hr, formatBM_encodeMsg mk b hm]

/-- A format BL stimulus decodes to its operation. -/
theorem decodeStimulus_formatBL (mk : List Byte → Instr) {w : Word} (o : BitVec 5) (bs : List Byte)
    (hw : w = mkWord o false (BitVec.ofNat 8 bs.length)) (rest : List Byte) (hl : listWf bs = true)
    (hr : ∀ f b l, decodeRow o f b l = formatBL mk f b l) (hi : (mk bs).internal = false) :
    decodeStimulus (wordBytes w ++ bs ++ rest) = some (mk bs, rest) := by
  rw [decodeStimulus_eq_some]
  refine ⟨?_, hi⟩
  rw [hw, ← encodePlain, List.append_assoc, decodeBytes_encodePlain, hr, formatBL_append mk hl]

/-- The word column of R90: a row's base plus `F` times 0x100 plus `B`. -/
theorem word_eq_mkWord (o : BitVec 5) (f : Bool) (b : Byte) :
    o.setWidth 16 <<< 11 + (BitVec.ofBool f).setWidth 16 <<< 8 + b.setWidth 16 = mkWord o f b := by
  apply BitVec.eq_of_toNat_eq
  have h1 := o.isLt
  have h2 := b.isLt
  have h3 : (BitVec.ofBool f).toNat < 2 := (BitVec.ofBool f).isLt
  simp only [mkWord, BitVec.toNat_append, BitVec.toNat_add, BitVec.toNat_shiftLeft, BitVec.toNat_setWidth]
  rw [← Nat.shiftLeft_add_eq_or_of_lt h2, ← Nat.shiftLeft_add_eq_or_of_lt (by simpa using h3),
    ← Nat.shiftLeft_add_eq_or_of_lt (by decide)]
  simp only [Nat.shiftLeft_eq]
  have h0 : (0#2).toNat = 0 := rfl
  rw [h0]
  omega

end Sys2Proof
end

