-- ==== Sys2Proof/Laws/State.lean ====
section
/-! SUPPORT. Sys2Proof/Laws/State.lean: one lemma per field per update of the state, and the two outcomes of a guard. -/

namespace Sys2Proof.Machine

@[simp] theorem start_cfg (s : State) : s.start.cfg = s.cfg := rfl
@[simp] theorem start_blk (s : State) : s.start.blk = s.blk := rfl
@[simp] theorem start_input (s : State) : s.start.input = s.input := rfl
@[simp] theorem start_result (s : State) : s.start.result = .nothing := rfl
@[simp] theorem start_actions (s : State) : s.start.actions = [] := rfl

@[simp] theorem emit_cfg (a : Action) (s : State) : (emit a s).cfg = s.cfg := rfl
@[simp] theorem emit_blk (a : Action) (s : State) : (emit a s).blk = s.blk := rfl
@[simp] theorem emit_input (a : Action) (s : State) : (emit a s).input = s.input := rfl
@[simp] theorem emit_result (a : Action) (s : State) : (emit a s).result = s.result := rfl
@[simp] theorem emit_actions (a : Action) (s : State) : (emit a s).actions = s.actions ++ [a] := rfl

@[simp] theorem returns_cfg (r : Result) (s : State) : (returns r s).cfg = s.cfg := rfl
@[simp] theorem returns_blk (r : Result) (s : State) : (returns r s).blk = s.blk := rfl
@[simp] theorem returns_input (r : Result) (s : State) : (returns r s).input = s.input := rfl
@[simp] theorem returns_result (r : Result) (s : State) : (returns r s).result = r := rfl
@[simp] theorem returns_actions (r : Result) (s : State) : (returns r s).actions = s.actions := rfl

@[simp] theorem ignored_cfg (s : State) : (ignored s).cfg = s.cfg := rfl
@[simp] theorem ignored_blk (s : State) : (ignored s).blk = s.blk := rfl
@[simp] theorem ignored_input (s : State) : (ignored s).input = s.input := rfl
@[simp] theorem ignored_result (s : State) : (ignored s).result = .nothing := rfl
@[simp] theorem ignored_actions (s : State) : (ignored s).actions = [] := rfl

@[simp] theorem answers_cfg (r : Result) (s : State) : (answers r s).cfg = s.cfg := rfl
@[simp] theorem answers_blk (r : Result) (s : State) : (answers r s).blk = s.blk := rfl
@[simp] theorem answers_input (r : Result) (s : State) : (answers r s).input = s.input := rfl
@[simp] theorem answers_result (r : Result) (s : State) : (answers r s).result = r := rfl
@[simp] theorem answers_actions (r : Result) (s : State) : (answers r s).actions = [] := rfl

@[simp] theorem sinkPush_cfg (c : Byte) (s : State) : (sinkPush c s).cfg = s.cfg := rfl
@[simp] theorem sinkPush_blk (c : Byte) (s : State) : (sinkPush c s).blk = s.blk.push c := rfl
@[simp] theorem sinkPush_input (c : Byte) (s : State) : (sinkPush c s).input = s.input := rfl
@[simp] theorem sinkPush_result (c : Byte) (s : State) : (sinkPush c s).result = s.result := rfl
@[simp] theorem sinkPush_actions (c : Byte) (s : State) : (sinkPush c s).actions = s.actions := rfl

@[simp] theorem report_cfg (e : ErrCode) (s : State) : (report e s).cfg = s.cfg := rfl
@[simp] theorem report_blk (e : ErrCode) (s : State) : (report e s).blk = s.blk.push e.code := rfl
@[simp] theorem report_input (e : ErrCode) (s : State) : (report e s).input = s.input := rfl
@[simp] theorem report_result (e : ErrCode) (s : State) : (report e s).result = .status e.code := rfl
@[simp] theorem report_actions (e : ErrCode) (s : State) : (report e s).actions = s.actions := rfl

@[simp] theorem dirTx_cfg (s : State) : (dirTx s).cfg = s.cfg := rfl
@[simp] theorem dirTx_blk (s : State) : (dirTx s).blk = { s.blk with dir := .tx, txph := .settle } := rfl
@[simp] theorem dirTx_input (s : State) : (dirTx s).input = s.input := rfl
@[simp] theorem dirTx_result (s : State) : (dirTx s).result = s.result := rfl
@[simp] theorem dirTx_actions (s : State) : (dirTx s).actions = s.actions ++ [.timerStart s.cfg.tTurnMs] := rfl

@[simp] theorem dirRx_cfg (s : State) : (dirRx s).cfg = s.cfg := by unfold dirRx; split <;> rfl
@[simp] theorem dirRx_blk (s : State) : (dirRx s).blk = { s.blk with txph := .none, dir := .rx } := by
  unfold dirRx; split <;> rfl
@[simp] theorem dirRx_input (s : State) : (dirRx s).input = s.input := by unfold dirRx; split <;> rfl
@[simp] theorem dirRx_result (s : State) : (dirRx s).result = s.result := by unfold dirRx; split <;> rfl
@[simp] theorem dirRx_actions (s : State) : (dirRx s).actions = s.actions ++ s.blk.cancels := by
  unfold dirRx Block.cancels; split <;> simp

/-- `enter_request` ends in the one block of REQUEST (R181). -/
@[simp] theorem enterRequest_blk (s : State) : (enterRequest s).blk = s.blk.inRequest s.cfg := by
  simp only [enterRequest, Block.idle, dirRx_blk, dirRx_cfg, Block.inRequest, Memory.zeros]
  cases s.blk.role <;> rfl
@[simp] theorem enterRequest_cfg (s : State) : (enterRequest s).cfg = s.cfg := by simp [enterRequest]
@[simp] theorem enterRequest_input (s : State) : (enterRequest s).input = s.input := by simp [enterRequest]
@[simp] theorem enterRequest_result (s : State) : (enterRequest s).result = s.result := by simp [enterRequest]
@[simp] theorem enterRequest_actions (s : State) : (enterRequest s).actions = s.actions ++ s.blk.cancels := by
  simp [enterRequest]

/-! ### The block of REQUEST, field by field (R181) -/

@[simp] theorem inRequest_role (c : Cfg) (b : Block) : (b.inRequest c).role = b.role := rfl
@[simp] theorem inRequest_laddr (c : Cfg) (b : Block) : (b.inRequest c).laddr = b.laddr := rfl
@[simp] theorem inRequest_stk (c : Cfg) (b : Block) : (b.inRequest c).stk = b.stk := rfl
@[simp] theorem inRequest_sp (c : Cfg) (b : Block) : (b.inRequest c).sp = b.sp := rfl
@[simp] theorem inRequest_ovf (c : Cfg) (b : Block) : (b.inRequest c).ovf = b.ovf := rfl
@[simp] theorem inRequest_pstate (c : Cfg) (b : Block) : (b.inRequest c).pstate = .request := rfl
@[simp] theorem inRequest_frame (c : Cfg) (b : Block) : (b.inRequest c).frame = Memory.zeros c.lMax := rfl
@[simp] theorem inRequest_cursor (c : Cfg) (b : Block) : (b.inRequest c).cursor = 0 := rfl
@[simp] theorem inRequest_remain (c : Cfg) (b : Block) : (b.inRequest c).remain = 0 := rfl
@[simp] theorem inRequest_inuse (c : Cfg) (b : Block) : (b.inRequest c).inuse = false := rfl
@[simp] theorem inRequest_dir (c : Cfg) (b : Block) : (b.inRequest c).dir = .rx := rfl
@[simp] theorem inRequest_txph (c : Cfg) (b : Block) : (b.inRequest c).txph = .none := rfl
@[simp] theorem inRequest_afilt (c : Cfg) (b : Block) : (b.inRequest c).afilt = idleFilter b.role := by
  cases h : b.role <;> simp [Block.inRequest, idleFilter, h]
@[simp] theorem inRequest_held (c : Cfg) (b : Block) : (b.inRequest c).held = b.held := rfl

/-- Two states with the same five fields are the same state. -/
theorem state_ext {s t : State} (hc : s.cfg = t.cfg) (hb : s.blk = t.blk) (hi : s.input = t.input)
    (hr : s.result = t.result) (ha : s.actions = t.actions) : s = t := by
  cases s; cases t; simp_all

/-- `enter_request` as one state. -/
theorem enterRequest_eq (s : State) : enterRequest s =
    { s with blk := s.blk.inRequest s.cfg, actions := s.actions ++ s.blk.cancels } :=
  state_ext (by simp) (by simp) (by simp) (by simp) (by simp)

/-! ### The guard of every operation -/

/-- At a legal state the rule runs. -/
theorem guarded_legal {s : State} (h : s.legal = true) (k : StepResult) : guarded s k = k := by
  unfold guarded
  rw [State.legal, Option.isNone_iff_eq_none] at h
  rw [h]

/-- At any other state the operation is refused. -/
theorem guarded_illegal {s : State} (h : s.legal = false) (k : StepResult) : ∃ r, guarded s k = .refused r := by
  unfold guarded
  cases hr : launchRefusal s with
  | none => simp [State.legal, hr] at h
  | some r => exact ⟨r, rfl⟩

/-- A rule that answers a next state ran at a legal state. -/
theorem legal_of_guarded {s t : State} {k : StepResult} (h : guarded s k = .next t) :
    s.legal = true ∧ k = .next t := by
  cases hl : s.legal with
  | true => exact ⟨rfl, by rwa [guarded_legal hl] at h⟩
  | false =>
    obtain ⟨r, hr⟩ := guarded_illegal hl k
    rw [hr] at h
    cases h

/-- What a legal state is. -/
theorem legal_iff {s : State} : s.legal = true ↔ s.cfg.inRange = true ∧ s.blk.txph ≠ .value3 ∧
    s.blk.frame.length = s.cfg.lMax ∧ (s.blk.lost = false → s.blk.sp.toNat ≤ 8) ∧ s.blk.onTable s.cfg = true ∧
    s.blk.frameOnTable s.cfg = true := by
  simp only [State.legal, launchRefusal, Memory.wf, Block.sinkOnTable, Config.sinkDepth]
  by_cases h1 : s.cfg.inRange = true <;> by_cases h2 : s.blk.txph = .value3 <;> simp [h1, h2, and_assoc]
  rintro - - -
  cases s.blk.lost <;> simp

/-- Legality looks at the configuration and the block only. -/
theorem legal_congr {s t : State} (hc : t.cfg = s.cfg) (hb : t.blk = s.blk) : t.legal = s.legal := by
  simp [State.legal, launchRefusal, hc, hb]

@[simp] theorem start_legal (s : State) : s.start.legal = s.legal := legal_congr rfl rfl

/-- The payload counts of a legal state (R9). -/
theorem counts_of_legal {s : State} (h : s.legal = true) : s.cfg.nParam ≤ 251 ∧ s.cfg.nRet ≤ 251 := by
  have := (legal_iff.mp h).1
  simpa [Cfg.inRange] using this

end Sys2Proof.Machine
end

