-- ==== Sys2Proof/Laws/Flags.lean ====
section
/-! SUPPORT. Sys2Proof/Laws/Flags.lean: the row of the table of R44 that a legal state meets, one lemma a protocol state. -/

namespace Sys2Proof.Machine

/-- INIT: nothing is driven or filtered. -/
theorem onTable_init {c : Cfg} {b : Block} (hp : b.pstate = .init) :
    b.onTable c = true ↔ b.dir = .rx ∧ b.txph = .none ∧ b.afilt = false := by
  simp [Block.onTable, hp, Block.listening, and_assoc]

/-- REQUEST: the idle block. -/
theorem onTable_request {c : Cfg} {b : Block} (hp : b.pstate = .request) :
    b.onTable c = true ↔ b.dir = .rx ∧ b.txph = .none ∧ b.afilt = idleFilter b.role ∧ b.inuse = false ∧
      b.cursor.toNat = 0 ∧ b.remain.toNat = 0 := by
  simp [Block.onTable, hp, Block.listening, Block.counters, and_assoc]

/-- COMMAND: one byte received, or a master's request loaded, or its first byte in flight. -/
theorem onTable_command {c : Cfg} {b : Block} (hp : b.pstate = .command) :
    b.onTable c = true ↔ b.afilt = false ∧ b.inuse = true ∧
      ((b.dir = .rx ∧ b.txph = .none ∧ b.cursor.toNat = 1 ∧ b.remain.toNat = rxLen c b.role - 1) ∨
       (b.role = .master ∧ b.dir = .tx ∧ b.txph = .settle ∧ b.cursor.toNat = 0 ∧ b.remain.toNat = c.lReq) ∨
       (b.role = .master ∧ b.dir = .tx ∧ b.txph = .sending ∧ b.cursor.toNat = 1 ∧ b.remain.toNat = c.lReq - 1)) := by
  simp [Block.onTable, hp, Block.listening, Block.counters, Block.settling, Block.sendingPhase, and_assoc, or_assoc]

/-- MSGBODY: a frame under way, in one direction or the other. -/
theorem onTable_msgbody {c : Cfg} {b : Block} (hp : b.pstate = .msgbody) :
    b.onTable c = true ↔ b.afilt = false ∧ b.inuse = true ∧
      ((b.dir = .rx ∧ b.txph = .none ∧ 2 ≤ b.cursor.toNat ∧ b.cursor.toNat ≤ rxLen c b.role - 1 ∧
          b.cursor.toNat + b.remain.toNat = rxLen c b.role) ∨
       (b.role = .master ∧ b.dir = .tx ∧ b.txph = .sending ∧ 2 ≤ b.cursor.toNat ∧ b.cursor.toNat ≤ c.lReq ∧
          b.cursor.toNat + b.remain.toNat = c.lReq)) := by
  simp [Block.onTable, hp, Block.listening, Block.between, Block.sendingPhase, and_assoc]

/-- PROCESS: a whole frame received. -/
theorem onTable_process {c : Cfg} {b : Block} (hp : b.pstate = .process) :
    b.onTable c = true ↔ b.dir = .rx ∧ b.txph = .none ∧ b.afilt = true ∧ b.inuse = true ∧
      b.cursor.toNat = rxLen c b.role ∧ b.remain.toNat = 0 := by
  simp [Block.onTable, hp, Block.listening, Block.counters, and_assoc]

/-- RESPONSE: a slave that owes a response, has loaded it or sends it. -/
theorem onTable_response {c : Cfg} {b : Block} (hp : b.pstate = .response) :
    b.onTable c = true ↔ b.role = .slave ∧ b.afilt = true ∧ b.inuse = true ∧
      ((b.dir = .rx ∧ b.txph = .none ∧ b.cursor.toNat = c.lReq ∧ b.remain.toNat = 0) ∨
       (b.dir = .tx ∧ b.txph = .settle ∧ b.cursor.toNat = 0 ∧ b.remain.toNat = c.lRsp) ∨
       (b.dir = .tx ∧ b.txph = .sending ∧ 1 ≤ b.cursor.toNat ∧ b.cursor.toNat ≤ c.lRsp ∧
          b.cursor.toNat + b.remain.toNat = c.lRsp)) := by
  simp [Block.onTable, hp, Block.listening, Block.counters, Block.between, Block.settling, Block.sendingPhase, and_assoc,
    or_assoc]

/-- UNKNOWN and RESET: nothing else is asked (R28). -/
theorem onTable_lost {c : Cfg} {b : Block} (h : b.lost = true) : b.onTable c = true := by
  simp only [Block.lost, Bool.or_eq_true, beq_iff_eq] at h
  rcases h with h | h <;> simp [Block.onTable, h]

/-- The bounds of the frame lengths (R9, R66). -/
theorem rxLen_bounds {c : Cfg} (h : c.inRange = true) (r : Role) :
    4 ≤ rxLen c r ∧ rxLen c r ≤ 255 ∧ rxLen c r ≤ c.lMax := by
  simp only [Cfg.inRange, Bool.and_eq_true, decide_eq_true_eq] at h
  cases r <;> simp only [rxLen, Cfg.lMax, Cfg.lReq, Cfg.lRsp] <;> omega

theorem txLen_bounds {c : Cfg} (h : c.inRange = true) (r : Role) :
    4 ≤ txLen c r ∧ txLen c r ≤ 255 ∧ txLen c r ≤ c.lMax := by
  simp only [Cfg.inRange, Bool.and_eq_true, decide_eq_true_eq] at h
  cases r <;> simp only [txLen, Cfg.lMax, Cfg.lReq, Cfg.lRsp] <;> omega

/-- Line and phase go together: the bus is driven exactly while a frame is settling or being sent (R42 d), in the states
with a row of the table. -/
theorem dir_tx_iff {c : Cfg} {b : Block} (h : b.onTable c = true) (hl : b.lost = false) :
    b.dir = .tx ↔ b.txph ≠ .none := by
  cases hp : b.pstate with
  | init => simp [(onTable_init hp).mp h]
  | request => simp [(onTable_request hp).mp h]
  | command =>
    obtain ⟨-, -, ⟨h1, h2, -⟩ | ⟨-, h1, h2, -⟩ | ⟨-, h1, h2, -⟩⟩ := (onTable_command hp).mp h <;> simp [h1, h2]
  | msgbody =>
    obtain ⟨-, -, ⟨h1, h2, -⟩ | ⟨-, h1, h2, -⟩⟩ := (onTable_msgbody hp).mp h <;> simp [h1, h2]
  | process => simp [(onTable_process hp).mp h]
  | response =>
    obtain ⟨-, -, -, ⟨h1, h2, -⟩ | ⟨h1, h2, -⟩ | ⟨h1, h2, -⟩⟩ := (onTable_response hp).mp h <;> simp [h1, h2]
  | unknown => simp [Block.lost, hp] at hl
  | reset => simp [Block.lost, hp] at hl

end Sys2Proof.Machine
end

