-- ==== Sys2Proof/Laws/Memory.lean ====
section
/-! SUPPORT. Sys2Proof/Laws/Memory.lean: the frame buffer as a memory: a read after a write, and that every operation on it
keeps its length (20_memory.md R60). -/

namespace Sys2Proof.Machine

theorem wf_iff {n : Nat} {m : Memory} : m.wf n = true ↔ m.length = n := by simp [Memory.wf]

/-- A read of the byte just written. -/
theorem read_write_self {m : Memory} {i : Nat} (h : i < m.length) (v : Byte) : (m.write i v).read i = some v := by
  simp [Memory.read, Memory.write, h]

/-- A write leaves every other byte alone. -/
theorem read_write_ne {m : Memory} {i j : Nat} (h : j ≠ i) (v : Byte) : (m.write i v).read j = m.read j := by
  simp [Memory.read, Memory.write, List.getElem?_set_ne (Ne.symm h)]

/-- An index beyond the buffer does not exist (R60). -/
theorem read_none {m : Memory} {i : Nat} (h : m.length ≤ i) : m.read i = none := by simp [Memory.read, h]

/-- The value of a byte that exists is what a read answers. -/
theorem byte_of_read {m : Memory} {i : Nat} {v : Byte} (h : m.read i = some v) : m.byte i = v := by
  have h' : m[i]? = some v := h
  simp [Memory.byte, List.getD_eq_getElem?_getD, h']

theorem byte_write_self {m : Memory} {i : Nat} (h : i < m.length) (v : Byte) : (m.write i v).byte i = v :=
  byte_of_read (read_write_self h v)

theorem byte_write_ne {m : Memory} {i j : Nat} (h : j ≠ i) (v : Byte) : (m.write i v).byte j = m.byte j := by
  simp [Memory.byte, Memory.write, List.getD_eq_getElem?_getD, List.getElem?_set_ne (Ne.symm h)]

@[simp] theorem byte_zeros (n i : Nat) : (Memory.zeros n).byte i = 0 := by
  simp [Memory.byte, Memory.zeros, List.getD_eq_getElem?_getD, List.getElem?_replicate]
  split <;> rfl

@[simp] theorem length_write (m : Memory) (i : Nat) (v : Byte) : (m.write i v).length = m.length := by
  simp [Memory.write]

@[simp] theorem length_zeros (n : Nat) : (Memory.zeros n).length = n := by simp [Memory.zeros]

/-! ### Every operation on the buffer keeps its form -/

theorem wf_write {n : Nat} {m : Memory} (h : m.wf n = true) (i : Nat) (v : Byte) : (m.write i v).wf n = true := by
  simpa [wf_iff] using h

theorem wf_zeros (n : Nat) : (Memory.zeros n).wf n = true := by simp [wf_iff]

theorem wf_frameImage (c : Cfg) (m : Msg) (n : Nat) : (frameImage c m n).wf c.lMax = true := by simp [wf_iff]

theorem wf_enterRequest (s : State) : (enterRequest s).blk.frame.wf s.cfg.lMax = true := by
  simp [wf_iff, Block.inRequest]

theorem wf_loadTx (m : Msg) (n : Nat) (s : State) : (loadTx m n s).blk.frame.wf s.cfg.lMax = true := by
  simp [wf_iff, loadTx]

theorem wf_rxStore {s : State} (h : s.blk.frame.wf s.cfg.lMax = true) (b : Byte) :
    (rxStore b s).blk.frame.wf s.cfg.lMax = true := wf_write h _ _

theorem wf_frameComplete {s : State} (h : s.blk.frame.wf s.cfg.lMax = true) :
    (frameComplete s).blk.frame.wf s.cfg.lMax = true := by
  simp only [frameComplete]
  split
  · exact wf_enterRequest (sinkPush _ s)
  split
  · exact wf_enterRequest (sinkPush _ s)
  · exact h

theorem wf_reset : State.reset.blk.frame.wf State.reset.cfg.lMax = true := by simp [wf_iff, State.reset, Block.reset]

end Sys2Proof.Machine
end

