-- ==== Sys2Proof/Laws/Sink.lean ====
section
/-! SUPPORT. Sys2Proof/Laws/Sink.lean: what a push and a pop do (45_error_sink.md). -/

namespace Sys2Proof.Machine

@[simp] theorem push_role (c : Byte) (b : Block) : (b.push c).role = b.role := by unfold Block.push; split <;> rfl
@[simp] theorem push_laddr (c : Byte) (b : Block) : (b.push c).laddr = b.laddr := by unfold Block.push; split <;> rfl
@[simp] theorem push_pstate (c : Byte) (b : Block) : (b.push c).pstate = b.pstate := by unfold Block.push; split <;> rfl
@[simp] theorem push_frame (c : Byte) (b : Block) : (b.push c).frame = b.frame := by unfold Block.push; split <;> rfl
@[simp] theorem push_cursor (c : Byte) (b : Block) : (b.push c).cursor = b.cursor := by unfold Block.push; split <;> rfl
@[simp] theorem push_remain (c : Byte) (b : Block) : (b.push c).remain = b.remain := by unfold Block.push; split <;> rfl
@[simp] theorem push_inuse (c : Byte) (b : Block) : (b.push c).inuse = b.inuse := by unfold Block.push; split <;> rfl
@[simp] theorem push_dir (c : Byte) (b : Block) : (b.push c).dir = b.dir := by unfold Block.push; split <;> rfl
@[simp] theorem push_txph (c : Byte) (b : Block) : (b.push c).txph = b.txph := by unfold Block.push; split <;> rfl
@[simp] theorem push_afilt (c : Byte) (b : Block) : (b.push c).afilt = b.afilt := by unfold Block.push; split <;> rfl

/-- A push leaves the table of R44 as it was. -/
@[simp] theorem push_onTable (k : Byte) (c : Cfg) (b : Block) : (b.push k).onTable c = b.onTable c := by
  simp [Block.onTable, Block.listening, Block.settling, Block.sendingPhase, Block.counters, Block.between]

@[simp] theorem push_lost (k : Byte) (b : Block) : (b.push k).lost = b.lost := by simp [Block.lost]

@[simp] theorem push_frameOnTable (k : Byte) (c : Cfg) (b : Block) : (b.push k).frameOnTable c = b.frameOnTable c := by
  simp [Block.frameOnTable]

@[simp] theorem push_cancels (c : Byte) (b : Block) : (b.push c).cancels = b.cancels := by simp [Block.cancels]

/-- A push keeps the sink within its depth. -/
theorem push_sp_le {c : Byte} {b : Block} (h : b.sp.toNat ≤ 8) : (b.push c).sp.toNat ≤ 8 := by
  unfold Block.push
  split
  · rename_i hlt
    have : (b.sp + 1).toNat = b.sp.toNat + 1 := by
      rw [BitVec.toNat_add]; simp only [Config.sinkDepth] at hlt; simp; omega
    simp only [this]
    simpa [Config.sinkDepth] using hlt
  · exact h

/-- A push into a sink with room puts the code on top and leaves the flag. -/
theorem push_room {c : Byte} {b : Block} (h : b.sp.toNat < 8) :
    (b.push c).held = b.held ++ [c] ∧ (b.push c).sp.toNat = b.sp.toNat + 1 ∧ (b.push c).ovf = b.ovf := by
  have hs : (b.sp + 1).toNat = b.sp.toNat + 1 := by
    rw [BitVec.toNat_add]; simp; omega
  have hv : b.sp.toNat < b.stk.toList.length := by simpa using h
  simp only [Block.push, if_pos h, Block.held, hs, and_true]
  have : (b.stk.setIfInBounds b.sp.toNat c).toList = b.stk.toList.set b.sp.toNat c := by simp
  rw [this, List.take_add_one, List.take_set_of_le (Nat.le_refl _), List.getElem?_set_self hv]
  rfl

/-- A push into a full sink drops the code and sets the flag. -/
theorem push_full {c : Byte} {b : Block} (h : ¬ b.sp.toNat < 8) : b.push c = { b with ovf := true } := by
  simp [Block.push, Config.sinkDepth, h]

/-- A push changes the held codes by at most one on top. -/
theorem push_held (c : Byte) (b : Block) : (b.push c).held = b.held ∨ (b.push c).held = b.held ++ [c] := by
  by_cases h : b.sp.toNat < 8
  · exact .inr (push_room h).1
  · exact .inl (by rw [push_full h]; rfl)

/-- The flag is set by a push that finds the sink full, and by no other. -/
theorem push_ovf (c : Byte) (b : Block) : (b.push c).ovf = (b.ovf || !decide (b.sp.toNat < 8)) := by
  by_cases h : b.sp.toNat < 8
  · simp [(push_room h).2.2, h]
  · simp [push_full h, h]

/-- An empty sink is left as it is. -/
theorem pop_empty {b : Block} (h : ¬ 0 < b.sp.toNat) : b.pop = b := by simp [Block.pop, h]

/-- A pop removes the newest code. -/
theorem pop_held {b : Block} (h : b.sp.toNat ≤ 8) : b.pop.held = b.held.dropLast := by
  unfold Block.pop Block.held
  split
  · rename_i hp
    have hs : (b.sp - 1).toNat = b.sp.toNat - 1 := by
      rw [BitVec.toNat_sub]; have := b.sp.isLt; simp; omega
    simp only [hs]
    rw [List.dropLast_eq_take, List.take_take, List.length_take]
    congr 1
    simp
    omega
  · rename_i hp
    have : b.sp.toNat = 0 := by omega
    simp [this]

/-- Beyond the eight entries a pop lowers the count, no held code is lost, and the value is free (R213, log entry 11). -/
theorem pop_beyond {b : Block} (h : 8 < b.sp.toNat) :
    b.pop.held = b.held ∧ b.pop.sp.toNat = b.sp.toNat - 1 ∧ b.top = Config.stkBeyond (b.sp.toNat - 1) := by
  have h0 : 0 < b.sp.toNat := by omega
  have hs : (b.sp - 1).toNat = b.sp.toNat - 1 := by
    rw [BitVec.toNat_sub]; have := b.sp.isLt; simp; omega
  refine ⟨?_, by simp only [Block.pop, if_pos h0, hs], ?_⟩
  · simp only [Block.pop, if_pos h0, Block.held, hs]
    rw [List.take_of_length_le (by simp; omega), List.take_of_length_le (by simp; omega)]
  · have : b.stk.toList.length ≤ b.sp.toNat - 1 := by simp; omega
    rw [Block.top, if_pos h0, List.getD_eq_getElem?_getD, List.getElem?_eq_none this]
    rfl

/-- A pop keeps the sink within its depth. -/
theorem pop_sp_le {b : Block} (h : b.sp.toNat ≤ 8) : b.pop.sp.toNat ≤ 8 := by
  unfold Block.pop
  split
  · rename_i hp
    have : (b.sp - 1).toNat = b.sp.toNat - 1 := by
      rw [BitVec.toNat_sub]; have := b.sp.isLt; simp; omega
    simp only [this]
    omega
  · exact h

/-- A pop moves the stack pointer only. -/
theorem pop_eq (b : Block) : b.pop = { b with sp := b.pop.sp } := by
  unfold Block.pop
  split <;> rfl

/-- The number of held codes. -/
theorem length_held {b : Block} (h : b.sp.toNat ≤ 8) : b.held.length = b.sp.toNat := by
  simp [Block.held, h]

/-- The code a pop and a peek return is the newest held one, 0 when there is none. -/
theorem top_eq {b : Block} (h : b.sp.toNat ≤ 8) : b.top = b.held.getLastD 0 := by
  unfold Block.top
  split
  · rename_i hp
    have hl := length_held h
    have hne : b.held ≠ [] := by intro e; rw [e] at hl; simp at hl; omega
    rw [List.getLastD_eq_getLast?, List.getLast?_eq_getElem?, hl]
    have h1 : b.sp.toNat - 1 < b.stk.toList.length := by simp; omega
    have h2 : b.sp.toNat - 1 < b.sp.toNat := by omega
    rw [Block.held, List.getElem?_take_of_lt h2, List.getD_eq_getElem?_getD, List.getElem?_eq_getElem h1]
    rfl
  · rename_i hp
    have : b.sp.toNat = 0 := by omega
    simp [Block.held, this]

end Sys2Proof.Machine
end

