-- ==== Sys2Proof/Laws/Exec.lean ====
section
/-! SUPPORT. Sys2Proof/Laws/Exec.lean: for each operation, everything it can do when it answers a next state. -/

namespace Sys2Proof.Machine

/-- A desynchronization as one state (R182). -/
theorem desync_eq (s : State) : Machine.desync s =
    { s with blk := (s.blk.push 10).inRequest s.cfg, actions := s.actions ++ s.blk.cancels } := by
  apply state_ext <;> simp [Machine.desync, ErrCode.code]

/-- A query answers and changes nothing else. -/
theorem exec_pure {i : Instr} {s t : State} (hi : i.isPure = true) (h : exec i s = .next t) :
    s.legal = true ∧ ∃ r, t = answers r s := by
  cases i <;> simp only [Instr.isPure, Bool.false_eq_true] at hi <;>
    simp only [exec, execAvail, execIsresp, execErrpeek, execErrovf, execCrc16, execCrcvfy, execEncode, execDecode] at h <;>
    obtain ⟨hl, h⟩ := legal_of_guarded h <;> refine ⟨hl, ?_⟩ <;>
    first
    | exact ⟨_, (Host.Outcome.next.inj h).symm⟩
    | (split at h
       · cases h
       · first
         | exact ⟨_, (Host.Outcome.next.inj h).symm⟩
         | (split at h <;> exact ⟨_, (Host.Outcome.next.inj h).symm⟩))

/-- INIT stores its operands and enters REQUEST. -/
theorem exec_init {r : Role} {a : Byte} {s t : State} (h : exec (.init r a) s = .next t) :
    s.legal = true ∧ s.blk.pstate = .init ∧ (r = .slave → a ≠ 0 ∧ a.toNat ≤ 127) ∧
      t = enterRequest (storeIdentity r a s.start) := by
  simp only [exec, execInit] at h
  obtain ⟨hl, h⟩ := legal_of_guarded h
  by_cases h1 : s.blk.pstate = .init
  · rw [if_neg (not_not_intro h1)] at h
    by_cases h2 : r = .slave ∧ a = 0
    · rw [if_pos h2] at h; cases h
    rw [if_neg h2] at h
    by_cases h3 : r = .slave ∧ Config.addrMax < a.toNat
    · rw [if_pos h3] at h; cases h
    rw [if_neg h3] at h
    exact ⟨hl, h1, fun hr => ⟨fun ha => h2 ⟨hr, ha⟩, by simp only [hr, true_and, Config.addrMax] at h3; omega⟩,
      (Host.Outcome.next.inj h).symm⟩
  · rw [if_pos h1] at h; cases h

/-- CONSUME reports, or returns the message and leaves PROCESS. -/
theorem exec_consume {s t : State} (h : exec .consume s = .next t) :
    s.legal = true ∧
      ((s.blk.pstate ≠ .process ∧
          t = returns (.message 3 none) (report .noRequestAvailable s.start)) ∨
       (s.blk.pstate = .process ∧ ∃ r, r = .message 0 (some (messageView
            (s.blk.frame.take (rxLen s.cfg s.blk.role)) (rxN s.cfg s.blk.role))) ∧
          ((s.blk.role = .slave ∧ (s.blk.frame.byte 0).getLsbD 7 = true ∧
              t = returns r { s.start with blk := { s.blk with pstate := .response } }) ∨
           (¬(s.blk.role = .slave ∧ (s.blk.frame.byte 0).getLsbD 7 = true) ∧ t = returns r (enterRequest s.start))))) := by
  simp only [exec, execConsume] at h
  obtain ⟨hl, h⟩ := legal_of_guarded h
  refine ⟨hl, ?_⟩
  by_cases h1 : s.blk.pstate = .process
  · rw [if_neg (not_not_intro h1)] at h
    refine .inr ⟨h1, _, rfl, ?_⟩
    have h' := (Host.Outcome.next.inj h).symm
    unfold consumeFrame at h'
    by_cases h2 : s.start.blk.role = .slave ∧ (s.start.blk.frame.byte 0).getLsbD 7 = true
    · rw [if_pos h2] at h'
      exact .inl ⟨h2.1, h2.2, h'⟩
    · rw [if_neg h2] at h'
      exact .inr ⟨h2, h'⟩
  · rw [if_pos h1] at h
    exact .inl ⟨h1, (Host.Outcome.next.inj h).symm⟩

/-- The block after CONSUME in PROCESS (R155). -/
theorem consumeFrame_blk (s : State) : (consumeFrame s).blk =
    if s.blk.role = .slave ∧ (s.blk.frame.byte 0).getLsbD 7 = true then { s.blk with pstate := .response }
    else s.blk.inRequest s.cfg := by
  unfold consumeFrame
  by_cases h : s.blk.role = .slave ∧ (s.blk.frame.byte 0).getLsbD 7 = true
  · simp only [if_pos h, returns_blk]
  · simp only [if_neg h, returns_blk, enterRequest_blk]

/-- RESPOND reports, or loads a valid response. -/
theorem exec_respond {m : Msg} {s t : State} (h : exec (.respond m) s = .next t) :
    s.legal = true ∧
      ((¬(s.blk.pstate = .response ∧ s.blk.txph = .none) ∧ t = report .noResponseExpected s.start) ∨
       (s.blk.pstate = .response ∧ s.blk.txph = .none ∧ ∃ e, validate m s.cfg.nRet = some e ∧ t = report e s.start) ∨
       (s.blk.pstate = .response ∧ s.blk.txph = .none ∧ validate m s.cfg.nRet = none ∧ t = respondLoad m s.start)) := by
  simp only [exec, execRespond] at h
  obtain ⟨hl, h⟩ := legal_of_guarded h
  refine ⟨hl, ?_⟩
  by_cases h1 : s.blk.pstate = .response ∧ s.blk.txph = .none
  · rw [if_neg (by simp [Block.respondEligible, h1])] at h
    split at h
    · rename_i e he
      exact .inr (.inl ⟨h1.1, h1.2, e, he, (Host.Outcome.next.inj h).symm⟩)
    · rename_i he
      exact .inr (.inr ⟨h1.1, h1.2, he, (Host.Outcome.next.inj h).symm⟩)
  · rw [if_pos (by simp only [Block.respondEligible, Bool.and_eq_false_iff, beq_eq_false_iff_ne]; tauto)] at h
    exact .inl ⟨h1, (Host.Outcome.next.inj h).symm⟩

/-- SEND reports, or loads a valid request. -/
theorem exec_send {m : Msg} {s t : State} (h : exec (.send m) s = .next t) :
    s.legal = true ∧
      ((¬(s.blk.pstate = .request ∧ s.blk.role = .master) ∧ t = report .noRequestExpected s.start) ∨
       (s.blk.pstate = .request ∧ s.blk.role = .master ∧ ∃ e, validate m s.cfg.nParam = some e ∧ t = report e s.start) ∨
       (s.blk.pstate = .request ∧ s.blk.role = .master ∧ validate m s.cfg.nParam = none ∧ t = sendLoad m s.start)) := by
  simp only [exec, execSend] at h
  obtain ⟨hl, h⟩ := legal_of_guarded h
  refine ⟨hl, ?_⟩
  by_cases h1 : s.blk.pstate = .request ∧ s.blk.role = .master
  · rw [if_neg (not_not_intro h1)] at h
    split at h
    · rename_i e he
      exact .inr (.inl ⟨h1.1, h1.2, e, he, (Host.Outcome.next.inj h).symm⟩)
    · rename_i he
      exact .inr (.inr ⟨h1.1, h1.2, he, (Host.Outcome.next.inj h).symm⟩)
  · rw [if_pos h1] at h
    exact .inl ⟨h1, (Host.Outcome.next.inj h).symm⟩

/-- ERRPUSH pushes. -/
theorem exec_errpush {c : Byte} {s t : State} (h : exec (.errpush c) s = .next t) :
    s.legal = true ∧ t = sinkPush c s.start := by
  obtain ⟨hl, h⟩ := legal_of_guarded h
  exact ⟨hl, (Host.Outcome.next.inj h).symm⟩

/-- ERRPOP pops. -/
theorem exec_errpop {s t : State} (h : exec .errpop s = .next t) :
    s.legal = true ∧ t = returns (.code s.blk.top) { s.start with blk := s.blk.pop } := by
  obtain ⟨hl, h⟩ := legal_of_guarded h
  exact ⟨hl, (Host.Outcome.next.inj h).symm⟩

/-- RXB: the nine things a character can do. -/
theorem exec_rxb {k : Bool} {b : Byte} {s t : State} (h : exec (.rxb k b) s = .next t) :
    s.legal = true ∧
      (t = ignored s ∨
       (s.blk.lost = true ∧ t = desync s.start) ∨
       (s.blk.pstate = .request ∧ s.blk.dir = .rx ∧ (s.blk.afilt = true → k = true) ∧
          (s.blk.role = .slave → addressMatch s.blk.laddr b = true) ∧
          t = { s.start with blk := { s.blk with
            frame := s.blk.frame.write 0 b
            cursor := 1
            remain := BitVec.ofNat 8 (rxLen s.cfg s.blk.role - 1)
            inuse := true
            afilt := false
            pstate := .command } }) ∨
       ((s.blk.pstate = .command ∨ s.blk.pstate = .msgbody) ∧ s.blk.dir = .rx ∧ k = true ∧ t = desync s.start) ∨
       (s.blk.pstate = .command ∧ s.blk.dir = .rx ∧ k = false ∧
          t = { s.start with blk := { s.blk with
            frame := s.blk.frame.write 1 b
            cursor := 2
            remain := BitVec.ofNat 8 (rxLen s.cfg s.blk.role - 2)
            pstate := .msgbody } }) ∨
       (s.blk.pstate = .msgbody ∧ s.blk.dir = .rx ∧ k = false ∧ s.blk.remain ≠ 1 ∧ t = rxStore b s.start) ∨
       (s.blk.pstate = .msgbody ∧ s.blk.dir = .rx ∧ k = false ∧ s.blk.remain = 1 ∧
          t = frameComplete (rxStore b s.start)) ∨
       ((s.blk.pstate = .process ∨ s.blk.pstate = .response) ∧ s.blk.dir = .rx ∧ k = true ∧
          (s.blk.role = .master ∨ addressMatch s.blk.laddr b = true) ∧
          t = sinkPush ErrCode.requestDropped.code s.start)) := by
  simp only [exec, execRxb] at h
  obtain ⟨hl, h⟩ := legal_of_guarded h
  refine ⟨hl, ?_⟩
  by_cases h1 : s.blk.pstate = .init
  · rw [if_pos h1] at h
    exact .inl (Host.Outcome.next.inj h).symm
  rw [if_neg h1] at h
  by_cases h2 : s.blk.lost = true
  · rw [if_pos h2] at h
    exact .inr (.inl ⟨h2, (Host.Outcome.next.inj h).symm⟩)
  rw [if_neg h2] at h
  by_cases h3 : s.blk.dir = .tx
  · rw [if_pos h3] at h
    exact .inl (Host.Outcome.next.inj h).symm
  rw [if_neg h3] at h
  have hd : s.blk.dir = .rx := by cases hd : s.blk.dir <;> simp_all
  by_cases h4 : s.blk.afilt = true ∧ k = false
  · rw [if_pos h4] at h
    exact .inl (Host.Outcome.next.inj h).symm
  rw [if_neg h4] at h
  have hk : s.blk.afilt = true → k = true := by
    intro ha; cases k <;> simp_all
  by_cases h5 : s.blk.pstate = .request
  · rw [if_pos h5] at h
    have h' := (Host.Outcome.next.inj h).symm
    unfold rxRequest at h'
    split at h'
    · exact .inl h'
    · rename_i hm
      refine .inr (.inr (.inl ⟨h5, hd, hk, ?_, h'⟩))
      intro hr
      simpa [hr] using hm
  rw [if_neg h5] at h
  by_cases h6 : s.blk.pstate = .command
  · rw [if_pos h6] at h
    have h' := (Host.Outcome.next.inj h).symm
    cases k
    · exact .inr (.inr (.inr (.inr (.inl ⟨h6, hd, rfl, h'⟩))))
    · exact .inr (.inr (.inr (.inl ⟨.inl h6, hd, rfl, h'⟩)))
  rw [if_neg h6] at h
  by_cases h7 : s.blk.pstate = .msgbody
  · rw [if_pos h7] at h
    have h' := (Host.Outcome.next.inj h).symm
    cases k
    · by_cases hr : s.blk.remain = 1
      · refine .inr (.inr (.inr (.inr (.inr (.inr (.inl ⟨h7, hd, rfl, hr, ?_⟩))))))
        rw [h']
        have : (rxStore b s.start).blk.remain = 0 := by simp [rxStore, hr]
        simp [rxBody, this]
      · refine .inr (.inr (.inr (.inr (.inr (.inl ⟨h7, hd, rfl, hr, ?_⟩)))))
        rw [h']
        have : ¬ (rxStore b s.start).blk.remain = 0 := by
          intro e
          have e' : s.blk.remain - 1 = 0 := e
          exact hr (by have := congrArg (· + 1) e'; simpa using this)
        simp only [rxBody, this, Bool.false_eq_true, if_false]
    · exact .inr (.inr (.inr (.inl ⟨.inr h7, hd, rfl, h'⟩)))
  rw [if_neg h7] at h
  have hp : s.blk.pstate = .process ∨ s.blk.pstate = .response := by
    simp only [Block.lost, Bool.or_eq_true, beq_iff_eq, not_or] at h2
    cases hq : s.blk.pstate <;> simp_all
  have h' := (Host.Outcome.next.inj h).symm
  unfold rxBusy at h'
  split at h'
  · rename_i hm
    refine .inr (.inr (.inr (.inr (.inr (.inr (.inr ⟨hp, hd, ?_, hm, h'⟩))))))
    obtain ⟨-, -, -, -, ht, -⟩ := legal_iff.mp hl
    rcases hp with hp | hp
    · exact hk ((onTable_process hp).mp ht).2.2.1
    · exact hk ((onTable_response hp).mp ht).2.1
  · exact .inl h'

/-- TXC: the next byte, or the end of the transfer. -/
theorem exec_txc {s t : State} (h : exec .txc s = .next t) :
    s.legal = true ∧
      (t = ignored s ∨
       (s.blk.lost = true ∧ t = desync s.start) ∨
       (s.blk.lost = false ∧ s.blk.pstate ≠ .init ∧ s.blk.txph = .sending ∧ 0 < s.blk.remain.toNat ∧
          t = { txNext false s.start with blk := { (txNext false s.start).blk with
            pstate := if s.blk.pstate = .command then .msgbody else s.blk.pstate } }) ∨
       (s.blk.lost = false ∧ s.blk.pstate ≠ .init ∧ s.blk.txph = .sending ∧ s.blk.remain.toNat = 0 ∧
          t = enterRequest s.start)) := by
  simp only [exec, execTxc] at h
  obtain ⟨hl, h⟩ := legal_of_guarded h
  refine ⟨hl, ?_⟩
  by_cases h1 : s.blk.pstate = .init
  · rw [if_pos h1] at h
    exact .inl (Host.Outcome.next.inj h).symm
  rw [if_neg h1] at h
  by_cases h2 : s.blk.lost = true
  · rw [if_pos h2] at h
    exact .inr (.inl ⟨h2, (Host.Outcome.next.inj h).symm⟩)
  rw [if_neg h2] at h
  have h2' : s.blk.lost = false := by simpa using h2
  by_cases h3 : s.blk.txph = .sending
  · rw [if_pos h3] at h
    have h' := (Host.Outcome.next.inj h).symm
    unfold txcSending at h'
    by_cases h4 : 0 < s.start.blk.remain.toNat
    · rw [if_pos h4] at h'
      refine .inr (.inr (.inl ⟨h2', h1, h3, h4, ?_⟩))
      rw [h']
      by_cases hp : s.blk.pstate = .command
      · rw [if_pos (by exact hp), if_pos hp]
      · rw [if_neg (by exact hp), if_neg hp]
        rfl
    · rw [if_neg h4] at h'
      exact .inr (.inr (.inr ⟨h2', h1, h3, Nat.eq_zero_of_not_pos h4, h'⟩))
  · rw [if_neg h3] at h
    exact .inl (Host.Outcome.next.inj h).symm

/-- RXERR: the exchange is discarded. -/
theorem exec_rxerr {s t : State} (h : exec .rxerr s = .next t) :
    s.legal = true ∧
      ((s.blk.pstate = .init ∧ t = ignored s) ∨
       (s.blk.lost = true ∧ t = desync s.start) ∨
       (s.blk.lost = false ∧ s.blk.pstate ≠ .init ∧ t = enterRequest (sinkPush ErrCode.frameError.code s.start))) := by
  simp only [exec, execRxerr] at h
  obtain ⟨hl, h⟩ := legal_of_guarded h
  refine ⟨hl, ?_⟩
  by_cases h1 : s.blk.pstate = .init
  · rw [if_pos h1] at h
    exact .inl ⟨h1, (Host.Outcome.next.inj h).symm⟩
  rw [if_neg h1] at h
  by_cases h2 : s.blk.lost = true
  · rw [if_pos h2] at h
    exact .inr (.inl ⟨h2, (Host.Outcome.next.inj h).symm⟩)
  rw [if_neg h2] at h
  exact .inr (.inr ⟨by simpa using h2, h1, (Host.Outcome.next.inj h).symm⟩)

/-- TMR: the first byte goes out, or nothing happens. -/
theorem exec_tmr {s t : State} (h : exec .tmr s = .next t) :
    s.legal = true ∧
      (t = ignored s ∨
       (s.blk.lost = true ∧ t = desync s.start) ∨
       (s.blk.lost = false ∧ s.blk.pstate ≠ .init ∧ s.blk.txph = .settle ∧ t = tmrFirstByte s.start)) := by
  simp only [exec, execTmr] at h
  obtain ⟨hl, h⟩ := legal_of_guarded h
  refine ⟨hl, ?_⟩
  by_cases h1 : s.blk.pstate = .init
  · rw [if_pos h1] at h
    exact .inl (Host.Outcome.next.inj h).symm
  rw [if_neg h1] at h
  by_cases h2 : s.blk.lost = true
  · rw [if_pos h2] at h
    exact .inr (.inl ⟨h2, (Host.Outcome.next.inj h).symm⟩)
  rw [if_neg h2] at h
  by_cases h3 : s.blk.txph = .settle
  · rw [if_pos h3] at h
    exact .inr (.inr ⟨by simpa using h2, h1, h3, (Host.Outcome.next.inj h).symm⟩)
  · rw [if_neg h3] at h
    exact .inl (Host.Outcome.next.inj h).symm

/-- DESYNC forces REQUEST after INIT. -/
theorem exec_desync {s t : State} (h : exec .desync s = .next t) :
    s.legal = true ∧
      ((s.blk.pstate = .init ∧ t = ignored s) ∨ (s.blk.pstate ≠ .init ∧ t = desync s.start)) := by
  simp only [exec, execDesync] at h
  obtain ⟨hl, h⟩ := legal_of_guarded h
  refine ⟨hl, ?_⟩
  by_cases h1 : s.blk.pstate = .init
  · rw [if_pos h1] at h
    exact .inl ⟨h1, (Host.Outcome.next.inj h).symm⟩
  · rw [if_neg h1] at h
    exact .inr ⟨h1, (Host.Outcome.next.inj h).symm⟩

/-- The internal operations move the line only. -/
theorem exec_dirtx {s t : State} (h : exec .dirtx s = .next t) : t = dirTx s.start := by
  simp only [exec, execDirtx, guardedInternal] at h
  split at h
  · cases h
  split at h
  · cases h
  · exact (Host.Outcome.next.inj h).symm

theorem exec_dirrx {s t : State} (h : exec .dirrx s = .next t) : t = dirRx s.start := by
  simp only [exec, execDirrx, guardedInternal] at h
  split at h
  · cases h
  split at h
  · cases h
  · exact (Host.Outcome.next.inj h).symm

/-- What `frame_complete` makes of a stored frame: discarded with one of two codes, or available. -/
theorem frameComplete_cases {s : State} (hb : rxLen s.cfg s.blk.role ≤ s.blk.frame.length)
    (h4 : 4 ≤ rxLen s.cfg s.blk.role) :
    (crcVerify s.cfg (s.blk.frame.take (rxLen s.cfg s.blk.role)) = false ∧
        frameComplete s = enterRequest (sinkPush ErrCode.invalidCrc.code s)) ∨
    (crcVerify s.cfg (s.blk.frame.take (rxLen s.cfg s.blk.role)) = true ∧ s.blk.frame.byte 0 = 0x80 ∧
        frameComplete s = enterRequest (sinkPush ErrCode.broadcastNoResponse.code s)) ∨
    (crcVerify s.cfg (s.blk.frame.take (rxLen s.cfg s.blk.role)) = true ∧ s.blk.frame.byte 0 ≠ 0x80 ∧
        frameComplete s = { s with blk := { s.blk with afilt := true, pstate := .process } }) := by
  rw [crcVerify_take (by omega) hb]
  by_cases h1 : crc16 s.cfg (s.blk.frame.take (rxLen s.cfg s.blk.role - 2)) =
      crcField s.blk.frame (rxLen s.cfg s.blk.role - 2)
  · by_cases h2 : s.blk.frame.byte 0 = 0x80
    · exact .inr (.inl ⟨by simp [h1], h2, by simp only [frameComplete, h1, ne_eq, not_true, if_false, h2, if_true]⟩)
    · exact .inr (.inr ⟨by simp [h1], h2, by simp only [frameComplete, h1, ne_eq, not_true, if_false, h2]⟩)
  · exact .inl ⟨by simpa using h1, by simp only [frameComplete, h1, ne_eq, not_false_eq_true, if_true]⟩

/-- A reception in MSGBODY is somewhere inside its frame. -/
theorem body_facts {s : State} (hl : s.legal = true) (hp : s.blk.pstate = .msgbody) (hd : s.blk.dir = .rx) :
    s.blk.afilt = false ∧ s.blk.inuse = true ∧ s.blk.txph = .none ∧ 2 ≤ s.blk.cursor.toNat ∧
      s.blk.cursor.toNat ≤ rxLen s.cfg s.blk.role - 1 ∧
      s.blk.cursor.toNat + s.blk.remain.toNat = rxLen s.cfg s.blk.role := by
  obtain ⟨-, -, -, -, ht, -⟩ := legal_iff.mp hl
  have := (onTable_msgbody hp).mp ht
  simp only [hd, reduceCtorEq, false_and, and_false, or_false, true_and] at this
  tauto

end Sys2Proof.Machine
end

