-- ==== Sys2Proof/Laws/Frame.lean ====
section
/-! SUPPORT. Sys2Proof/Laws/Frame.lean: the column `FRAME` of the table of R44: what the executable check says, and that it is
the column itself. -/

namespace Sys2Proof.Machine

theorem zeroFrom_iff {i : Nat} {m : Memory} : m.zeroFrom i = true ↔ ∀ j, i ≤ j → m.byte j = 0 := by
  simp only [Memory.zeroFrom, List.all_eq_true, beq_iff_eq]
  constructor
  · intro h j hj
    by_cases hl : j < m.length
    · have hm : m[j] ∈ m.drop i := by
        rw [List.mem_drop_iff_getElem]
        exact ⟨j - i, by omega, by congr 1; omega⟩
      have := h _ hm
      simpa [Memory.byte, List.getD_eq_getElem?_getD, hl] using this
    · simp [Memory.byte, List.getD_eq_getElem?_getD, hl]
  · intro h v hv
    obtain ⟨k, hk, rfl⟩ := List.mem_drop_iff_getElem.mp hv
    have := h (i + k) (by omega)
    have hl : i + k < m.length := by omega
    simpa [Memory.byte, List.getD_eq_getElem?_getD, hl] using this

@[simp] theorem zeroFrom_zeros (i n : Nat) : (Memory.zeros n).zeroFrom i = true := zeroFrom_iff.mpr (by simp)

/-- A buffer that is zero throughout is the buffer `enter_request` leaves. -/
theorem eq_zeros_iff {n : Nat} {m : Memory} (h : m.length = n) : m = Memory.zeros n ↔ m.zeroFrom 0 = true := by
  refine ⟨fun e => by rw [e]; simp, fun hz => ?_⟩
  rw [zeroFrom_iff] at hz
  apply List.ext_getElem (by simp [h])
  intro i h1 h2
  have := hz i (Nat.zero_le i)
  simpa [Memory.byte, List.getD_eq_getElem?_getD, h1, Memory.zeros] using this

theorem holdsFrame_iff {c : Cfg} {l : Nat} {m : Memory} : m.holdsFrame c l = true ↔ ValidFrame c l m := by
  simp [Memory.holdsFrame, ValidFrame, zeroFrom_iff, and_assoc]

/-- Putting a byte together from its address and its flag (R84). -/
theorem addressByte_split (b : Byte) : addressByte (b.getLsbD 7) ((b.extractLsb' 0 7).setWidth 8) = b := by
  revert b; decide

theorem lo_hi_wordOf (hi lo : Byte) : loByte (wordOf hi lo) = lo ∧ hiByte (wordOf hi lo) = hi := by
  constructor <;> apply BitVec.eq_of_getLsbD_eq <;> intro i h <;>
    simp only [loByte, hiByte, wordOf, BitVec.getLsbD_extractLsb', BitVec.getLsbD_append] <;> simp [h]

/-- The message a buffer's leading n + 4 bytes carry. -/
def msgOf (n : Nat) (f : Memory) : Msg where
  address := ((f.byte 0).extractLsb' 0 7).setWidth 8
  rr := (f.byte 0).getLsbD 7
  command := f.byte 1
  params := (List.range n).map fun i => f.byte (2 + i)

/-- The message of a buffer whose byte 0 is not 0x80 is valid. -/
theorem validate_msgOf {n : Nat} {f : Memory} (h : f.byte 0 ≠ 0x80) : validate (msgOf n f) n = none := by
  rw [validate_none]
  refine ⟨?_, fun hb => h ((broadcast_rr_iff _).mp hb), by simp [msgOf]⟩
  simp only [msgOf, BitVec.toNat_setWidth]
  have := ((f.byte 0).extractLsb' 0 7).isLt
  omega

/-- The bytes a CRC covers are those of the message. -/
theorem frameSpan_msgOf {n : Nat} {f : Memory} (h : n + 2 ≤ f.length) : frameSpan (msgOf n f) n = f.take (n + 2) := by
  apply List.ext_getElem (by simp; omega)
  intro i h1 h2
  have hi : i < n + 2 := by simpa using h1
  have hl : i < f.length := by omega
  match i with
  | 0 =>
    have hb : f.byte 0 = f[0] := by simp [Memory.byte, List.getD_eq_getElem?_getD, hl]
    simp only [frameSpan, msgOf, addressByte_split, hb, List.getElem_cons_zero, List.getElem_take]
  | 1 => simp [frameSpan, msgOf, Memory.byte, List.getD_eq_getElem?_getD, hl]
  | k + 2 =>
    have hk : k < n := by omega
    have : 2 + k = k + 2 := by omega
    simp [frameSpan, msgOf, Memory.byte, List.getD_eq_getElem?_getD, hk, this, hl]

/-- A buffer holds an encoded frame exactly when the frame verifies and is not addressed to 0x80 (R121, R123). -/
theorem encodedFrame_iff {c : Cfg} {n : Nat} {f : Memory} (hf : f.length = c.lMax) (hn : n + 4 ≤ c.lMax) :
    EncodedFrame c n f ↔ ValidFrame c (n + 4) f := by
  constructor
  · rintro ⟨m, hv, rfl⟩
    have ht : (frameImage c m n).take (n + 4) = encodeFrame c m n := by
      rw [frameImage_eq_append hn, List.take_append_of_le_length (by simp)]
      exact List.take_of_length_le (by simp)
    refine ⟨by rw [ht]; exact crcVerify_encodeFrame c m n, ?_, fun i hi => ?_⟩
    · rw [frameImage_byte c m n 0 (by omega), encodeFrame_byte0]
      exact addressByte_ne hv
    · by_cases hl : i < c.lMax
      · rw [frameImage_byte c m n i hl]
        simp [List.getD_eq_getElem?_getD, hi]
      · simp [Memory.byte, List.getD_eq_getElem?_getD, hl]
  · rintro ⟨hc, h0, hz⟩
    refine ⟨msgOf n f, validate_msgOf h0, ?_⟩
    have hs := frameSpan_msgOf (n := n) (f := f) (by omega)
    rw [crcVerify_take (by omega) (by omega)] at hc
    have e2 : n + 4 - 2 = n + 2 := by omega
    rw [e2, beq_iff_eq] at hc
    apply List.ext_getElem (by simp [hf])
    intro i h1 h2
    have hl : i < c.lMax := by omega
    have hb : f[i] = f.byte i := by simp [Memory.byte, List.getD_eq_getElem?_getD, h1]
    have hr : (frameImage c (msgOf n f) n)[i] = (frameImage c (msgOf n f) n).byte i := by
      rw [Memory.byte, List.getD_eq_getElem?_getD, List.getElem?_eq_getElem h2]
      rfl
    rw [hb, hr, frameImage_byte c _ n i hl]
    simp only [encodeFrame, hs, hc, crcField, (lo_hi_wordOf _ _).1, (lo_hi_wordOf _ _).2]
    by_cases hi : i < n + 2
    · have : i < (f.take (n + 2)).length := by simp; omega
      rw [List.getD_eq_getElem?_getD, List.getElem?_append_left this]
      simp [hi, Memory.byte, List.getD_eq_getElem?_getD]
    · have hlen : (f.take (n + 2)).length = n + 2 := by simp; omega
      rw [List.getD_eq_getElem?_getD, List.getElem?_append_right (by omega), hlen]
      by_cases h4 : n + 4 ≤ i
      · rw [hz i h4]
        have : 2 ≤ i - (n + 2) := by omega
        rw [List.getElem?_eq_none (by simpa using this)]
        rfl
      · have : i = n + 2 ∨ i = n + 3 := by omega
        rcases this with rfl | rfl
        · simp [Memory.byte]
        · have : n + 3 - (n + 2) = 1 := by omega
          simp [this, Memory.byte]

/-- Outside UNKNOWN and RESET the executable check is the column `FRAME` of the table. -/
theorem frameOnTable_iff {c : Cfg} {b : Block} (hf : b.frame.length = c.lMax) (hl : b.lost = false) :
    b.frameOnTable c = true ↔ FrameOk c b := by
  have hq : c.nParam + 4 ≤ c.lMax := by simp only [Cfg.lMax, Cfg.lReq]; omega
  have hr : c.nRet + 4 ≤ c.lMax := by simp only [Cfg.lMax, Cfg.lRsp]; omega
  have eq := encodedFrame_iff (n := c.nParam) hf hq
  have er := encodedFrame_iff (n := c.nRet) hf hr
  cases hp : b.pstate with
  | init => simp [Block.frameOnTable, FrameOk, hp]
  | request => simp [Block.frameOnTable, FrameOk, hp, eq_zeros_iff hf]
  | command =>
    by_cases hx : b.txph = .none <;>
      simp [Block.frameOnTable, FrameOk, hp, hx, zeroFrom_iff, holdsFrame_iff, eq, Cfg.lReq]
  | msgbody =>
    by_cases hx : b.txph = .none <;>
      simp [Block.frameOnTable, FrameOk, hp, hx, zeroFrom_iff, holdsFrame_iff, eq, Cfg.lReq]
  | process => simp [Block.frameOnTable, FrameOk, hp, holdsFrame_iff]
  | response =>
    by_cases hx : b.txph = .none <;>
      simp [Block.frameOnTable, FrameOk, hp, hx, holdsFrame_iff, er, Cfg.lRsp]
  | unknown => simp [Block.lost, hp] at hl
  | reset => simp [Block.lost, hp] at hl

/-- A state with these properties meets the table of R44. -/
theorem inv_of {t : State} (hc : t.cfg.inRange = true) (hx : t.blk.txph ≠ .value3)
    (hf : t.blk.frame.length = t.cfg.lMax) (hs : t.blk.sp.toNat ≤ 8) (ht : t.blk.onTable t.cfg = true)
    (hk : FrameOk t.cfg t.blk) : Inv t := by
  have hl : t.blk.lost = false := by
    cases hp : t.blk.pstate <;> simp [Block.lost, hp]
    all_goals simp [FrameOk, hp] at hk
  exact ⟨legal_iff.mpr ⟨hc, hx, hf, fun _ => hs, ht, (frameOnTable_iff hf hl).mpr hk⟩, hk⟩

/-- A legal launch state other than UNKNOWN and RESET is a state of the table (R44, U6). -/
theorem inv_of_legal {s : State} (hl : s.legal = true) (hn : s.blk.lost = false) : Inv s := by
  obtain ⟨-, -, hf, -, -, hk⟩ := legal_iff.mp hl
  exact ⟨hl, (frameOnTable_iff hf hn).mp hk⟩

/-- The buffer of an idle node is zero. -/
theorem frame_of_request {s : State} (hl : s.legal = true) (hp : s.blk.pstate = .request) :
    s.blk.frame = Memory.zeros s.cfg.lMax := by
  have := (inv_of_legal hl (by simp [Block.lost, hp])).2
  simpa [FrameOk, hp] using this

end Sys2Proof.Machine
end

