-- ==== Sys2Proof/Laws/Inv.lean ====
section
/-! SUPPORT. Sys2Proof/Laws/Inv.lean: how the updates the rules share meet the table of R44, and what operation a step runs. -/

namespace Sys2Proof.Machine

/-- The block of REQUEST is a row of the table. -/
theorem onTable_inRequest (c : Cfg) (b : Block) : (b.inRequest c).onTable c = true := by
  rw [onTable_request rfl]
  simp

/-- A state whose block came out of `enter_request` meets the table. -/
theorem inv_inRequest {t : State} {b : Block} (hc : t.cfg.inRange = true) (hs : b.sp.toNat ≤ 8)
    (hb : t.blk = b.inRequest t.cfg) : Inv t := by
  refine inv_of hc (by simp [hb]) (by simp [hb]) (by simp [hb, hs]) (by rw [hb]; exact onTable_inRequest _ _) ?_
  simp [FrameOk, hb]

theorem inv_enterRequest {u : State} (hc : u.cfg.inRange = true) (hs : u.blk.sp.toNat ≤ 8) : Inv (enterRequest u) :=
  inv_inRequest (by simpa) hs (by simp)

/-- The column of the buffer says nothing about the sink. -/
@[simp] theorem frameOk_push (k : Byte) (c : Cfg) (b : Block) : FrameOk c (b.push k) ↔ FrameOk c b := by
  simp [FrameOk]

/-- UNKNOWN and RESET are no states of the table (R28). -/
theorem lost_of_inv {s : State} (h : Inv s) : s.blk.lost = false := by
  obtain ⟨-, hf⟩ := h
  cases hp : s.blk.pstate <;> simp [Block.lost, hp]
  all_goals simp [FrameOk, hp] at hf

/-- A push keeps the table. -/
theorem inv_push {s t : State} (h : Inv s) (hc : t.cfg = s.cfg) (k : Byte) (hb : t.blk = s.blk.push k) : Inv t := by
  have hn := lost_of_inv h
  obtain ⟨hl, hf⟩ := h
  obtain ⟨h1, h2, h3, h4, h5, -⟩ := legal_iff.mp hl
  refine inv_of (by rwa [hc]) (by simpa [hb]) (by simpa [hb, hc]) (by rw [hb]; exact push_sp_le (h4 hn))
    (by simpa [hb, hc]) ?_
  rw [hb, hc, frameOk_push]
  exact hf

/-- The table looks at the configuration and the block only. -/
theorem inv_congr {s t : State} (h : Inv s) (hc : t.cfg = s.cfg) (hb : t.blk = s.blk) : Inv t := by
  obtain ⟨hl, hf⟩ := h
  exact ⟨by rw [legal_congr hc hb]; exact hl, by rw [hc, hb]; exact hf⟩

/-- A step runs one operation that is no internal one, at the same configuration and block. -/
theorem exec_of_step {s t : State} (h : step s = .next t) :
    ∃ i s', i.internal = false ∧ s'.cfg = s.cfg ∧ s'.blk = s.blk ∧ exec i s' = .next t := by
  unfold step at h
  split at h
  · cases h
  · rename_i i s' hp
    unfold present at hp
    split at hp
    · cases hp
    · split at hp
      · rename_i j rest hd
        cases hp
        obtain ⟨-, hi⟩ := decodeStimulus_eq_some.mp hd
        refine ⟨_, _, hi, ?_, ?_, h⟩ <;> rfl
      · cases hp

end Sys2Proof.Machine
end

