-- ==== Sys2Proof/Laws/PerInstr.lean ====
section
/-! SUPPORT. Sys2Proof/Laws/PerInstr.lean: statements made per instruction, one lemma a constructor. Family RoundTrip: the
decoder reads a well-formed instruction back from its encoding and leaves what follows (30_encoding.md R88 to R90). -/

namespace Sys2Proof.Laws.RoundTrip

/-- Decoding the encoding of i gives i, whatever follows. -/
def Statement (i : Instr) : Prop :=
  i.wf = true → ∀ rest : List Byte, decodeBytes (encode i ++ rest) = some (i, rest)

theorem init (role : Role) (addr : Byte) : Statement (.init role addr) := fun _ rest => by
  cases role <;> simp [encode, decodeBytes_encodePlain, decodeRow, formatFB, roleOfBit, bitOfRole]

theorem avail : Statement .avail := fun _ rest => by
  simp [encode, decodeBytes_encodePlain, decodeRow, formatZ]

theorem consume : Statement .consume := fun _ rest => by
  simp [encode, decodeBytes_encodePlain, decodeRow, formatZ]

theorem isresp (msg : Msg) : Statement (.isresp msg) := fun h rest => by
  simp only [encode, List.append_assoc, decodeBytes_encodePlain]
  exact formatM_encodeMsg _ h rest

theorem respond (msg : Msg) : Statement (.respond msg) := fun h rest => by
  simp only [encode, List.append_assoc, decodeBytes_encodePlain]
  exact formatM_encodeMsg _ h rest

theorem send (msg : Msg) : Statement (.send msg) := fun h rest => by
  simp only [encode, List.append_assoc, decodeBytes_encodePlain]
  exact formatM_encodeMsg _ h rest

theorem errpush (code : Byte) : Statement (.errpush code) := fun _ rest => by
  simp [encode, decodeBytes_encodePlain, decodeRow, formatB]

theorem errpop : Statement .errpop := fun _ rest => by
  simp [encode, decodeBytes_encodePlain, decodeRow, formatZ]

theorem errpeek : Statement .errpeek := fun _ rest => by
  simp [encode, decodeBytes_encodePlain, decodeRow, formatZ]

theorem errovf : Statement .errovf := fun _ rest => by
  simp [encode, decodeBytes_encodePlain, decodeRow, formatZ]

theorem rxb (mark : Bool) (data : Byte) : Statement (.rxb mark data) := fun _ rest => by
  simp [encode, decodeBytes_encodePlain, decodeRow, formatFB]

theorem txc : Statement .txc := fun _ rest => by
  simp [encode, decodeBytes_encodePlain, decodeRow, formatZ]

theorem rxerr : Statement .rxerr := fun _ rest => by
  simp [encode, decodeBytes_encodePlain, decodeRow, formatZ]

theorem tmr : Statement .tmr := fun _ rest => by
  simp [encode, decodeBytes_encodePlain, decodeRow, formatZ]

theorem desync : Statement .desync := fun _ rest => by
  simp [encode, decodeBytes_encodePlain, decodeRow, formatZ]

theorem crc16 (bytes : List Byte) : Statement (.crc16 bytes) := fun h rest => by
  simp only [encode, encodeBL, List.append_assoc, decodeBytes_encodePlain]
  exact formatBL_append _ h rest

theorem crcvfy (bytes : List Byte) : Statement (.crcvfy bytes) := fun h rest => by
  simp only [encode, encodeBL, List.append_assoc, decodeBytes_encodePlain]
  exact formatBL_append _ h rest

theorem encode (n : Byte) (msg : Msg) : Statement (.encode n msg) := fun h rest => by
  simp only [Sys2Proof.encode, List.append_assoc, decodeBytes_encodePlain]
  exact formatBM_encodeMsg _ _ h rest

theorem decode (bytes : List Byte) : Statement (.decode bytes) := fun h rest => by
  simp only [Sys2Proof.encode, encodeBL, List.append_assoc, decodeBytes_encodePlain]
  exact formatBL_append _ h rest

theorem dirtx : Statement .dirtx := fun _ rest => by
  simp [Sys2Proof.encode, decodeBytes_encodePlain, decodeRow, formatZ]

theorem dirrx : Statement .dirrx := fun _ rest => by
  simp [Sys2Proof.encode, decodeBytes_encodePlain, decodeRow, formatZ]

end Sys2Proof.Laws.RoundTrip
end

