-- ==== Sys2Proof/Tests/Slice0.lean ====
section
/-! SUPPORT. Sys2Proof/Tests/Slice0.lean: the model's own tests, expected values from spec/95_test_vectors.md, and for every
obligation with hypotheses a witness that meets them. -/

namespace Sys2Proof.Tests

open Sys2Proof Sys2Proof.Machine

/- One theorem at a time: many kernel evaluations at once exhaust the memory for threads. -/
set_option Elab.async false

/-! ### Small states -/

/-- A block with nothing in it, slave 5, before INIT. -/
def base : Block where
  role := .slave
  laddr := 5
  pstate := .init
  frame := List.replicate 12 0
  cursor := 0
  remain := 0
  inuse := false
  dir := .rx
  txph := .none
  afilt := false
  stk := #v[0, 0, 0, 0, 0, 0, 0, 0]
  sp := 0
  ovf := false

/-- The machine around a block, with the default configuration and these bytes to come. -/
def mach (b : Block) (input : List Byte := []) : State where
  cfg := Cfg.standard
  blk := b
  input := input
  result := .nothing
  actions := []

/-- The request of example E4 and the response of program P1 (spec/95_test_vectors.md). -/
def reqFrame : Memory := [0x85, 0x10, 0xAA, 0xBB, 0, 0, 0, 0, 0, 0, 0x2B, 0x33]
def rspFrame : Memory := [0x05, 0x90, 0x11, 0x22, 0, 0, 0, 0, 0, 0, 0x0E, 0xD3]

/-- The messages they encode. -/
def reqMsg : Msg := { address := 5, rr := true, command := 0x10, params := [0xAA, 0xBB] }
def rspMsg : Msg := { address := 5, rr := false, command := 0x90, params := [0x11, 0x22] }

def slaveIdle : Block := { base with pstate := .request, afilt := true }
def masterIdle : Block := { base with role := .master, pstate := .request }
def slaveCommand : Block :=
  { base with pstate := .command, frame := 0x85 :: List.replicate 11 0, cursor := 1, remain := 11, inuse := true }
def slaveBody : Block :=
  { base with pstate := .msgbody, frame := 0x85 :: 0x10 :: List.replicate 10 0, cursor := 2, remain := 10, inuse := true }
def slaveLast : Block :=
  { base with pstate := .msgbody, frame := reqFrame.set 11 0, cursor := 11, remain := 1, inuse := true }
def bcastLast : Block :=
  { slaveLast with frame := [0x80, 0x01, 0, 0, 0, 0, 0, 0, 0, 0, 0x7A, 0] }
def slaveProcess : Block :=
  { base with pstate := .process, frame := reqFrame, cursor := 12, inuse := true, afilt := true }
def quietProcess : Block := { slaveProcess with frame := rspFrame }
def masterProcess : Block := { slaveProcess with role := .master }
def slaveResponse : Block := { slaveProcess with pstate := .response }
def slaveSettle : Block :=
  { slaveResponse with frame := rspFrame, cursor := 0, remain := 12, dir := .tx, txph := .settle }
def slaveEnd : Block := { slaveSettle with cursor := 12, remain := 0, txph := .sending }
def slaveLate : Block := { slaveSettle with cursor := 9, remain := 3, txph := .sending }
def masterSettle : Block :=
  { masterIdle with pstate := .command, frame := reqFrame, remain := 12, inuse := true, dir := .tx, txph := .settle }
def masterSending : Block := { masterSettle with cursor := 1, remain := 11, txph := .sending }
def bcastFrame : Memory := [0x00, 0x10, 0xAA, 0xBB, 0, 0, 0, 0, 0, 0, 0x3C, 0xCB]
def deepLost : Block := { base with pstate := .unknown, sp := 12 }
def lostBlock : Block := { base with pstate := .unknown }
def resetBlock : Block := { base with pstate := .reset }
def twoHeld : Block := { base with stk := #v[8, 7, 0, 0, 0, 0, 0, 0], sp := 2 }
def fullSink : Block := { base with stk := #v[1, 2, 3, 4, 5, 6, 7, 8], sp := 8 }

/-- The next state, if there is one. -/
def out : StepResult → Option State
  | .next t => some t
  | _ => none

/-- An operation that answers a next state with a decidable property. -/
theorem next_such {r : StepResult} {P : State → Prop} [DecidablePred P] (h : (out r).any (fun t => decide (P t)) = true) :
    ∃ t, r = .next t ∧ P t := by
  cases r with
  | next u => exact ⟨u, rfl, by simpa [out] using h⟩
  | fault f => cases f
  | refused f => cases h

theorem next_any {r : StepResult} (h : (out r).isSome = true) : ∃ t, r = .next t := by
  cases r with
  | next u => exact ⟨u, rfl⟩
  | fault f => cases f
  | refused f => cases h

/-- The block, result or actions after an operation. -/
def blkAfter (i : Instr) (b : Block) : Option Block := (out (exec i (mach b))).map State.blk
def resAfter (i : Instr) (b : Block) : Option Result := (out (exec i (mach b))).map State.result
def actAfter (i : Instr) (b : Block) : Option (List Action) := (out (exec i (mach b))).map State.actions

/-! ### WellFormed: every check refuses an ill-formed term -/

def longMsg : Msg := { address := 1, rr := false, command := 0, params := List.replicate 256 0 }
def longList : List Byte := List.replicate 256 0

theorem test_wf_isresp : (Instr.isresp longMsg).wf = false := by decide +kernel
theorem test_wf_respond : (Instr.respond longMsg).wf = false := by decide +kernel
theorem test_wf_send : (Instr.send longMsg).wf = false := by decide +kernel
theorem test_wf_encode : (Instr.encode 8 longMsg).wf = false := by decide +kernel
theorem test_wf_crc16 : (Instr.crc16 longList).wf = false := by decide +kernel
theorem test_wf_crcvfy : (Instr.crcvfy longList).wf = false := by decide +kernel
theorem test_wf_decode : (Instr.decode longList).wf = false := by decide +kernel
theorem test_wf_internal : Instr.dirtx.internal = true ∧ Instr.dirrx.internal = true ∧ Instr.tmr.internal = false := by
  decide

/-! ### Decode: every row of the table by a word written out from its encoding (30_encoding.md R88 to R90, V-DEC) -/

theorem test_dec_init : decodeStimulus [0b00000000, 0x05] = some (.init .slave 5, []) := by decide
theorem test_dec_init_master : decodeStimulus [0b00000001, 0x7F] = some (.init .master 127, []) := by decide
theorem test_dec_avail : decodeStimulus [0b00001000, 0] = some (.avail, []) := by decide
theorem test_dec_consume : decodeStimulus [0b00010000, 0] = some (.consume, []) := by decide
theorem test_dec_isresp : decodeStimulus [0b00011000, 0, 5, 1, 0x10, 0] =
    some (.isresp { address := 5, rr := true, command := 0x10, params := [] }, []) := by decide
theorem test_dec_respond : decodeStimulus [0b00100000, 0, 5, 0, 0x90, 2, 0x11, 0x22] = some (.respond rspMsg, []) := by
  decide
theorem test_dec_send : decodeStimulus [0b00101000, 0, 5, 1, 0x10, 2, 0xAA, 0xBB] = some (.send reqMsg, []) := by decide
theorem test_dec_errpush : decodeStimulus [0b00110000, 0x0A] = some (.errpush 10, []) := by decide
theorem test_dec_errpop : decodeStimulus [0b00111000, 0] = some (.errpop, []) := by decide
theorem test_dec_errpeek : decodeStimulus [0b01000000, 0] = some (.errpeek, []) := by decide
theorem test_dec_errovf : decodeStimulus [0b01001000, 0] = some (.errovf, []) := by decide
theorem test_dec_rxb : decodeStimulus [0b10000001, 0x85] = some (.rxb true 0x85, []) := by decide
theorem test_dec_rxb_unmarked : decodeStimulus [0b10000000, 0x10] = some (.rxb false 0x10, []) := by decide
theorem test_dec_txc : decodeStimulus [0b10001000, 0] = some (.txc, []) := by decide
theorem test_dec_rxerr : decodeStimulus [0b10010000, 0] = some (.rxerr, []) := by decide
theorem test_dec_tmr : decodeStimulus [0b10011000, 0] = some (.tmr, []) := by decide
theorem test_dec_desync : decodeStimulus [0b10100000, 0] = some (.desync, []) := by decide
theorem test_dec_crc16 : decodeStimulus [0b11000000, 2, 0x01, 0x42] = some (.crc16 [0x01, 0x42], []) := by decide
theorem test_dec_crcvfy : decodeStimulus [0b11001000, 4, 0x01, 0x42, 0x80, 0x11] =
    some (.crcvfy [0x01, 0x42, 0x80, 0x11], []) := by decide
theorem test_dec_encode : decodeStimulus [0b11010000, 8, 5, 1, 0x10, 2, 0xAA, 0xBB] = some (.encode 8 reqMsg, []) := by
  decide
theorem test_dec_decode : decodeStimulus [0b11011000, 4, 0x01, 0x42, 0x80, 0x11] =
    some (.decode [0x01, 0x42, 0x80, 0x11], []) := by decide
theorem test_dec_dirtx : decodeBytes [0b11100000, 0] = some (.dirtx, []) := by decide
theorem test_dec_dirrx : decodeBytes [0b11101000, 0] = some (.dirrx, []) := by decide

/-- V-DEC-12 to V-DEC-17: bits 10:9, required zeros, reserved selectors, internal operations, bad operands. -/
theorem test_dec_invalid :
    ([[0x02, 0x05], [0x04, 0x05], [0x83, 0x85], [0x08, 0x01], [0x09, 0x00], [0x88, 0x01], [0x31, 0x07], [0x50, 0x00],
      [0x78, 0x00], [0xA8, 0x00], [0xB8, 0x00], [0xF0, 0x00], [0xF8, 0x00], [0xE0, 0x00], [0xE8, 0x00],
      [0x28, 0x00, 0x05, 0x02, 0x10, 0x00], [0x28, 0x00, 0x05, 0x01, 0x10, 0x02, 0xAA]] : List (List Byte)).all
      (fun bs => (decodeStimulus bs).isNone) = true := by decide

/-- Bits of the table: bit 0 is the low bit of the word, operand bytes above bit 15, zeros above nbits. -/
theorem test_table_word :
    decodeTableWord 16 0x0005 = some (.init .slave 5) ∧ decodeTableWord 16 0x300A = some (.errpush 10) ∧
    decodeTableWord 16 0xC802 = some (.crcvfy [0, 0]) ∧
    decodeTableWord 48 0x001001052800 = some (.send { address := 5, rr := true, command := 0x10, params := [] }) ∧
    decodeTableWord 16 0xE000 = some .dirtx := by decide +kernel

/-- The very next step runs the presented instruction, from reset. -/
theorem test_withFetchWord :
    (out (step (State.reset.withFetchWord 16 0x0005))).map (fun t => (t.blk.pstate, t.blk.role, t.blk.laddr)) =
      some (.request, .slave, 5) := rfl

/-! ### One step each -/

theorem test_init_low7 : (blkAfter (.init .master 200) base).map Block.laddr = some 0x48 := by decide
theorem test_init_twice : exec (.init .slave 5) (mach slaveIdle) = .refused .initOutsideInit := by rfl
theorem test_avail : resAfter .avail slaveProcess = some (.bit true) ∧ resAfter .avail slaveResponse = some (.bit false) := by
  decide +kernel
theorem test_consume_owes : blkAfter .consume slaveProcess = some slaveResponse ∧
    resAfter .consume slaveProcess = some (.message 0 (some { address := 5, rr := true, command := 0x10, params := [0xAA, 0xBB, 0, 0, 0, 0, 0, 0], crc16 := 0x332B })) := by
  decide +kernel
theorem test_consume_master : (blkAfter .consume masterProcess).map Block.pstate = some .request := by decide +kernel
theorem test_isresp_broadcast : resAfter (.isresp { address := 0, rr := true, command := 0, params := [] }) base =
    some (.bit true) := by decide
theorem test_respond : blkAfter (.respond rspMsg) slaveResponse = some slaveSettle ∧
    actAfter (.respond rspMsg) slaveResponse = some [.timerStart 5] := by decide +kernel
theorem test_respond_settling : resAfter (.respond rspMsg) slaveSettle = some (.status 2) := by decide +kernel
theorem test_send : blkAfter (.send reqMsg) masterIdle = some masterSettle ∧
    actAfter (.send reqMsg) masterIdle = some [.timerStart 5] := by decide +kernel
theorem test_send_order : resAfter (.send { reqMsg with address := 200 }) slaveIdle = some (.status 1) ∧
    resAfter (.send { reqMsg with address := 200 }) masterIdle = some (.status 4) := by decide +kernel
theorem test_errpush : (blkAfter (.errpush 9) fullSink).map (fun b => (b.sp, b.ovf)) = some (8, true) := by decide
theorem test_errpop : resAfter .errpop twoHeld = some (.code 7) ∧ (blkAfter .errpop twoHeld).map Block.sp = some 1 := by
  decide
theorem test_errpeek : resAfter .errpeek twoHeld = some (.code 7) ∧ resAfter .errpeek base = some (.code 0) := by decide
theorem test_errovf : resAfter .errovf { fullSink with ovf := true } = some (.bit true) := by decide
theorem test_rxb_last : blkAfter (.rxb false 0x33) slaveLast = some slaveProcess := by decide +kernel
theorem test_rxb_bad_crc : (blkAfter (.rxb false 0x32) slaveLast).map (fun b => (b.pstate, b.held, b.frame)) =
    some (.request, [8], List.replicate 12 0) := by decide +kernel
theorem test_txc : actAfter .txc masterSending = some [.uartTx false 0x10] ∧
    (blkAfter .txc masterSending).map (fun b => (b.pstate, b.cursor)) = some (.msgbody, 2) := by decide +kernel
theorem test_txc_end : (blkAfter .txc slaveEnd).map (fun b => (b.pstate, b.dir, b.txph)) = some (.request, .rx, .none) := by
  decide +kernel
theorem test_rxerr_settling : actAfter .rxerr masterSettle = some [.timerCancel] ∧
    (blkAfter .rxerr masterSettle).map (fun b => (b.pstate, b.held)) = some (.request, [7]) := by decide +kernel
theorem test_tmr : actAfter .tmr masterSettle = some [.uartTx true 0x85] ∧
    actAfter .tmr slaveSettle = some [.uartTx false 0x05] := by decide +kernel
theorem test_desync : (blkAfter .desync slaveProcess).map (fun b => (b.pstate, b.held)) = some (.request, [10]) := by decide +kernel
theorem test_crc16 : resAfter (.crc16 [0x31, 0x32, 0x33, 0x34, 0x35, 0x36, 0x37, 0x38, 0x39]) base =
    some (.word 0x4B37) := by decide +kernel
theorem test_crcvfy : resAfter (.crcvfy reqFrame) base = some (.bit true) ∧
    resAfter (.crcvfy (reqFrame.take 10 ++ [0x33, 0x2B])) base = some (.bit false) := by decide +kernel
theorem test_encode : resAfter (.encode 2 { address := 3, rr := true, command := 7, params := [0x55] }) base =
    some (.encoded 0 [0x83, 0x07, 0x55, 0x00, 0xA7, 0x31]) := by decide +kernel
theorem test_decode : resAfter (.decode [0x80, 0x01, 0, 0, 0x7A, 0x7F]) base =
    some (.message 5 (some { address := 0, rr := true, command := 1, params := [0, 0], crc16 := 0x7F7A })) := by
  decide +kernel
theorem test_dirtx : actAfter .dirtx base = some [.timerStart 5] := by decide
theorem test_dirrx : actAfter .dirrx masterSettle = some [.timerCancel] := by decide

/-! ### Witnesses: for every obligation with hypotheses, a state and operands that meet them, clause by clause -/

theorem witness_StepRunsThePresentedOperation :
    decodeStimulus (mach slaveIdle [0x81, 0x85, 0x98]).input = some (.rxb true 0x85, [0x98]) := by decide

theorem witness_DecodeOfEncodeIsTheInstruction :
    (Instr.send { reqMsg with params := List.replicate 255 0 }).wf = true ∧
    (Instr.crc16 (List.replicate 255 0)).wf = true ∧ (Instr.crc16 []).wf = true := by decide +kernel

theorem witness_EncodeOfDecodeIsTheBytes :
    decodeBytes [0xC0, 0x01, 0x42, 0x98] = some (.crc16 [0x42], [0x98]) ∧
    decodeBytes [0x28, 0x00, 5, 1, 0x10, 0] = some (.send { reqMsg with params := [] }, []) := by decide

theorem witness_ReservedStimuliAreRefused :
    (opselOf 0x5000).toNat ∈ [10, 11, 12, 13, 14, 15, 21, 22, 23, 30, 31] ∧
    (opselOf 0xF800).toNat ∈ [10, 11, 12, 13, 14, 15, 21, 22, 23, 30, 31] ∧
    zeroOf 0x0205 ≠ 0 ∧
    ((opselOf 0x0900).toNat ∈ [1, 2, 3, 4, 5, 7, 8, 9, 17, 18, 19, 20] ∧ fOf 0x0900 = true) ∧
    ((opselOf 0xA001).toNat ∈ [1, 2, 3, 4, 5, 7, 8, 9, 17, 18, 19, 20] ∧ loByte 0xA001 ≠ 0) ∧
    ((opselOf 0x3107).toNat ∈ [6, 24, 25, 26, 27] ∧ fOf 0x3107 = true) ∧
    (opselOf 0x2800).toNat ∈ [3, 4, 5, 26] ∧ ([5, 1, 0x10] : List Byte).length < 4 ∧
    (([5, 2, 0x10, 0] : List Byte).getD 1 0).extractLsb' 1 7 ≠ 0 ∧
    ([5, 1, 0x10, 2, 0xAA] : List Byte).length < 4 + (([5, 1, 0x10, 2, 0xAA] : List Byte).getD 3 0).toNat ∧
    (opselOf 0xC001).toNat ∈ [24, 25, 27] ∧ ([] : List Byte).length < (loByte 0xC001).toNat ∧
    (opselOf 0xE000).toNat = 28 ∧ (opselOf 0xE800).toNat = 29 ∧
    (mach base (wordBytes 0xE000 ++ [])).input = wordBytes 0xE000 ++ [] := by decide

theorem witness_CrcQueriesAnswerTheFunction :
    (mach base).legal = true ∧ reqFrame.length ≤ 255 ∧ ([0x42] : List Byte).length < 2 ∧
    ([0xFF, 0xFF] : List Byte) = [] ++ [0xFF, 0xFF] ∧ reqFrame = reqFrame.take 10 ++ [0x2B, 0x33] := by decide

theorem witness_DefaultCrcDetectsEverySingleBitFlip :
    Cfg.standard.crcFn = .modbus ∧ 11 < reqFrame.length ∧ 7 < 8 := by decide

theorem witness_EncodeQueryAnswersStatusAndFrame :
    (mach base).legal = true ∧ reqMsg.params.length ≤ 255 ∧ 251 < (252 : Byte).toNat ∧ (251 : Byte).toNat ≤ 251 ∧
    validate reqMsg 1 = some .invalidParamSize ∧ validate reqMsg 251 = none := by decide

theorem witness_DecodeQueryReturnsTheFields :
    (mach base).legal = true ∧ ([0x01, 0x42, 0x80] : List Byte).length < 4 ∧
    ([0x01, 0x42, 0x80, 0x11] : List Byte) = 0x01 :: 0x42 :: [] ++ [0x80, 0x11] := by decide

theorem witness_DecodeInvertsEncodeOfAValidMessage :
    validate reqMsg 2 = none ∧ ({ reqMsg with address := 0 } : Msg).address = 0 ∧
    ({ reqMsg with address := 0 } : Msg).rr = true := by decide

theorem witness_DirectionOperationsSwitchTheLine :
    (mach base).legal = true ∧ (mach masterSettle).legal = true ∧
    (mach base [0xE0, 0x00]).input = wordBytes 0xE000 ++ [] ∧ (mach base [0xE8, 0x00]).input = wordBytes 0xE800 ++ [] := by decide +kernel

theorem witness_TimerHandsOverTheFirstByte :
    (mach masterSettle).legal = true ∧ masterSettle.txph = .settle ∧ masterSettle.pstate ≠ .unknown ∧
    masterSettle.pstate ≠ .reset ∧ (mach slaveSettle).legal = true ∧ slaveSettle.txph = .settle := by decide +kernel

theorem witness_StrayTimerAndSentEventsAreIgnored :
    (mach masterSending).legal = true ∧ masterSending.txph ≠ .settle ∧
    masterSending.pstate ∈ [PState.request, .command, .msgbody, .process, .response] ∧
    (mach masterSettle).legal = true ∧ masterSettle.txph ≠ .sending ∧
    masterSettle.pstate ∈ [PState.request, .command, .msgbody, .process, .response] := by decide +kernel

theorem witness_TimerIsArmedExactlyWhileSettling :
    (∃ t, exec (.send reqMsg) (mach masterIdle) = .next t ∧ t.blk.txph = .settle) ∧
    (∃ t, exec .rxerr (mach masterSettle) = .next t ∧ t.blk.txph = .none) ∧
    (∃ t, exec .tmr (mach masterSettle) = .next t ∧ t.blk.txph = .sending) ∧
    (Instr.send reqMsg).internal = false ∧ Instr.rxerr.internal = false ∧ Instr.tmr.internal = false :=
  ⟨next_such (by decide +kernel), next_such (by decide +kernel), next_such (by decide +kernel), rfl, rfl, rfl⟩

theorem witness_CharactersLeaveOnlyAfterTheTimer :
    (∃ t, exec .tmr (mach masterSettle) = .next t ∧ Action.uartTx true 0x85 ∈ t.actions) ∧
    (∃ t, exec .txc (mach slaveLate) = .next t ∧ Action.uartTx false 0x00 ∈ t.actions) :=
  ⟨next_such (by decide +kernel), next_such (by decide +kernel)⟩

theorem witness_LineTurnsToTransmitOnlyInSendAndRespond :
    masterIdle.dir = .rx ∧ (∃ t, exec (.send reqMsg) (mach masterIdle) = .next t ∧ t.blk.dir = .tx) ∧
    slaveResponse.dir = .rx ∧ (∃ t, exec (.respond rspMsg) (mach slaveResponse) = .next t ∧ t.blk.dir = .tx) :=
  ⟨rfl, next_such (by decide +kernel), rfl, next_such (by decide +kernel)⟩

theorem witness_InitEntersRequestOnceOrIsRefused :
    (mach base).legal = true ∧ base.pstate = .init ∧ (1 ≤ (127 : Byte).toNat ∧ (127 : Byte).toNat ≤ 127) ∧
    (mach slaveIdle).legal = true ∧ slaveIdle.pstate ≠ .init ∧ 127 < (128 : Byte).toNat := by decide

theorem witness_AvailAnswersWhetherAFrameWaits : (mach slaveProcess).legal = true := by decide +kernel

theorem witness_ConsumeReturnsTheFrameOrReportsNone :
    (mach slaveIdle).legal = true ∧ slaveIdle.pstate ≠ .process ∧ (mach slaveProcess).legal = true ∧
    slaveProcess.pstate = .process ∧ (mach masterProcess).legal = true ∧ (mach quietProcess).legal = true := by decide +kernel

theorem witness_IsrespAnswersTheOperandsFlag : (mach base).legal = true ∧ reqMsg.params.length ≤ 255 := by decide

theorem witness_RespondLoadsTheResponseOrReports :
    (mach slaveResponse).legal = true ∧ rspMsg.params.length ≤ 255 ∧ slaveResponse.pstate = .response ∧
    slaveResponse.txph = .none ∧ validate rspMsg 8 = none ∧
    validate { rspMsg with params := List.replicate 9 0 } 8 = some .invalidParamSize ∧
    (mach slaveSettle).legal = true ∧ ¬(slaveSettle.pstate = .response ∧ slaveSettle.txph = .none) := by decide +kernel

theorem witness_SendLoadsTheRequestOrReports :
    (mach masterIdle).legal = true ∧ masterIdle.pstate = .request ∧ masterIdle.role = .master ∧
    validate reqMsg 8 = none ∧ validate { reqMsg with address := 128 } 8 = some .addressInvalid ∧
    (mach slaveIdle).legal = true ∧ ¬(slaveIdle.pstate = .request ∧ slaveIdle.role = .master) := by decide

theorem witness_CharactersForOthersAreIgnored :
    (mach slaveSettle).legal = true ∧ slaveSettle.dir = .tx ∧
    slaveSettle.pstate ∈ [PState.request, .command, .msgbody, .process, .response] ∧
    (mach slaveIdle).legal = true ∧ slaveIdle.afilt = true ∧ slaveIdle.role = .slave ∧
    slaveIdle.pstate ∈ [PState.request, .process, .response] ∧
    (0x86 : Byte).extractLsb' 0 7 ≠ slaveIdle.laddr ∧ (0x86 : Byte).extractLsb' 0 7 ≠ 0 := by decide +kernel

theorem witness_AddressByteStartsAFrame :
    (mach slaveIdle).legal = true ∧ slaveIdle.pstate = .request ∧ (0x85 : Byte).extractLsb' 0 7 = slaveIdle.laddr ∧
    (0x80 : Byte).extractLsb' 0 7 = 0 ∧ slaveIdle.role = .slave ∧ (0x86 : Byte).extractLsb' 0 7 ≠ slaveIdle.laddr ∧
    (0x86 : Byte).extractLsb' 0 7 ≠ 0 ∧ (mach masterIdle).legal = true ∧ masterIdle.pstate = .request := by decide

theorem witness_CommandByteIsStored :
    (mach slaveCommand).legal = true ∧ slaveCommand.pstate = .command ∧ slaveCommand.dir = .rx := by decide

theorem witness_MarkedCharacterInsideAFrameResynchronizes :
    (mach slaveCommand).legal = true ∧ slaveCommand.pstate = .command ∧ slaveCommand.dir = .rx ∧
    (mach slaveBody).legal = true ∧ slaveBody.pstate = .msgbody ∧ slaveBody.dir = .rx := by decide

theorem witness_BodyByteIsStoredAtTheCursor :
    (mach slaveBody).legal = true ∧ slaveBody.pstate = .msgbody ∧ slaveBody.dir = .rx ∧ slaveBody.remain ≠ 1 := by decide

theorem witness_LastByteClassifiesTheFrame :
    (mach slaveLast).legal = true ∧ slaveLast.pstate = .msgbody ∧ slaveLast.dir = .rx ∧ slaveLast.remain = 1 ∧
    slaveLast.frame.set slaveLast.cursor.toNat 0x33 = reqFrame ∧ rxLen Cfg.standard slaveLast.role = 12 ∧
    crc16 Cfg.standard (reqFrame.take 10) = reqFrame.byte 11 ++ reqFrame.byte 10 ∧ reqFrame.byte 0 ≠ 0x80 ∧
    crc16 Cfg.standard (reqFrame.take 10) ≠ (0x32 : Byte) ++ (0x2B : Byte) ∧
    (mach bcastLast).legal = true ∧ bcastLast.remain = 1 ∧ bcastLast.frame.byte 0 = 0x80 ∧
    crc16 Cfg.standard (bcastLast.frame.take 10) = (0x7F : Byte) ++ (0x7A : Byte) := by decide +kernel

theorem witness_NewFrameIsDroppedWhileOneIsHeld :
    (mach slaveProcess).legal = true ∧ slaveProcess.pstate = .process ∧ slaveProcess.dir = .rx ∧
    (0x85 : Byte).extractLsb' 0 7 = slaveProcess.laddr ∧ (0x06 : Byte).extractLsb' 0 7 ≠ slaveProcess.laddr ∧
    (0x06 : Byte).extractLsb' 0 7 ≠ 0 ∧ slaveProcess.role = .slave ∧ (mach slaveResponse).legal = true ∧
    slaveResponse.pstate = .response ∧ (mach masterProcess).legal = true ∧ masterProcess.role = .master := by decide +kernel

theorem witness_SentEventHandsOverTheNextByte :
    (mach masterSending).legal = true ∧ masterSending.txph = .sending ∧ masterSending.pstate ≠ .unknown ∧
    masterSending.pstate ≠ .reset ∧ 0 < masterSending.remain.toNat ∧ (mach slaveEnd).legal = true ∧
    slaveEnd.txph = .sending ∧ slaveEnd.remain.toNat = 0 := by decide +kernel

theorem witness_UartErrorDiscardsTheExchange :
    (mach masterSettle).legal = true ∧
    masterSettle.pstate ∈ [PState.request, .command, .msgbody, .process, .response] ∧
    (mach base).legal = true ∧ base.pstate = .init ∧ (mach lostBlock).legal = true ∧ lostBlock.pstate = .unknown := by
  decide +kernel

theorem witness_DesyncForcesRequest :
    (mach base).legal = true ∧ base.pstate = .init ∧ (mach masterSettle).legal = true ∧ masterSettle.pstate ≠ .init := by
  decide +kernel

theorem witness_EventsBeforeInitAreIgnored :
    (mach base).legal = true ∧ base.pstate = .init ∧ (Instr.rxb true 0x85).isEvent = true := by decide

theorem witness_UnknownStateIsLeftByEventsOnly :
    ((mach lostBlock).legal = true ∧ lostBlock.pstate = .unknown ∧ (mach resetBlock).legal = true ∧
      resetBlock.pstate = .reset ∧ Instr.tmr.isEvent = true ∧ (Instr.errpush 1).isEvent = false) ∧
    ∃ t, exec (.errpush 1) (mach lostBlock) = .next t :=
  ⟨by decide, _, rfl⟩

theorem witness_PushStoresOrSetsTheOverflowFlag :
    (mach twoHeld).legal = true ∧ twoHeld.sp.toNat < 8 ∧ (mach fullSink).legal = true ∧ ¬ fullSink.sp.toNat < 8 := by
  decide

theorem witness_PopReturnsTheNewestCode :
    (mach twoHeld).legal = true ∧ twoHeld.sp.toNat ≤ 8 ∧ twoHeld.held = [8] ++ [7] ∧ (mach deepLost).legal = true ∧
    8 < deepLost.sp.toNat ∧ (mach base).legal = true ∧ base.held = [] := by decide

theorem witness_PeekAndOverflowAnswerWithoutChange :
    (mach fullSink).legal = true ∧ fullSink.sp.toNat ≤ 8 ∧ (mach deepLost).legal = true ∧ 8 < deepLost.sp.toNat := by decide

theorem witness_SinkSaturatesAndPopsInReverse :
    (mach base).legal = true ∧ base.sp = 0 ∧ ([1, 2, 3, 4, 5, 6, 7, 8, 9] : List Byte).length = 9 := by decide

theorem witness_StepKeepsTheTableOfStates :
    Inv (mach slaveIdle [0x81, 0x85]) ∧ ∃ t, step (mach slaveIdle [0x81, 0x85]) = .next t :=
  ⟨⟨by decide, rfl⟩, _, rfl⟩

theorem witness_SlaveNeverOwnsTheBroadcastAddress :
    AddressOwned slaveIdle ∧ (∃ t, exec .desync (mach slaveIdle) = .next t) ∧
    AddressOwned base ∧ ∃ t, exec (.init .slave 1) (mach base) = .next t :=
  ⟨by unfold AddressOwned; decide, ⟨_, rfl⟩, by unfold AddressOwned; decide, _, rfl⟩

theorem witness_EngineNeverHalts :
    (mach slaveIdle).legal = true ∧ (Instr.decode [0x01, 0x42, 0x80, 0x11]).operandsOk = true ∧
    ∀ r a, Instr.decode [0x01, 0x42, 0x80, 0x11] ≠ .init r a := ⟨by decide, by decide, nofun⟩

theorem witness_OffTableLaunchStatesAreRefused :
    (mach { slaveBody with cursor := 12 }).legal = false ∧ Instr.txc.internal = false ∧
    (mach { base with txph := .value3 }).blk.txph = .value3 ∧
    251 < ({ mach base with cfg := { Cfg.standard with nParam := 252 } } : State).cfg.nParam ∧
    251 < ({ mach base with cfg := { Cfg.standard with nRet := 252 } } : State).cfg.nRet ∧
    (base.pstate ∈ [PState.init, .request, .command, .msgbody, .process, .response] ∧
      8 < (mach { base with sp := 9 }).blk.sp.toNat) ∧
    (deepLost.pstate = .unknown ∧ (mach deepLost).legal = true) ∧
    (slaveIdle.pstate = .request ∧ reqFrame.byte 11 ≠ 0) ∧
    (slaveCommand.pstate = .command ∧ slaveCommand.txph = .none ∧ (slaveCommand.frame.write 1 1).byte 1 ≠ 0) ∧
    (slaveBody.pstate = .msgbody ∧ slaveBody.txph = .none ∧ slaveBody.cursor.toNat ≤ 2 ∧
      (slaveBody.frame.write 2 1).byte 2 ≠ 0) ∧
    (slaveResponse.pstate = .response ∧ slaveResponse.txph = .none ∧ (rspFrame.byte 0).getLsbD 7 = false) ∧
    (mach { slaveIdle with frame := reqFrame }).legal = false ∧
    (mach { masterSettle with frame := Memory.zeros 12 }).legal = false ∧
    (mach { slaveSettle with frame := Memory.zeros 12 }).legal = false ∧
    (mach { slaveProcess with frame := reqFrame.set 11 0 }).legal = false ∧
    (slaveBody.pstate = .msgbody ∧ Cfg.standard.lMax ≤ (12 : Byte).toNat ∧ slaveBody.dir = .rx) ∧
    ({ slaveBody with remain := 0 } : Block).remain = 0 ∧
    ({ slaveResponse with role := .master } : Block).role = .master ∧
    (({ slaveIdle with dir := .tx } : Block).dir = .tx ∧ slaveIdle.txph = .none ∧
      slaveIdle.pstate ∈ [PState.init, .request, .command, .msgbody, .process, .response]) := by decide +kernel

/-- The clauses on encoded and valid frames: a zero buffer is neither, its CRC field does not verify. -/
theorem witness_OffTableLaunchStatesAreRefused_frames :
    (masterSettle.pstate = .command ∧ masterSettle.txph ≠ .none) ∧ (slaveSettle.pstate = .response ∧ slaveSettle.txph ≠ .none) ∧
    ¬ EncodedFrame Cfg.standard 8 (Memory.zeros 12) ∧ slaveProcess.pstate = .process ∧
    ¬ ValidFrame Cfg.standard (rxLen Cfg.standard slaveProcess.role) (Memory.zeros 12) := by
  refine ⟨by decide, by decide, ?_, rfl, ?_⟩
  · rw [encodedFrame_iff (by decide) (by decide), ← holdsFrame_iff]
    decide +kernel
  · rw [← holdsFrame_iff]
    decide +kernel

theorem witness_RoleAndConfigurationAreFixed :
    (∃ t, exec .rxerr (mach masterSettle) = .next t) ∧ ∀ r a, Instr.rxerr ≠ .init r a :=
  ⟨next_any (by decide +kernel), nofun⟩

theorem witness_OverflowFlagIsSticky :
    (∃ t, exec (.errpush 1) (mach fullSink) = .next t ∧ fullSink.ovf = false ∧ t.blk.ovf = true) ∧
    ∃ t, exec .errpop (mach { fullSink with ovf := true }) = .next t ∧ ({ fullSink with ovf := true } : Block).ovf = true :=
  ⟨⟨_, rfl, rfl, rfl⟩, _, rfl, rfl⟩

theorem witness_OneCodeAtMostPerStep :
    (∃ t, exec .errpop (mach twoHeld) = .next t) ∧ (∃ t, exec .rxerr (mach slaveIdle) = .next t) ∧
    (∃ t, exec .rxerr (mach { fullSink with pstate := .request, afilt := true }) = .next t) ∧
    8 < deepLost.sp.toNat ∧ ∃ t, exec .errpop (mach deepLost) = .next t :=
  ⟨⟨_, rfl⟩, ⟨_, rfl⟩, ⟨_, rfl⟩, by decide, _, rfl⟩

theorem witness_CodesAreRaisedOnlyWhereListed :
    (∃ t, exec .consume (mach twoHeld) = .next t ∧ t.blk.held = twoHeld.held ++ [3]) ∧
    (∃ t, exec .rxerr (mach slaveIdle) = .next t ∧ t.blk.held = slaveIdle.held ++ [7]) ∧
    (∃ t, exec .desync (mach slaveIdle) = .next t ∧ t.blk.held = slaveIdle.held ++ [10]) ∧
    ∀ x, Instr.consume ≠ .errpush x :=
  ⟨⟨_, rfl, rfl⟩, ⟨_, rfl, rfl⟩, ⟨_, rfl, rfl⟩, nofun⟩

theorem witness_QueriesChangeNothing :
    Instr.errpeek.isPure = true ∧ ∃ t, exec .errpeek (mach twoHeld) = .next t := ⟨rfl, _, rfl⟩

theorem witness_BufferIsWrittenOnlyByItsWriters :
    (∃ t, exec (.rxb true 0x85) (mach slaveIdle) = .next t ∧ t.blk.frame ≠ slaveIdle.frame) ∧
    ∃ t, exec .rxerr (mach slaveProcess) = .next t ∧ t.blk.frame ≠ slaveProcess.frame :=
  ⟨next_such (by decide +kernel), next_such (by decide +kernel)⟩

theorem witness_FilterFollowsRoleAndState :
    Instr.desync.internal = false ∧ (∃ t, exec .desync (mach slaveProcess) = .next t ∧ t.blk.pstate = .request) ∧
    (∃ t, exec (.rxb true 0x85) (mach slaveIdle) = .next t ∧ t.blk.pstate = .command) ∧
    (∃ t, exec (.rxb false 0x10) (mach slaveCommand) = .next t ∧ t.blk.pstate = .msgbody) ∧
    (∃ t, exec .avail (mach slaveProcess) = .next t ∧ t.blk.pstate = .process) ∧
    (∃ t, exec .consume (mach slaveProcess) = .next t ∧ t.blk.pstate = .response) ∧
    ∃ t, exec .tmr (mach base) = .next t ∧ t.blk.pstate = .init :=
  ⟨rfl, next_such (by decide +kernel), ⟨_, rfl, rfl⟩, ⟨_, rfl, rfl⟩, next_such (by decide +kernel),
    next_such (by decide +kernel), _, rfl, rfl⟩

theorem witness_OnlyValidatedFramesBecomeAvailable :
    slaveLast.pstate ≠ .process ∧ ∃ t, exec (.rxb false 0x33) (mach slaveLast) = .next t ∧ t.blk.pstate = .process :=
  ⟨by decide, next_such (by decide +kernel)⟩

theorem witness_ReceptionClassifiesEveryFrame :
    (mach slaveIdle).legal = true ∧ slaveIdle.pstate = .request ∧
    (0x85 : Byte).extractLsb' 0 7 = slaveIdle.laddr ∧ (0x80 : Byte).extractLsb' 0 7 = 0 ∧
    (reqFrame.drop 1).length + 1 = rxLen Cfg.standard slaveIdle.role ∧
    crcVerify Cfg.standard (0x85 :: reqFrame.drop 1) = true ∧
    crcVerify Cfg.standard (0x85 :: ((reqFrame.drop 1).set 10 0x32)) = false ∧
    ((reqFrame.drop 1).set 10 0x32).length + 1 = rxLen Cfg.standard slaveIdle.role ∧
    crcVerify Cfg.standard (0x80 :: ((bcastLast.frame.drop 1).set 10 0x7F)) = true ∧
    ((bcastLast.frame.drop 1).set 10 0x7F).length + 1 = rxLen Cfg.standard slaveIdle.role ∧
    (mach masterIdle).legal = true ∧ masterIdle.pstate = .request ∧ masterIdle.role ≠ .slave ∧
    (rspFrame.drop 1).length + 1 = rxLen Cfg.standard masterIdle.role := by decide +kernel

theorem witness_TransmissionHandsOverTheWholeFrame :
    (mach masterSettle).legal = true ∧ masterSettle.txph = .settle ∧ masterSettle.pstate ≠ .unknown ∧
    masterSettle.pstate ≠ .reset ∧ (mach slaveSettle).legal = true ∧ slaveSettle.txph = .settle := by decide +kernel

theorem witness_ReceivedMessageIsConsumedUnchanged :
    (mach slaveIdle).legal = true ∧ slaveIdle.pstate = .request ∧
    validate reqMsg (rxN Cfg.standard slaveIdle.role) = none ∧
    encodeFrame Cfg.standard reqMsg (rxN Cfg.standard slaveIdle.role) = 0x85 :: reqFrame.drop 1 ∧
    reqMsg.address.extractLsb' 0 7 = slaveIdle.laddr ∧
    validate { reqMsg with address := 0, rr := false } (rxN Cfg.standard slaveIdle.role) = none ∧
    encodeFrame Cfg.standard { reqMsg with address := 0, rr := false } (rxN Cfg.standard slaveIdle.role) =
      0x00 :: bcastFrame.drop 1 ∧
    (mach masterIdle).legal = true ∧ masterIdle.pstate = .request ∧ masterIdle.role ≠ .slave ∧
    validate rspMsg (rxN Cfg.standard masterIdle.role) = none ∧
    encodeFrame Cfg.standard rspMsg (rxN Cfg.standard masterIdle.role) = 0x05 :: rspFrame.drop 1 := by decide +kernel

end Sys2Proof.Tests
end

section
/-! PROOFS of the statements of 00_scope.md: what a step runs (O3), what it refuses (O47) and what no step writes (O48). -/

namespace Sys2Proof.Machine

/-! ### The presented operation (R14, R231) -/

/-- What the host-port decoder reads is what the environment presents. -/
theorem present_of_decodeStimulus {s : State} {i : Instr} {rest : List Byte}
    (h : decodeStimulus s.input = some (i, rest)) : present s = .ok (i, { s with input := rest }) := by
  cases hb : s.input with
  | nil => rw [hb] at h; cases h
  | cons b bs => rw [hb] at h; simp [present, hb, h]

/-- Settles O3: the input is not empty, so `present` answers what the decoder reads. -/
theorem stepRunsThePresentedOperation : Obligations.StepRunsThePresentedOperation := by
  intro s i rest h
  simp [step, present_of_decodeStimulus h]

/-! ### What no step writes (R10, R20, R22) -/

/-- What only INIT may write, and what nothing may: `ROLE` and `LADDR`, and the configuration. -/
def State.identity (s : State) : Cfg × Role × BitVec 7 := (s.cfg, s.blk.role, s.blk.laddr)

theorem identity_eq_iff {s t : State} :
    t.identity = s.identity ↔ t.cfg = s.cfg ∧ t.blk.role = s.blk.role ∧ t.blk.laddr = s.blk.laddr := by
  simp [State.identity]

@[simp] theorem identity_start (s : State) : s.start.identity = s.identity := rfl
@[simp] theorem identity_returns (r : Result) (s : State) : (returns r s).identity = s.identity := rfl
@[simp] theorem identity_ignored (s : State) : (ignored s).identity = s.identity := rfl
@[simp] theorem identity_answers (r : Result) (s : State) : (answers r s).identity = s.identity := rfl
@[simp] theorem identity_sinkPush (c : Byte) (s : State) : (sinkPush c s).identity = s.identity := by
  simp [State.identity]
@[simp] theorem identity_report (e : ErrCode) (s : State) : (report e s).identity = s.identity :=
  identity_sinkPush e.code s
@[simp] theorem identity_dirTx (s : State) : (dirTx s).identity = s.identity := rfl
@[simp] theorem identity_dirRx (s : State) : (dirRx s).identity = s.identity := by simp [State.identity]
@[simp] theorem identity_enterRequest (s : State) : (enterRequest s).identity = s.identity := by
  simp [State.identity]
@[simp] theorem identity_desync (s : State) : (desync s).identity = s.identity := by simp [desync]
@[simp] theorem identity_respondLoad (m : Msg) (s : State) : (respondLoad m s).identity = s.identity := rfl
@[simp] theorem identity_sendLoad (m : Msg) (s : State) : (sendLoad m s).identity = s.identity := rfl
@[simp] theorem identity_rxStore (b : Byte) (s : State) : (rxStore b s).identity = s.identity := rfl
@[simp] theorem identity_tmrFirstByte (s : State) : (tmrFirstByte s).identity = s.identity := rfl

/-- Whatever `frame_complete` finds, the identity stays. -/
@[simp] theorem identity_frameComplete (s : State) : (frameComplete s).identity = s.identity := by
  simp only [frameComplete]
  split
  · simp
  split
  · simp
  · rfl

theorem pop_identity (b : Block) : b.pop.role = b.role ∧ b.pop.laddr = b.laddr := by
  rw [pop_eq b]
  exact ⟨rfl, rfl⟩

/-- Every operation but INIT keeps the identity. -/
theorem exec_keeps_identity {i : Instr} {s t : State} (hi : ∀ r a, i ≠ .init r a) (h : exec i s = .next t) :
    t.identity = s.identity := by
  by_cases hp : i.isPure = true
  · obtain ⟨-, r, rfl⟩ := exec_pure hp h
    rfl
  cases i with
  | init r a => exact absurd rfl (hi r a)
  | consume =>
    obtain ⟨-, ⟨-, rfl⟩ | ⟨-, r, -, ⟨-, -, rfl⟩ | ⟨-, rfl⟩⟩⟩ := exec_consume h
    · simp
    · rfl
    · simp
  | respond m => obtain ⟨-, ⟨-, rfl⟩ | ⟨-, -, e, -, rfl⟩ | ⟨-, -, -, rfl⟩⟩ := exec_respond h <;> simp
  | send m => obtain ⟨-, ⟨-, rfl⟩ | ⟨-, -, e, -, rfl⟩ | ⟨-, -, -, rfl⟩⟩ := exec_send h <;> simp
  | errpush c =>
    obtain ⟨-, rfl⟩ := exec_errpush h
    simp
  | errpop =>
    obtain ⟨-, rfl⟩ := exec_errpop h
    exact identity_eq_iff.mpr ⟨rfl, pop_identity s.blk⟩
  | rxb k b =>
    obtain ⟨-, rfl | ⟨-, rfl⟩ | ⟨-, -, -, -, rfl⟩ | ⟨-, -, -, rfl⟩ | ⟨-, -, -, rfl⟩ | ⟨-, -, -, -, rfl⟩ |
      ⟨-, -, -, -, rfl⟩ | ⟨-, -, -, -, rfl⟩⟩ := exec_rxb h
    case inr.inr.inl | inr.inr.inr.inr.inl => rfl
    all_goals simp
  | txc =>
    obtain ⟨-, rfl | ⟨-, rfl⟩ | ⟨-, -, -, -, rfl⟩ | ⟨-, -, -, -, rfl⟩⟩ := exec_txc h
    case inr.inr.inl => rfl
    all_goals simp
  | rxerr => obtain ⟨-, ⟨-, rfl⟩ | ⟨-, rfl⟩ | ⟨-, -, rfl⟩⟩ := exec_rxerr h <;> simp
  | tmr => obtain ⟨-, rfl | ⟨-, rfl⟩ | ⟨-, -, -, rfl⟩⟩ := exec_tmr h <;> simp
  | desync => obtain ⟨-, ⟨-, rfl⟩ | ⟨-, rfl⟩⟩ := exec_desync h <;> simp
  | dirtx => simp [exec_dirtx h]
  | dirrx => simp [exec_dirrx h]
  | avail | isresp _ | errpeek | errovf | crc16 _ | crcvfy _ | encode _ _ | decode _ => exact absurd rfl hp

/-- Every operation keeps the configuration, INIT too (R21). -/
theorem exec_keeps_cfg {i : Instr} {s t : State} (h : exec i s = .next t) : t.cfg = s.cfg := by
  by_cases hi : ∃ r a, i = .init r a
  · obtain ⟨r, a, rfl⟩ := hi
    obtain ⟨-, -, -, rfl⟩ := exec_init h
    simp [storeIdentity]
  · push Not at hi
    exact (identity_eq_iff.mp (exec_keeps_identity hi h)).1

/-- Settles O48, operation by operation from what each can do. -/
theorem roleAndConfigurationAreFixed : Obligations.RoleAndConfigurationAreFixed := by
  intro i s t h
  exact ⟨exec_keeps_cfg h, fun hi => (identity_eq_iff.mp (exec_keeps_identity hi h)).2⟩

/-! ### Launch states off the table (R9, R30, R44, U5, U6, U15) -/

/-- Every operation but the two internal ones runs behind the guard. -/
theorem exec_eq_guarded {i : Instr} (hi : i.internal = false) (s : State) : ∃ k, exec i s = guarded s k := by
  cases i with
  | dirtx | dirrx => cases hi
  | init _ _ | avail | consume | isresp _ | respond _ | send _ | errpush _ | errpop | errpeek | errovf | rxb _ _ | txc
    | rxerr | tmr | desync | crc16 _ | crcvfy _ | encode _ _ | decode _ => exact ⟨_, rfl⟩

theorem lost_iff {b : Block} : b.lost = true ↔ b.pstate = .unknown ∨ b.pstate = .reset := by simp [Block.lost]

/-- The six states with a row in the table are those that are not lost. -/
theorem not_lost_of_mem {b : Block}
    (h : b.pstate ∈ [PState.init, .request, .command, .msgbody, .process, .response]) : b.lost = false := by
  rw [Bool.eq_false_iff, Ne, lost_iff]
  rintro (e | e) <;> simp [e] at h

theorem frameOnTable_lost {c : Cfg} {b : Block} (h : b.lost = true) : b.frameOnTable c = true := by
  rcases lost_iff.mp h with e | e <;> simp [Block.frameOnTable, e]

theorem inRange_iff {c : Cfg} : c.inRange = true ↔ c.nParam ≤ 251 ∧ c.nRet ≤ 251 := by simp [Cfg.inRange]

/-- What is asked of UNKNOWN and RESET: the phase, the counts and the buffer's length (log entries 7 and 11). -/
theorem legal_iff_of_lost {s : State} (h : s.blk.lost = true) :
    s.legal = true ↔ s.blk.txph ≠ .value3 ∧ s.cfg.nParam ≤ 251 ∧ s.cfg.nRet ≤ 251 ∧
      s.blk.frame.length = s.cfg.lMax := by
  rw [legal_iff, inRange_iff]
  simp only [h, onTable_lost h, frameOnTable_lost h]
  tauto

section
variable {s : State} (hl : s.legal = true)
include hl

/-- The column `FRAME` of COMMAND. -/
theorem frame_of_command (hp : s.blk.pstate = .command) :
    (s.blk.txph = .none ∧ ∀ j, 1 ≤ j → s.blk.frame.byte j = 0) ∨
      (s.blk.txph ≠ .none ∧ EncodedFrame s.cfg s.cfg.nParam s.blk.frame) := by
  have := (inv_of_legal hl (by simp [Block.lost, hp])).2
  simpa only [FrameOk, hp] using this

/-- The column `FRAME` of MSGBODY. -/
theorem frame_of_msgbody (hp : s.blk.pstate = .msgbody) :
    (s.blk.txph = .none ∧ ∀ j, s.blk.cursor.toNat ≤ j → s.blk.frame.byte j = 0) ∨
      (s.blk.txph ≠ .none ∧ EncodedFrame s.cfg s.cfg.nParam s.blk.frame) := by
  have := (inv_of_legal hl (by simp [Block.lost, hp])).2
  simpa only [FrameOk, hp] using this

/-- The column `FRAME` of PROCESS. -/
theorem frame_of_process (hp : s.blk.pstate = .process) :
    ValidFrame s.cfg (rxLen s.cfg s.blk.role) s.blk.frame := by
  have := (inv_of_legal hl (by simp [Block.lost, hp])).2
  simpa only [FrameOk, hp] using this

/-- The column `FRAME` of RESPONSE. -/
theorem frame_of_response (hp : s.blk.pstate = .response) :
    (s.blk.txph = .none ∧ ValidFrame s.cfg s.cfg.lReq s.blk.frame ∧ (s.blk.frame.byte 0).getLsbD 7 = true) ∨
      (s.blk.txph ≠ .none ∧ EncodedFrame s.cfg s.cfg.nRet s.blk.frame) := by
  have := (inv_of_legal hl (by simp [Block.lost, hp])).2
  simpa only [FrameOk, hp] using this

theorem role_of_response (hp : s.blk.pstate = .response) : s.blk.role = .slave := by
  obtain ⟨-, -, -, -, ht, -⟩ := legal_iff.mp hl
  exact ((onTable_response hp).mp ht).1

/-- A loaded request stands in the buffer while a master sends it. -/
theorem encoded_of_sending_request (hp : s.blk.pstate = .command ∨ s.blk.pstate = .msgbody)
    (hx : s.blk.txph ≠ .none) : EncodedFrame s.cfg s.cfg.nParam s.blk.frame := by
  rcases hp with hp | hp
  · exact (frame_of_command hl hp).elim (fun h => absurd h.1 hx) (·.2)
  · exact (frame_of_msgbody hl hp).elim (fun h => absurd h.1 hx) (·.2)

/-- The frame received stands in the buffer until it is consumed and answered. -/
theorem valid_of_received (hp : s.blk.pstate = .process ∨ s.blk.pstate = .response ∧ s.blk.txph = .none) :
    ValidFrame s.cfg (rxLen s.cfg s.blk.role) s.blk.frame := by
  rcases hp with hp | ⟨hp, hx⟩
  · exact frame_of_process hl hp
  · rw [role_of_response hl hp]
    exact (frame_of_response hl hp).elim (·.2.1) (fun h => absurd hx h.1)

/-- A reception under way has room in the buffer and bytes to come. -/
theorem room_of_receiving_body (hp : s.blk.pstate = .msgbody) (hd : s.blk.dir = .rx) :
    s.blk.cursor.toNat < s.cfg.lMax ∧ s.blk.remain ≠ 0 := by
  obtain ⟨-, -, -, h2, hc, hr⟩ := body_facts hl hp hd
  obtain ⟨h4, -, hm⟩ := rxLen_bounds (legal_iff.mp hl).1 s.blk.role
  refine ⟨by omega, fun e => ?_⟩
  have : s.blk.remain.toNat = 0 := congrArg BitVec.toNat e
  omega

end

/-- Settles O47: the operations stand behind the guard, and each state listed breaks its row of the table. -/
theorem offTableLaunchStatesAreRefused : Obligations.OffTableLaunchStatesAreRefused := by
  refine ⟨fun i s hs hi => ?_, fun s hp => legal_iff_of_lost (lost_iff.mpr hp), fun s h => ?_⟩
  · obtain ⟨k, hk⟩ := exec_eq_guarded hi s
    exact hk ▸ guarded_illegal hs k
  · rw [Bool.eq_false_iff]
    intro hl
    obtain ⟨-, hv, -, hsp, ht, -⟩ := legal_iff.mp hl
    obtain ⟨hn, hr⟩ := counts_of_legal hl
    rcases h with h | h | h | ⟨hp, h⟩ | ⟨hp, j, h⟩ | ⟨hp, hx, j, hj, h⟩ | ⟨hp, hx, j, hj, h⟩ | ⟨hp, hx, h⟩ |
      ⟨hp, hx, h⟩ | ⟨hp, hx, h⟩ | ⟨hp, h⟩ | ⟨hp, h, hd⟩ | ⟨hp, h, hd⟩ | ⟨hp, h⟩ | ⟨hp, hd, hx⟩
    · exact hv h
    · omega
    · omega
    · have := hsp (not_lost_of_mem hp)
      omega
    · exact h (by rw [frame_of_request hl hp, byte_zeros])
    · exact (frame_of_command hl hp).elim (fun hz => h (hz.2 j hj)) (fun hz => hz.1 hx)
    · exact (frame_of_msgbody hl hp).elim (fun hz => h (hz.2 j hj)) (fun hz => hz.1 hx)
    · exact h (encoded_of_sending_request hl hp hx)
    · exact (frame_of_response hl hp).elim (fun hz => hx hz.1) (fun hz => h hz.2)
    · exact (frame_of_response hl hp).elim (fun hz => by rw [hz.2.2] at h; cases h) (fun hz => hz.1 hx)
    · exact h (valid_of_received hl hp)
    · have := (room_of_receiving_body hl hp hd).1
      omega
    · exact (room_of_receiving_body hl hp hd).2 h
    · rw [role_of_response hl hp] at h
      cases h
    · exact (dir_tx_iff ht (not_lost_of_mem hp)).mp hd hx

end Sys2Proof.Machine
end

section
/-! PROOFS of the statements of 10_state.md. What one operation does to the block and which actions it emits is said once
(`Effect`, `effect_of_exec`); the turnaround timer (O18), the overflow flag (O49), the buffer (O53) and the address filter
(O54) are read off it, and that only events leave UNKNOWN and RESET (O38). The reset state (O1, O43) stands by itself. -/

namespace Sys2Proof.Machine

/-! ### What one operation does (R20, column "written by") -/

/-- The ways an operation i can take s to t, as far as the block and the actions go. Each names the launch state and the
operation as far as the statements ask for them. -/
inductive Effect (i : Instr) (s t : State) : Prop
  /-- A query or an ignored event (R68, R17). -/
  | kept (hb : t.blk = s.blk) (ha : t.actions = [])
  /-- ERRPUSH, a report, a dropped request (R211, R224, R188). -/
  | pushed (k : Byte) (hb : t.blk = s.blk.push k) (ha : t.actions = [])
  /-- ERRPOP (R213). -/
  | popped (hi : i = .errpop) (hb : t.blk = s.blk.pop) (ha : t.actions = [])
  /-- INIT (R151). -/
  | initialised (r : Role) (a : Byte) (hi : i = .init r a) (hp : s.blk.pstate = .init)
      (hb : t.blk = (storeIdentity r a s).blk.inRequest s.cfg) (ha : t.actions = s.blk.cancels)
  /-- An exchange ends without an error (R155, R193). -/
  | released (hi : (i = .consume ∧ s.blk.pstate = .process) ∨ i = .txc) (hb : t.blk = s.blk.inRequest s.cfg)
      (ha : t.actions = s.blk.cancels)
  /-- An event ends an exchange with an error (R182, R190, R195). -/
  | discarded (k : Byte) (hi : i.isEvent = true) (hb : t.blk = (s.blk.push k).inRequest s.cfg)
      (ha : t.actions = s.blk.cancels)
  /-- CONSUME by a slave that owes a response (R155). -/
  | consumed (hi : i = .consume) (hp : s.blk.pstate = .process) (hr : s.blk.role = .slave)
      (hb : t.blk = { s.blk with pstate := .response }) (ha : t.actions = [])
  /-- An accepted SEND (R170). -/
  | requested (m : Msg) (hi : i = .send m) (hp : s.blk.pstate = .request) (hb : t.blk = (sendLoad m s).blk)
      (ha : t.actions = [.timerStart s.cfg.tTurnMs])
  /-- An accepted RESPOND (R162). -/
  | responded (m : Msg) (hi : i = .respond m) (hx : s.blk.txph = .none) (hb : t.blk = (respondLoad m s).blk)
      (ha : t.actions = [.timerStart s.cfg.tTurnMs])
  /-- Byte 0 of a frame (R186). -/
  | addressed (k : Bool) (d : Byte) (hi : i = .rxb k d)
      (hb : t.blk = { s.blk with
        frame := s.blk.frame.write 0 d
        cursor := 1
        remain := BitVec.ofNat 8 (rxLen s.cfg s.blk.role - 1)
        inuse := true
        afilt := false
        pstate := .command }) (ha : t.actions = [])
  /-- Byte 1 of a frame (R187). -/
  | commanded (k : Bool) (d : Byte) (hi : i = .rxb k d) (hp : s.blk.pstate = .command)
      (hb : t.blk = { s.blk with
        frame := s.blk.frame.write 1 d
        cursor := 2
        remain := BitVec.ofNat 8 (rxLen s.cfg s.blk.role - 2)
        pstate := .msgbody }) (ha : t.actions = [])
  /-- A later byte that is not the last (R189). -/
  | stored (k : Bool) (d : Byte) (hi : i = .rxb k d) (hb : t.blk = (rxStore d s).blk) (ha : t.actions = [])
  /-- The last byte of a frame that verifies (R190). -/
  | completed (k : Bool) (d : Byte) (hi : i = .rxb k d)
      (hb : t.blk = { (rxStore d s).blk with afilt := true, pstate := .process }) (ha : t.actions = [])
  /-- TMR at the end of the settle delay (R143). -/
  | firstSent (hi : i = .tmr) (hb : t.blk = (tmrFirstByte s).blk)
      (ha : t.actions = [.uartTx (s.blk.role == .master) (s.blk.frame.byte 0)])
  /-- TXC while bytes remain (R193). -/
  | nextSent (hi : i = .txc) (hx : s.blk.txph = .sending)
      (hb : t.blk = { (txNext false s).blk with
        pstate := if s.blk.pstate = .command then .msgbody else s.blk.pstate })
      (ha : t.actions = [.uartTx false (s.blk.frame.byte s.blk.cursor.toNat)])
  /-- DIRTX (R138). -/
  | lineToTx (hi : i = .dirtx) (hb : t.blk = (dirTx s).blk) (ha : t.actions = [.timerStart s.cfg.tTurnMs])
  /-- DIRRX (R139). -/
  | lineToRx (hi : i = .dirrx) (hb : t.blk = (dirRx s).blk) (ha : t.actions = s.blk.cancels)

/-- A desynchronization ends the exchange (R182). -/
theorem effect_desync {i : Instr} (hi : i.isEvent = true) (s : State) : Effect i s (desync s.start) :=
  .discarded ErrCode.stateMachineReset.code hi (by simp [desync]) (by simp [desync])

/-- REQUEST keeps nothing of a byte just stored. -/
theorem inRequest_push_rxStore (c : Cfg) (e d : Byte) (s : State) :
    ((rxStore d s).blk.push e).inRequest c = (s.blk.push e).inRequest c := by
  by_cases h : s.blk.sp.toNat < 8 <;> simp [Block.push, Block.inRequest, rxStore, h]

/-- The last byte of a frame discards it with one of two codes or makes it available (R190). -/
theorem effect_frameComplete {s : State} (hl : s.legal = true) (k : Bool) (d : Byte) :
    Effect (.rxb k d) s (frameComplete (rxStore d s.start)) := by
  obtain ⟨hc, -, hf, -⟩ := legal_iff.mp hl
  obtain ⟨h4, -, hm⟩ := rxLen_bounds hc s.blk.role
  have hlen : (rxStore d s.start).blk.frame.length = s.cfg.lMax := (length_write _ _ _).trans hf
  have hdiscard (e : Byte) : Effect (.rxb k d) s (enterRequest (sinkPush e (rxStore d s.start))) :=
    .discarded e rfl ((enterRequest_blk _).trans (inRequest_push_rxStore _ _ _ _))
      ((enterRequest_actions _).trans (push_cancels e _))
  obtain ⟨-, h⟩ | ⟨-, -, h⟩ | ⟨-, -, h⟩ := frameComplete_cases (s := rxStore d s.start) (by rw [hlen]; exact hm) h4
  · rw [h]; exact hdiscard _
  · rw [h]; exact hdiscard _
  · rw [h]; exact .completed k d rfl rfl rfl

/-- Every operation that answers a next state has one of these effects. -/
theorem effect_of_exec {i : Instr} {s t : State} (h : exec i s = .next t) : Effect i s t := by
  by_cases hp : i.isPure = true
  · obtain ⟨-, r, rfl⟩ := exec_pure hp h
    exact .kept rfl rfl
  cases i with
  | init r a =>
    obtain ⟨-, hp, -, rfl⟩ := exec_init h
    exact .initialised r a rfl hp (enterRequest_blk _) (enterRequest_actions _)
  | consume =>
    obtain ⟨-, ⟨-, rfl⟩ | ⟨hp, r, -, ⟨hr, -, rfl⟩ | ⟨-, rfl⟩⟩⟩ := exec_consume h
    · exact .pushed _ rfl rfl
    · exact .consumed rfl hp hr rfl rfl
    · exact .released (.inl ⟨rfl, hp⟩) (by simp) (by simp)
  | respond m =>
    obtain ⟨-, ⟨-, rfl⟩ | ⟨-, -, e, -, rfl⟩ | ⟨-, hx, -, rfl⟩⟩ := exec_respond h
    · exact .pushed _ rfl rfl
    · exact .pushed _ rfl rfl
    · exact .responded m rfl hx rfl rfl
  | send m =>
    obtain ⟨-, ⟨-, rfl⟩ | ⟨-, -, e, -, rfl⟩ | ⟨hp, -, -, rfl⟩⟩ := exec_send h
    · exact .pushed _ rfl rfl
    · exact .pushed _ rfl rfl
    · exact .requested m rfl hp rfl rfl
  | errpush c =>
    obtain ⟨-, rfl⟩ := exec_errpush h
    exact .pushed c rfl rfl
  | errpop =>
    obtain ⟨-, rfl⟩ := exec_errpop h
    exact .popped rfl rfl rfl
  | rxb k d =>
    obtain ⟨hl, rfl | ⟨-, rfl⟩ | ⟨-, -, -, -, rfl⟩ | ⟨-, -, -, rfl⟩ | ⟨hp, -, -, rfl⟩ | ⟨-, -, -, -, rfl⟩ |
      ⟨-, -, -, -, rfl⟩ | ⟨-, -, -, -, rfl⟩⟩ := exec_rxb h
    · exact .kept rfl rfl
    · exact effect_desync rfl s
    · exact .addressed k d rfl rfl rfl
    · exact effect_desync rfl s
    · exact .commanded k d rfl hp rfl rfl
    · exact .stored k d rfl rfl rfl
    · exact effect_frameComplete hl k d
    · exact .pushed _ rfl rfl
  | txc =>
    obtain ⟨-, rfl | ⟨-, rfl⟩ | ⟨-, -, hx, -, rfl⟩ | ⟨-, -, -, -, rfl⟩⟩ := exec_txc h
    · exact .kept rfl rfl
    · exact effect_desync rfl s
    · exact .nextSent rfl hx rfl rfl
    · exact .released (.inr rfl) (by simp) (by simp)
  | rxerr =>
    obtain ⟨-, ⟨-, rfl⟩ | ⟨-, rfl⟩ | ⟨-, -, rfl⟩⟩ := exec_rxerr h
    · exact .kept rfl rfl
    · exact effect_desync rfl s
    · exact .discarded ErrCode.frameError.code rfl (by simp) (by simp)
  | tmr =>
    obtain ⟨-, rfl | ⟨-, rfl⟩ | ⟨-, -, -, rfl⟩⟩ := exec_tmr h
    · exact .kept rfl rfl
    · exact effect_desync rfl s
    · exact .firstSent rfl rfl rfl
  | desync =>
    obtain ⟨-, ⟨-, rfl⟩ | ⟨-, rfl⟩⟩ := exec_desync h
    · exact .kept rfl rfl
    · exact effect_desync rfl s
  | dirtx =>
    obtain rfl := exec_dirtx h
    exact .lineToTx rfl rfl rfl
  | dirrx =>
    obtain rfl := exec_dirrx h
    exact .lineToRx rfl (by simp) (by simp)
  | avail | isresp _ | errpeek | errovf | crc16 _ | crcvfy _ | encode _ _ | decode _ => exact absurd rfl hp

/-- An operation that is no internal one answers a next state only at a legal state. -/
theorem legal_of_exec {i : Instr} {s t : State} (hi : i.internal = false) (h : exec i s = .next t) :
    s.legal = true := by
  obtain ⟨k, hk⟩ := exec_eq_guarded hi s
  exact (legal_of_guarded (hk ▸ h)).1

/-! ### The turnaround timer (R30, R137, R139, R143) -/

theorem mem_cancels {a : Action} {b : Block} : a ∈ b.cancels ↔ a = .timerCancel ∧ b.txph = .settle := by
  by_cases h : b.txph = .settle <;> simp [Block.cancels, h]

/-- What a step does to the transmit phase, and the actions it emits: nothing; back to NONE, cancelling an armed timer;
into SETTLE, starting the timer; or a character is handed over in SENDING. -/
inductive PhaseStep (i : Instr) (s t : State) : Prop
  | same (hx : t.blk.txph = s.blk.txph) (ha : t.actions = [])
  | stopped (hx : t.blk.txph = .none) (ha : t.actions = s.blk.cancels)
  | armed (h0 : s.blk.txph = .none) (hx : t.blk.txph = .settle) (ha : t.actions = [.timerStart s.cfg.tTurnMs])
  | sent (hi : i = .tmr ∨ s.blk.txph = .sending) (hx : t.blk.txph = .sending)
      (ha : ∃ k b, t.actions = [.uartTx k b])

theorem txph_of_request {s : State} (hl : s.legal = true) (hp : s.blk.pstate = .request) : s.blk.txph = .none := by
  obtain ⟨-, -, -, -, ht, -⟩ := legal_iff.mp hl
  exact ((onTable_request hp).mp ht).2.1

theorem phaseStep_of_exec {i : Instr} {s t : State} (hi : i.internal = false) (h : exec i s = .next t) :
    PhaseStep i s t := by
  have hl := legal_of_exec hi h
  cases effect_of_exec h with
  | kept hb ha | consumed _ _ _ hb ha | addressed _ _ _ hb ha | commanded _ _ _ _ hb ha | stored _ _ _ hb ha
    | completed _ _ _ hb ha => exact .same (hb ▸ rfl) ha
  | pushed k hb ha => exact .same (by simp [hb]) ha
  | popped _ hb ha => exact .same (by rw [hb, pop_eq]) ha
  | initialised _ _ _ _ hb ha | released _ hb ha | discarded _ _ hb ha => exact .stopped (hb ▸ rfl) ha
  | requested _ _ hp hb ha => exact .armed (txph_of_request hl hp) (hb ▸ rfl) ha
  | responded _ _ hx hb ha => exact .armed hx (hb ▸ rfl) ha
  | firstSent hi hb ha => exact .sent (.inl hi) (hb ▸ rfl) ⟨_, _, ha⟩
  | nextSent _ hx hb ha => exact .sent (.inr hx) (hb ▸ hx) ⟨_, _, ha⟩
  | lineToTx hi' | lineToRx hi' => rw [hi'] at hi; cases hi

/-- Settles O18: each of the four ways the phase can go emits just the timer action of that way. -/
theorem timerIsArmedExactlyWhileSettling : Obligations.TimerIsArmedExactlyWhileSettling := by
  intro i s t hi h
  cases phaseStep_of_exec hi h with
  | same hx ha => simp +contextual [hx, ha]
  | stopped hx ha => simp [hx, ha, mem_cancels]
  | armed h0 hx ha => simp [h0, hx, ha]
  | sent hi hx ha =>
    obtain ⟨k, b, ha⟩ := ha
    obtain rfl | h0 := hi
    · simp [hx, ha]
    · simp [h0, hx, ha]

/-! ### The overflow flag (R41, R211) -/

/-- The three elements of the error sink (R40, R41). -/
def Block.sink (b : Block) : Vector Byte 8 × BitVec 4 × Bool := (b.stk, b.sp, b.ovf)

theorem sink_eq_iff {a b : Block} : a.sink = b.sink ↔ a.stk = b.stk ∧ a.sp = b.sp ∧ a.ovf = b.ovf := by
  simp [Block.sink]

/-- A step leaves the sink alone, pushes one code, or pops one. -/
theorem sink_of_exec {i : Instr} {s t : State} (h : exec i s = .next t) :
    t.blk.sink = s.blk.sink ∨ (∃ k, t.blk.sink = (s.blk.push k).sink) ∨ t.blk.sink = s.blk.pop.sink := by
  cases effect_of_exec h with
  | pushed k hb | discarded k _ hb => exact .inr (.inl ⟨k, hb ▸ rfl⟩)
  | popped _ hb => exact .inr (.inr (hb ▸ rfl))
  | lineToRx _ hb => exact .inl (hb.trans (dirRx_blk s) ▸ rfl)
  | kept hb | initialised _ _ _ _ hb | released _ hb | consumed _ _ _ hb | requested _ _ _ hb | responded _ _ _ hb
    | addressed _ _ _ hb | commanded _ _ _ _ hb | stored _ _ _ hb | completed _ _ _ hb | firstSent _ hb
    | nextSent _ _ hb | lineToTx _ hb => exact .inl (hb ▸ rfl)

theorem pop_ovf (b : Block) : b.pop.ovf = b.ovf := by rw [pop_eq]

/-- Settles O49: of what a step can do to the sink only a push that finds it full writes the flag. -/
theorem overflowFlagIsSticky : Obligations.OverflowFlagIsSticky := by
  intro i s t h
  obtain hk | ⟨k, hk⟩ | hk := sink_of_exec h <;> obtain ⟨hstk, hsp, hovf⟩ := sink_eq_iff.mp hk
  · simp +contextual [hovf]
  · by_cases hroom : s.blk.sp.toNat < 8
    · simp +contextual [hovf, (push_room hroom).2.2]
    · rw [push_full hroom] at hovf hsp hstk
      exact ⟨fun _ => hovf, fun _ _ => ⟨Nat.le_of_not_lt hroom, hsp, hstk⟩⟩
  · simp +contextual [hovf, pop_ovf]

/-! ### The frame buffer (R20, R60) -/

/-- The five hardware events (R226). -/
theorem isEvent_iff {i : Instr} :
    i.isEvent = true ↔ (∃ k d, i = .rxb k d) ∨ i = .txc ∨ i = .rxerr ∨ i = .tmr ∨ i = .desync := by
  cases i <;> simp [Instr.isEvent]

@[simp] theorem inRequest_inRequest (c : Cfg) (b : Block) : (b.inRequest c).inRequest c = b.inRequest c := rfl

/-- Settles O53: every other effect leaves the buffer as it was. -/
theorem bufferIsWrittenOnlyByItsWriters : Obligations.BufferIsWrittenOnlyByItsWriters := by
  intro i s t h hne
  have hidle {b : Block} (hb : t.blk = b.inRequest s.cfg) : t.blk = t.blk.inRequest t.cfg := by
    rw [hb, exec_keeps_cfg h, inRequest_inRequest]
  cases effect_of_exec h with
  | initialised r a hi => exact .inl ⟨r, a, hi⟩
  | requested m hi => exact .inr (.inl ⟨m, hi⟩)
  | responded m hi => exact .inr (.inr (.inl ⟨m, hi⟩))
  | addressed k d hi | commanded k d hi | stored k d hi | completed k d hi => exact .inr (.inr (.inr (.inl ⟨k, d, hi⟩)))
  | released hi hb =>
    exact .inr (.inr (.inr (.inr ⟨hidle hb, hi.imp (·.1) .inl⟩)))
  | discarded k hi hb =>
    obtain he | he := isEvent_iff.mp hi
    · exact .inr (.inr (.inr (.inl he)))
    · exact .inr (.inr (.inr (.inr ⟨hidle hb, .inr he⟩)))
  | kept hb | consumed _ _ _ hb | firstSent _ hb | nextSent _ _ hb | lineToTx _ hb =>
    exact absurd (congrArg Block.frame hb) hne
  | pushed k hb => exact absurd (by simp [hb]) hne
  | popped _ hb => exact absurd (by rw [hb, pop_eq]) hne
  | lineToRx _ hb => exact absurd (by simp [hb]) hne

/-! ### The address filter (R31) -/

/-- The table of R31 as far as a row of R44 fixes it. -/
def Block.FilterFits (b : Block) : Prop :=
  (b.pstate = .request → b.afilt = decide (b.role = .slave)) ∧
  (b.pstate = .command → b.afilt = false) ∧ (b.pstate = .msgbody → b.afilt = false) ∧
  (b.pstate = .process → b.afilt = true) ∧
  (b.pstate = .response → b.afilt = true ∧ b.role = .slave) ∧
  (b.pstate = .init → b.afilt = false)

theorem idleFilter_eq (r : Role) : idleFilter r = decide (r = .slave) := by cases r <;> rfl

/-- The table of R44 has the table of R31 in it. -/
theorem filterFits_of_legal {s : State} (hl : s.legal = true) : s.blk.FilterFits := by
  obtain ⟨-, -, -, -, ht, -⟩ := legal_iff.mp hl
  refine ⟨fun hp => ?_, fun hp => ?_, fun hp => ?_, fun hp => ?_, fun hp => ?_, fun hp => ?_⟩
  · exact ((onTable_request hp).mp ht).2.2.1.trans (idleFilter_eq _)
  · exact ((onTable_command hp).mp ht).1
  · exact ((onTable_msgbody hp).mp ht).1
  · exact ((onTable_process hp).mp ht).2.2.1
  · exact ⟨((onTable_response hp).mp ht).2.1, ((onTable_response hp).mp ht).1⟩
  · exact ((onTable_init hp).mp ht).2.2

theorem filterFits_inRequest (c : Cfg) (b : Block) : (b.inRequest c).FilterFits :=
  ⟨fun _ => (inRequest_afilt c b).trans (idleFilter_eq _), nofun, nofun, nofun, nofun, nofun⟩

/-- The filter's row looks at three elements only. -/
theorem filterFits_congr {a b : Block} (hb : b.FilterFits) (hp : a.pstate = b.pstate) (hf : a.afilt = b.afilt)
    (hr : a.role = b.role) : a.FilterFits := by
  simpa only [Block.FilterFits, hp, hf, hr] using hb

/-- Settles O54: a step keeps the row it started in, or enters another with the filter that row has. -/
theorem filterFollowsRoleAndState : Obligations.FilterFollowsRoleAndState := by
  intro i s t hi h
  have hs := filterFits_of_legal (legal_of_exec hi h)
  have ⟨_, hcommand, _, hprocess, _⟩ := hs
  change t.blk.FilterFits
  cases effect_of_exec h with
  | kept hb | responded _ _ _ hb | stored _ _ _ hb | firstSent _ hb =>
    exact filterFits_congr hs (hb ▸ rfl) (hb ▸ rfl) (hb ▸ rfl)
  | pushed k hb => exact filterFits_congr hs (by simp [hb]) (by simp [hb]) (by simp [hb])
  | popped _ hb => exact filterFits_congr hs (by rw [hb, pop_eq]) (by rw [hb, pop_eq]) (by rw [hb, pop_eq])
  | initialised _ _ _ _ hb | released _ hb | discarded _ _ hb => exact hb ▸ filterFits_inRequest _ _
  | consumed _ hp hr hb => simp [Block.FilterFits, hb, hr, hprocess hp]
  | requested _ _ _ hb => simp [Block.FilterFits, hb, sendLoad]
  | addressed _ _ _ hb => simp [Block.FilterFits, hb]
  | commanded _ _ _ hp hb => simp [Block.FilterFits, hb, hcommand hp]
  | completed _ _ _ hb => simp [Block.FilterFits, hb]
  | nextSent _ _ hb =>
    by_cases hp : s.blk.pstate = .command
    · rw [if_pos hp] at hb
      simp [Block.FilterFits, hb, txNext, hcommand hp]
    · rw [if_neg hp] at hb
      exact filterFits_congr hs (hb ▸ rfl) (hb ▸ rfl) (hb ▸ rfl)
  | lineToTx hi' | lineToRx hi' => rw [hi'] at hi; cases hi

/-! ### Reset (R45, R260) -/

/-- Settles O1: each is the value written at reset. -/
theorem resetHoldsTheStatedValues : Obligations.ResetHoldsTheStatedValues :=
  ⟨rfl, rfl, rfl, rfl, rfl, rfl, rfl, rfl⟩

/-- Settles O43: reset stands on the row INIT of the table, whatever the elements it leaves unspecified hold. -/
theorem resetMeetsTheTableOfStates : Obligations.ResetMeetsTheTableOfStates :=
  inv_of rfl nofun (wf_iff.mp wf_reset) (Nat.zero_le 8) ((onTable_init rfl).mpr ⟨rfl, rfl, rfl⟩) trivial

/-! ### The launch states UNKNOWN and RESET (R26, R28, R182 b) -/

section
variable {s : State} (hlost : s.blk.lost = true)
include hlost

/-- A lost block is in no protocol state that has a row of the table. -/
theorem pstate_ne_of_lost {p : PState} (hp : p ∈ [PState.init, .request, .command, .msgbody, .process, .response]) :
    s.blk.pstate ≠ p := by
  rintro rfl
  rw [not_lost_of_mem hp] at hlost
  cases hlost

/-- Every hardware event is a desynchronization (R28). -/
theorem exec_event_of_lost (hl : s.legal = true) {i : Instr} (hi : i.isEvent = true) :
    exec i s = .next (desync s.start) := by
  have hinit : s.blk.pstate ≠ .init := pstate_ne_of_lost hlost (by simp)
  obtain ⟨k, d, rfl⟩ | rfl | rfl | rfl | rfl := isEvent_iff.mp hi <;>
    simp [exec, execRxb, execTxc, execRxerr, execTmr, execDesync, guarded_legal hl, hinit, hlost]

/-- No operation but an event leaves the protocol state. -/
theorem pstate_of_lost {i : Instr} {t : State} (hi : i.isEvent = false) (h : exec i s = .next t) :
    t.blk.pstate = s.blk.pstate := by
  cases effect_of_exec h with
  | kept hb | responded _ _ _ hb | lineToTx _ hb => exact hb ▸ rfl
  | pushed k hb | lineToRx _ hb => simp [hb]
  | popped _ hb => rw [hb, pop_eq]
  | initialised _ _ _ hp | consumed _ hp | requested _ _ hp => exact absurd hp (pstate_ne_of_lost hlost (by simp))
  | released hi' =>
    obtain ⟨-, hp⟩ | rfl := hi'
    · exact absurd hp (pstate_ne_of_lost hlost (by simp))
    · cases hi
  | discarded k hi' => rw [hi] at hi'; cases hi'
  | addressed _ _ hi' | commanded _ _ hi' | stored _ _ hi' | completed _ _ hi' | firstSent hi' | nextSent hi' =>
    subst hi'; cases hi

end

/-- Settles O38: a lost block is in none of the states the application operations ask for. -/
theorem unknownStateIsLeftByEventsOnly : Obligations.UnknownStateIsLeftByEventsOnly := by
  intro s m role addr hl hp
  have hlost := lost_iff.mpr hp
  have hinit : s.blk.pstate ≠ .init := pstate_ne_of_lost hlost (by simp)
  have hrequest : s.blk.pstate ≠ .request := pstate_ne_of_lost hlost (by simp)
  have hprocess : s.blk.pstate ≠ .process := pstate_ne_of_lost hlost (by simp)
  have hresponse : s.blk.pstate ≠ .response := pstate_ne_of_lost hlost (by simp)
  refine ⟨fun i hi => ?_, ?_, ?_, ?_, ?_, ?_, fun i t => pstate_of_lost hlost⟩
  · rw [exec_event_of_lost hlost hl hi, desync_eq]
    rfl
  · have havail : s.blk.available = false := by simpa [Block.available] using hprocess
    exact (guarded_legal hl _).trans (by rw [havail]; rfl)
  · exact (guarded_legal hl _).trans (if_pos hprocess)
  · exact (guarded_legal hl _).trans (if_pos fun h => hrequest h.1)
  · exact (guarded_legal hl _).trans (if_pos (by simp [Block.respondEligible, hresponse]))
  · exact (guarded_legal hl _).trans (if_pos hinit)

end Sys2Proof.Machine
end

section
/-! PROOFS of the statements of 20_memory.md: the receive store at the cursor (O31). -/

namespace Sys2Proof.Machine

/-! ### The receive store (R69, R189) -/

/-- An unmarked character that is not the last is stored, and the frame is not complete. -/
theorem rxBody_of_not_last {s : State} (hr : s.blk.remain ≠ 1) (b : Byte) : rxBody false b s = rxStore b s := by
  have hmore : (rxStore b s).blk.remain ≠ 0 := fun h => hr (BitVec.sub_eq_iff_eq_add.mp h)
  simp only [rxBody, Bool.false_eq_true, if_false, if_neg hmore]

section
variable {s : State} (hl : s.legal = true) (hp : s.blk.pstate = .msgbody) (hd : s.blk.dir = .rx)
include hl hp hd

/-- The dispatch of R185 reaches the line of R189: the reception has begun, so the filter is off. -/
theorem exec_rxb_msgbody (k : Bool) (b : Byte) : exec (.rxb k b) s = .next (rxBody k b s.start) := by
  obtain ⟨haf, -⟩ := body_facts hl hp hd
  simp [exec, execRxb, guarded_legal hl, Block.lost, hp, hd, haf]

/-- Neither counter wraps while a body is received. -/
theorem counters_of_receiving_body :
    (s.blk.cursor + 1).toNat = s.blk.cursor.toNat + 1 ∧ (s.blk.remain - 1).toNat + 1 = s.blk.remain.toNat := by
  obtain ⟨-, hr⟩ := room_of_receiving_body hl hp hd
  obtain ⟨-, -, -, -, hc, -⟩ := body_facts hl hp hd
  obtain ⟨-, hmax, -⟩ := rxLen_bounds (legal_iff.mp hl).1 s.blk.role
  constructor <;> bv_omega

end

/-- Settles O31: the step is the receive store, whose index exists because a reception under way has room. -/
theorem bodyByteIsStoredAtTheCursor : Obligations.BodyByteIsStoredAtTheCursor := by
  intro s b hl hp hd hr
  obtain ⟨hcursor, hremain⟩ := counters_of_receiving_body hl hp hd
  have hroom : s.blk.cursor.toNat < s.blk.frame.length := by
    obtain ⟨-, -, hf, -⟩ := legal_iff.mp hl
    exact hf ▸ (room_of_receiving_body hl hp hd).1
  have hstep : exec (.rxb false b) s = .next (rxStore b s.start) := by
    rw [exec_rxb_msgbody hl hp hd, rxBody_of_not_last (s := s.start) hr]
  exact ⟨rxStore b s.start, hstep, rfl, hcursor, hremain, read_write_self hroom b,
    fun _ hj => read_write_ne hj b⟩

end Sys2Proof.Machine
end

section
/-! PROOFS of the statements of 30_encoding.md: decoder and encoder are inverse to each other (O5, O6), what the decoder
refuses (O7), the numbers of the codes (O2), ten written words (O4) and AVAIL (O22). -/

namespace Sys2Proof.Machine

/-! ### The decoder reads back what the encoder writes (R88 to R90) -/

/-- The round trip, row by row of the table. -/
theorem roundTrip : ∀ i : Instr, Laws.RoundTrip.Statement i
  | .init role addr => Laws.RoundTrip.init role addr
  | .avail => Laws.RoundTrip.avail
  | .consume => Laws.RoundTrip.consume
  | .isresp m => Laws.RoundTrip.isresp m
  | .respond m => Laws.RoundTrip.respond m
  | .send m => Laws.RoundTrip.send m
  | .errpush c => Laws.RoundTrip.errpush c
  | .errpop => Laws.RoundTrip.errpop
  | .errpeek => Laws.RoundTrip.errpeek
  | .errovf => Laws.RoundTrip.errovf
  | .rxb k d => Laws.RoundTrip.rxb k d
  | .txc => Laws.RoundTrip.txc
  | .rxerr => Laws.RoundTrip.rxerr
  | .tmr => Laws.RoundTrip.tmr
  | .desync => Laws.RoundTrip.desync
  | .crc16 l => Laws.RoundTrip.crc16 l
  | .crcvfy l => Laws.RoundTrip.crcvfy l
  | .encode n m => Laws.RoundTrip.encode n m
  | .decode l => Laws.RoundTrip.decode l
  | .dirtx => Laws.RoundTrip.dirtx
  | .dirrx => Laws.RoundTrip.dirrx

/-- Settles O5: the round trip of each row. -/
theorem decodeOfEncodeIsTheInstruction : Obligations.DecodeOfEncodeIsTheInstruction :=
  fun i rest h => roundTrip i h rest

/-! ### The decoder reads nothing else (R88, R89, R92) -/

/-- The word of these three fields and then `bs` are the encoding of `i` and then `rest`, and `i` is well formed. -/
def Spells (o : BitVec 5) (f : Bool) (b : Byte) (bs : List Byte) (i : Instr) (rest : List Byte) : Prop :=
  i.wf = true ∧ encodePlain o f b ++ bs = encode i ++ rest

section
variable {o : BitVec 5} {f : Bool} {b : Byte} {bs rest : List Byte} {j : Instr}

theorem spells_of_formatZ {i : Instr} (hw : i.wf = true) (he : encode i = encodePlain o false 0)
    (h : formatZ i f b bs = some (j, rest)) : Spells o f b bs j rest := by
  obtain ⟨rfl, rfl, rfl, rfl⟩ := formatZ_eq_some h
  exact ⟨hw, by rw [he]⟩

theorem spells_of_formatB {mk : Byte → Instr} (hw : ∀ b, (mk b).wf = true)
    (he : ∀ b, encode (mk b) = encodePlain o false b) (h : formatB mk f b bs = some (j, rest)) :
    Spells o f b bs j rest := by
  obtain ⟨rfl, rfl, rfl⟩ := formatB_eq_some h
  exact ⟨hw b, by rw [he]⟩

theorem spells_of_formatFB {mk : Bool → Byte → Instr} (hw : ∀ f b, (mk f b).wf = true)
    (he : ∀ f b, encode (mk f b) = encodePlain o f b) (h : formatFB mk f b bs = some (j, rest)) :
    Spells o f b bs j rest := by
  obtain ⟨rfl, rfl⟩ := formatFB_eq_some h
  exact ⟨hw f b, by rw [he]⟩

theorem spells_of_formatM {mk : Msg → Instr} (hw : ∀ m, (mk m).wf = m.wf)
    (he : ∀ m, encode (mk m) = encodePlain o false 0 ++ encodeMsg m) (h : formatM mk f b bs = some (j, rest)) :
    Spells o f b bs j rest := by
  obtain ⟨rfl, rfl, m, rfl, hm, rfl⟩ := formatM_eq_some h
  exact ⟨(hw m).trans hm, by rw [he, List.append_assoc]⟩

theorem spells_of_formatBM {mk : Byte → Msg → Instr} (hw : ∀ b m, (mk b m).wf = m.wf)
    (he : ∀ b m, encode (mk b m) = encodePlain o false b ++ encodeMsg m) (h : formatBM mk f b bs = some (j, rest)) :
    Spells o f b bs j rest := by
  obtain ⟨rfl, m, rfl, hm, rfl⟩ := formatBM_eq_some h
  exact ⟨(hw b m).trans hm, by rw [he, List.append_assoc]⟩

theorem spells_of_formatBL {mk : List Byte → Instr} (hw : ∀ l, (mk l).wf = listWf l)
    (he : ∀ l, encode (mk l) = encodeBL o l) (h : formatBL mk f b bs = some (j, rest)) :
    Spells o f b bs j rest := by
  obtain ⟨rfl, l, rfl, hl, rfl, rfl⟩ := formatBL_eq_some h
  exact ⟨(hw l).trans hl, by rw [he, encodeBL, List.append_assoc]⟩

/-- A selector is the literal that its row of the table names. -/
theorem eq_ofNat_of_toNat_eq {n : Nat} (h : o.toNat = n) : o = BitVec.ofNat 5 n := by
  rw [← h, BitVec.ofNat_toNat, BitVec.setWidth_eq]

/-- Each row of the table reads only what the encoder writes for its operation; the other selectors read nothing. -/
theorem spells_of_decodeRow (h : decodeRow o f b bs = some (j, rest)) : Spells o f b bs j rest := by
  unfold decodeRow at h
  split at h
  case h_22 => cases h
  all_goals
    rename_i ho
    obtain rfl := eq_ofNat_of_toNat_eq ho
  case h_1 => exact spells_of_formatFB (fun _ _ => rfl) (fun f _ => by cases f <;> rfl) h
  case h_11 => exact spells_of_formatFB (fun _ _ => rfl) (fun _ _ => rfl) h
  case h_7 => exact spells_of_formatB (fun _ => rfl) (fun _ => rfl) h
  case h_4 | h_5 | h_6 => exact spells_of_formatM (fun _ => rfl) (fun _ => rfl) h
  case h_18 => exact spells_of_formatBM (fun _ _ => rfl) (fun _ _ => rfl) h
  case h_16 | h_17 | h_19 => exact spells_of_formatBL (fun _ => rfl) (fun _ => rfl) h
  all_goals exact spells_of_formatZ rfl rfl h

end

/-- A word that decodes has its bits 10:9 zero, so it is made of its three fields. -/
theorem spells_of_decodeWord {w : Word} {bs rest : List Byte} {i : Instr} (h : decodeWord w bs = some (i, rest)) :
    i.wf = true ∧ wordBytes w ++ bs = encode i ++ rest := by
  unfold decodeWord at h
  split at h
  · next hz =>
    have hs := spells_of_decodeRow h
    rwa [Spells, encodePlain, mkWord_fields hz] at hs
  · cases h

/-- Settles O6: a stream that decodes is a word and the bytes after it. -/
theorem encodeOfDecodeIsTheBytes : Obligations.EncodeOfDecodeIsTheBytes := by
  intro bs i rest h
  match bs with
  | [] | [_] => cases h
  | hi :: lo :: tl =>
    have hs := spells_of_decodeWord h
    rwa [wordBytes, hiByte_wordOf, loByte_wordOf] at hs

/-! ### Reserved stimuli (R92) -/

/-- The reserved stimuli that R92 lists, as a word and the bytes after it. -/
def Reserved (w : Word) (bs : List Byte) : Prop :=
  (opselOf w).toNat ∈ [10, 11, 12, 13, 14, 15, 21, 22, 23, 30, 31] ∨
  zeroOf w ≠ 0 ∨
  ((opselOf w).toNat ∈ [1, 2, 3, 4, 5, 7, 8, 9, 17, 18, 19, 20] ∧ (fOf w = true ∨ loByte w ≠ 0)) ∨
  ((opselOf w).toNat ∈ [6, 24, 25, 26, 27] ∧ fOf w = true) ∨
  ((opselOf w).toNat ∈ [3, 4, 5, 26] ∧
    (bs.length < 4 ∨ (bs.getD 1 0).extractLsb' 1 7 ≠ 0 ∨ bs.length < 4 + (bs.getD 3 0).toNat)) ∨
  ((opselOf w).toNat ∈ [24, 25, 27] ∧ bs.length < (loByte w).toNat) ∨
  (opselOf w).toNat = 28 ∨ (opselOf w).toNat = 29

/-- A stream splits into its word and the bytes after it in one way. -/
theorem wordBytes_append_inj {w w' : Word} {bs bs' : List Byte} (h : wordBytes w ++ bs = wordBytes w' ++ bs') :
    w = w' ∧ bs = bs' := by
  obtain ⟨hhi, hlo, hbs⟩ : hiByte w = hiByte w' ∧ loByte w = loByte w' ∧ bs = bs' := by simpa [wordBytes] using h
  exact ⟨by rw [← wordOf_bytes w, hhi, hlo, wordOf_bytes], hbs⟩

/-- A message operand has four bytes and as many as its count, and bits 7:1 of its flags are zero (R89). -/
theorem encodeMsg_shape {m : Msg} (h : m.wf = true) (rest : List Byte) :
    4 ≤ (encodeMsg m ++ rest).length ∧ ((encodeMsg m ++ rest).getD 1 0).extractLsb' 1 7 = 0 ∧
    4 + ((encodeMsg m ++ rest).getD 3 0).toNat ≤ (encodeMsg m ++ rest).length := by
  have hcount := toNat_length (of_decide_eq_true h)
  refine ⟨by simp [encodeMsg], ?_, ?_⟩
  · cases hr : m.rr <;> simp [encodeMsg, hr]
  · simp only [encodeMsg, List.cons_append, List.getD_cons_succ, List.getD_cons_zero, hcount, List.length_cons,
      List.length_append]
    omega

/-- No reserved stimulus begins with the encoding of an operation, an internal one apart. -/
theorem not_reserved_of_encode {w : Word} {bs rest : List Byte} {i : Instr} (hw : i.wf = true)
    (hi : i.internal = false) (h : wordBytes w ++ bs = encode i ++ rest) : ¬ Reserved w bs := by
  cases i with
  | isresp m | respond m | send m | encode n m =>
    rw [encode, List.append_assoc] at h
    obtain ⟨rfl, rfl⟩ := wordBytes_append_inj h
    simpa [Reserved] using encodeMsg_shape hw rest
  | crc16 l | crcvfy l | decode l =>
    rw [encode, encodeBL, List.append_assoc] at h
    obtain ⟨rfl, rfl⟩ := wordBytes_append_inj h
    have hcount := toNat_length (of_decide_eq_true hw)
    simp [Reserved, hcount]
  | dirtx | dirrx => cases hi
  | _ =>
    obtain ⟨rfl, rfl⟩ := wordBytes_append_inj h
    simp [Reserved]

theorem decodeStimulus_of_reserved {w : Word} {bs : List Byte} (hr : Reserved w bs) :
    decodeStimulus (wordBytes w ++ bs) = none := by
  by_contra hsome
  obtain ⟨⟨i, rest⟩, h⟩ := Option.ne_none_iff_exists'.mp hsome
  obtain ⟨hdec, hi⟩ := decodeStimulus_eq_some.mp h
  obtain ⟨hw, hbytes⟩ := encodeOfDecodeIsTheBytes _ _ _ hdec
  exact not_reserved_of_encode hw hi hbytes hr

/-- What the host port does not decode is refused. -/
theorem step_of_decodeStimulus_none {s : State} (h : decodeStimulus s.input = none) : ∃ r, step s = .refused r := by
  cases hb : s.input with
  | nil => exact ⟨.noOperation, by simp [step, present, hb]⟩
  | cons b bs => rw [hb] at h; exact ⟨_, by simp only [step, present, hb, h]; rfl⟩

/-- Settles O7: a stimulus that decodes is an encoding (O6), and no encoding is reserved. -/
theorem reservedStimuliAreRefused : Obligations.ReservedStimuliAreRefused := by
  intro w bs hr
  have hnone := decodeStimulus_of_reserved hr
  exact ⟨hnone, fun s hs => step_of_decodeStimulus_none (hs ▸ hnone)⟩

/-! ### The numbers of the codes (R91) -/

/-- The codes number the constructors in their order, from 1. -/
theorem code_injective : Function.Injective ErrCode.code :=
  Function.LeftInverse.injective (g := fun b => ErrCode.ofNat (b.toNat - 1)) fun e => by cases e <;> rfl

/-- Settles O2: each value is the listed one, and numbering the codes loses none. -/
theorem errorCodesAreNumberedAsListed : Obligations.ErrorCodesAreNumberedAsListed :=
  ⟨rfl, rfl, rfl, rfl, rfl, rfl, rfl, rfl, rfl, rfl, rfl, fun _ _ h => code_injective h⟩

/-! ### Written words and AVAIL (R90, R153) -/

/-- Settles O4: ten closed runs of the decoder. -/
theorem listedWordsDecodeToTheirOperations : Obligations.ListedWordsDecodeToTheirOperations := by
  unfold Obligations.ListedWordsDecodeToTheirOperations
  decide

/-- Settles O22: AVAIL is a format Z word, and at a legal state its guard passes. -/
theorem availAnswersWhetherAFrameWaits : Obligations.AvailAnswersWhetherAFrameWaits := fun _ rest hl =>
  ⟨decodeStimulus_formatZ .avail 1 (by decide) rest (fun _ _ _ => rfl) rfl, guarded_legal hl _⟩

end Sys2Proof.Machine
end

section
/-! PROOFS of the statements of 40_crc16.md: the default CRC changes under every single-bit inversion (O9), the queries
change nothing (O52), and what CRC16 and CRCVFY answer (O8). -/

namespace Sys2Proof.Machine

/-! ### Single-bit inversions (R112, R113) -/

/-- From any CRC state, a list and the list with one bit inverted end in different CRC states: the inverted byte makes the
states differ, and equal bytes keep them different. -/
theorem crcFold_flipBit_ne {k : Nat} (hk : k < 8) : ∀ (bs : List Byte) (i : Nat) (c : Word), i < bs.length →
    (flipBit bs i k).foldl crcByte c ≠ bs.foldl crcByte c
  | _ :: bs, 0, _, _ => fun h => flip_ne hk (crcByte_byte_injective (crcFold_injective bs h))
  | b :: bs, i + 1, c, hi => crcFold_flipBit_ne hk bs i (crcByte c b) (Nat.lt_of_succ_lt_succ hi)

/-- The default function is the fold of its byte step. -/
theorem crc16_of_modbus {c : Cfg} (hc : c.crcFn = .modbus) (bs : List Byte) :
    crc16 c bs = bs.foldl crcByte 0xFFFF#16 := by
  rw [crc16, hc]
  rfl

/-- Settles O9: the default CRC folds its byte step from one state, and from any state the inversion shows. -/
theorem defaultCrcDetectsEverySingleBitFlip : Obligations.DefaultCrcDetectsEverySingleBitFlip := by
  intro c hc bs i k hi hk
  rw [crc16_of_modbus hc, crc16_of_modbus hc]
  exact crcFold_flipBit_ne hk bs i 0xFFFF#16 hi

/-! ### The queries (R68) -/

/-- Settles O52: a query that completes only answers. -/
theorem queriesChangeNothing : Obligations.QueriesChangeNothing := by
  intro i s t hi h
  obtain ⟨-, r, rfl⟩ := exec_pure hi h
  rfl

/-! ### CRC16 and CRCVFY (R114, R115) -/

/-- The comparison CRCVFY makes on a span and the two bytes after it, low byte first. -/
theorem crcVerify_span (c : Cfg) (span : List Byte) (lo hi : Byte) : crcVerify c (span ++ [lo, hi]) =
    decide (crc16 c span = lo.setWidth 16 ||| (hi.setWidth 16 <<< 8)) := by
  rw [crcVerify_append, or_eq_wordOf]
  rfl

/-- Settles O8: both are format BL words, and at a legal state the guard passes and the length decides. -/
theorem crcQueriesAnswerTheFunction : Obligations.CrcQueriesAnswerTheFunction := by
  intro s bs rest hl hlen
  have hwf : listWf bs = true := decide_eq_true hlen
  refine ⟨decodeStimulus_formatBL .crc16 0b11000 bs (word_eq_mkWord _ _ _) rest hwf (fun _ _ _ => rfl) rfl,
    decodeStimulus_formatBL .crcvfy 0b11001 bs (word_eq_mkWord _ _ _) rest hwf (fun _ _ _ => rfl) rfl,
    guarded_legal hl _, fun hshort => (guarded_legal hl _).trans (if_pos hshort), ?_⟩
  rintro span lo hi rfl
  have hlong : ¬ (span ++ [lo, hi]).length < 2 := by simp
  rw [← crcVerify_span]
  exact (guarded_legal hl _).trans (if_neg hlong)

end Sys2Proof.Machine
end

section
/-! PROOFS of the statements of 41_frame_codec.md: the wire layout of a frame (O10), the three checks (O11), the queries
ENCODE (O12) and DECODE (O13), the round trip through a frame (O14) and through a node that receives it (O58). The fields
of a frame are read once, from its bytes in order (`decodeFrame_bytes`). A reception is a prefix of the frame in the buffer
(`Block.receiving`), each character adds its byte (`exec_rxb_receiving`), and the last one classifies the frame
(`runOps_reception`). -/

namespace Sys2Proof.Machine

/-! ### The wire layout (R121, R137) -/

/-- The address byte written with masks and shifts (R84). -/
theorem addressByte_eq_or (rr : Bool) (a : Byte) :
    addressByte rr a = ((BitVec.ofBool rr).setWidth 8 <<< 7) ||| (a &&& 0x7F) := by
  revert rr a; decide

/-- The parameters of a frame, padded with zeros (R121). -/
def paddedParams (ps : List Byte) (n : Nat) : List Byte := (List.range n).map fun i => ps.getD i 0

@[simp] theorem length_paddedParams (ps : List Byte) (n : Nat) : (paddedParams ps n).length = n := by
  simp [paddedParams]

/-- A list that fits is padded at its end. -/
theorem paddedParams_eq_append {ps : List Byte} {n : Nat} (h : ps.length ≤ n) :
    paddedParams ps n = ps ++ List.replicate (n - ps.length) 0 := by
  refine List.ext_getElem (by simp [h]) fun i hi _ => ?_
  by_cases hp : i < ps.length
  · simp [paddedParams, hp, List.getD_eq_getElem?_getD]
  · simp [paddedParams, List.getElem_append_right (Nat.le_of_not_lt hp), Nat.le_of_not_lt hp,
      List.getD_eq_getElem?_getD]

/-- A frame's bytes in order. -/
theorem encodeFrame_eq_bytes (c : Cfg) (m : Msg) (n : Nat) :
    encodeFrame c m n = addressByte m.rr m.address :: m.command :: paddedParams m.params n ++
      [loByte (crc16 c (frameSpan m n)), hiByte (crc16 c (frameSpan m n))] := rfl

/-- Settles O10: each byte is read off the frame's bytes in order. -/
theorem encodedFrameHasTheWireLayout : Obligations.EncodedFrameHasTheWireLayout := by
  intro c m n
  refine ⟨length_encodeFrame c m n, ?_, rfl, fun i hi => ?_, ?_, ?_, length_frameImage c m n, fun i hi => ?_⟩
  · rw [← addressByte_eq_or]
    rfl
  · have hpad : (if i < m.params.length then m.params.getD i 0 else 0) = m.params.getD i 0 :=
      ite_eq_left_iff.mpr fun h => (List.getD_eq_default _ _ (Nat.le_of_not_lt h)).symm
    rw [hpad, encodeFrame_eq_bytes, Nat.add_comm]
    simp [paddedParams, hi, List.getElem?_append_left]
  · rw [take_encodeFrame]
    simp [encodeFrame, loByte]
  · rw [take_encodeFrame]
    simp [encodeFrame, hiByte]
  · have hzero : (if i < n + 4 then (encodeFrame c m n).getD i 0 else 0) = (encodeFrame c m n).getD i 0 :=
      ite_eq_left_iff.mpr fun h => (List.getD_eq_default _ _ (by simpa using h)).symm
    rw [hzero]
    simp [frameImage, hi]

/-! ### The three checks (R123, R124) -/

/-- Settles O11: along the three checks in their order; an address out of range is not the broadcast address. -/
theorem validateReportsTheFirstFailingCheck : Obligations.ValidateReportsTheFirstFailingCheck := by
  intro m n
  by_cases hrange : 127 < m.address.toNat
  · have hv : validate m n = some .addressInvalid := if_pos hrange
    have hzero : m.address ≠ 0 := by
      intro h
      simp [h] at hrange
    simpa [hv, hrange] using fun h => absurd h hzero
  by_cases hbroadcast : m.address = 0 ∧ m.rr = true
  · have hv : validate m n = some .broadcastNoResponse := (if_neg hrange).trans (if_pos hbroadcast)
    simp [hv, hbroadcast]
  by_cases hsize : n < m.params.length
  · have hv : validate m n = some .invalidParamSize :=
      (if_neg hrange).trans ((if_neg hbroadcast).trans (if_pos hsize))
    simpa [hv, hsize, Nat.le_of_not_lt hrange] using hbroadcast
  · have hv : validate m n = none := (if_neg hrange).trans ((if_neg hbroadcast).trans (if_neg hsize))
    simpa [hv, Nat.le_of_not_lt hrange, Nat.le_of_not_lt hsize] using hbroadcast

/-! ### ENCODE (R122) -/

/-- Settles O12: a format BM word, and at a legal state the guard passes, the count is tested, and `validate` decides. -/
theorem encodeQueryAnswersStatusAndFrame : Obligations.EncodeQueryAnswersStatusAndFrame := by
  intro s n m rest hl hlen
  refine ⟨decodeStimulus_formatBM .encode 0b11010 n (word_eq_mkWord _ _ _) m rest (decide_eq_true hlen)
    (fun _ _ _ => rfl) rfl, fun hcount => (guarded_legal hl _).trans (if_pos hcount), fun hcount e he => ?_,
    fun hcount hv => ?_⟩
  · refine (guarded_legal hl _).trans ((if_neg (Nat.not_lt.mpr hcount)).trans ?_)
    rw [he]
    rfl
  · refine (guarded_legal hl _).trans ((if_neg (Nat.not_lt.mpr hcount)).trans ?_)
    rw [hv]
    rfl

/-! ### DECODE (R125, R126) -/

/-- The broadcast check and the fields of a frame, from its bytes in order (R125). -/
theorem decodeFrame_bytes (b0 b1 lo hi : Byte) (params : List Byte) :
    decodeFrame (b0 :: b1 :: params ++ [lo, hi]) params.length =
      (if b0 = 0x80 then some .broadcastNoResponse else none, {
        address := (b0.extractLsb' 0 7).setWidth 8
        rr := b0.getLsbD 7
        command := b1
        params := params
        crc16 := wordOf hi lo }) := by
  refine Prod.ext (if_congr (broadcast_rr_iff b0) rfl rfl) ?_
  simp [decodeFrame, messageView, crcField, List.getD_eq_getElem?_getD]

/-- Settles O13: a format BL word, and at a legal state the guard passes and the length decides. -/
theorem decodeQueryReturnsTheFields : Obligations.DecodeQueryReturnsTheFields := by
  intro s bs rest hl hlen
  refine ⟨decodeStimulus_formatBL .decode 0b11011 bs (word_eq_mkWord _ _ _) rest (decide_eq_true hlen)
    (fun _ _ _ => rfl) rfl, fun hshort => (guarded_legal hl _).trans (if_pos hshort), ?_⟩
  rintro b0 b1 lo hi params rfl
  have hlong : ¬ (b0 :: b1 :: params ++ [lo, hi]).length < 4 := by simp
  have hn : (b0 :: b1 :: params ++ [lo, hi]).length - 4 = params.length := by simp
  refine (guarded_legal hl _).trans ((if_neg hlong).trans ?_)
  rw [hn, decodeFrame_bytes, or_eq_wordOf]
  split <;> rfl

/-! ### The round trip through a frame (R127) -/

/-- Decoding the frame of a valid message gives its fields back, and no broadcast with the flag. -/
theorem decodeFrame_encodeFrame {m : Msg} {n : Nat} (hv : validate m n = none) (c : Cfg) :
    decodeFrame (encodeFrame c m n) n = (none, {
      address := m.address
      rr := m.rr
      command := m.command
      params := m.params ++ List.replicate (n - m.params.length) 0
      crc16 := crc16 c (frameSpan m n) }) := by
  obtain ⟨haddr, -, hsize⟩ := validate_none.mp hv
  have h := decodeFrame_bytes (addressByte m.rr m.address) m.command (loByte (crc16 c (frameSpan m n)))
    (hiByte (crc16 c (frameSpan m n))) (paddedParams m.params n)
  rw [length_paddedParams, ← encodeFrame_eq_bytes, if_neg (addressByte_ne hv)] at h
  rw [h, addressByte_address, address_of_low7 haddr, addressByte_rr, wordOf_bytes, paddedParams_eq_append hsize]

theorem messageView_encodeFrame {m : Msg} {n : Nat} (hv : validate m n = none) (c : Cfg) :
    messageView (encodeFrame c m n) n = {
      address := m.address
      rr := m.rr
      command := m.command
      params := m.params ++ List.replicate (n - m.params.length) 0
      crc16 := crc16 c (frameSpan m n) } :=
  congrArg Prod.snd (decodeFrame_encodeFrame hv c)

/-- Settles O14: the round trip, and the second check of O11, which a broadcast with the flag fails. -/
theorem decodeInvertsEncodeOfAValidMessage : Obligations.DecodeInvertsEncodeOfAValidMessage := by
  intro c m n
  refine ⟨fun hv => ⟨?_, crcVerify_encodeFrame c m n⟩, fun ha hr => ?_⟩
  · rw [take_encodeFrame]
    exact decodeFrame_encodeFrame hv c
  · exact (validateReportsTheFirstFailingCheck m n).2.1.mpr ⟨ha, hr⟩

/-! ### Runs of several operations (R73) -/

theorem runOps_nil (s : State) : runOps [] s = some (s, []) := rfl

theorem runOps_cons {i : Instr} {is : List Instr} {s t u : State} {as : List Action} (h : exec i s = .next t)
    (hr : runOps is t = some (u, as)) : runOps (i :: is) s = some (u, t.actions ++ as) := by
  simp [runOps, h, hr]

theorem runOps_append {js : List Instr} {t u : State} {bs : List Action} (hj : runOps js t = some (u, bs)) :
    ∀ {is : List Instr} {s : State} {as : List Action}, runOps is s = some (t, as) →
      runOps (is ++ js) s = some (u, as ++ bs)
  | [], s, as, h => by
    cases h
    exact hj
  | i :: is, s, as, h => by
    cases he : exec i s with
    | next s' =>
      simp only [runOps, he, Option.map_eq_some_iff] at h
      obtain ⟨⟨t', as'⟩, hr, heq⟩ := h
      cases heq
      rw [List.cons_append, runOps_cons he (runOps_append hj hr), List.append_assoc]
    | fault r => cases r
    | refused r => simp [runOps, he] at h

/-! ### A frame in the course of reception (R69, R186, R187, R189, R190) -/

/-- The state a silent step that returns nothing ends in, with the block it leaves. -/
def State.into (s : State) (b : Block) : State := { s.start with blk := b }

@[simp] theorem into_cfg (s : State) (b : Block) : (s.into b).cfg = s.cfg := rfl
@[simp] theorem into_blk (s : State) (b : Block) : (s.into b).blk = b := rfl
@[simp] theorem into_actions (s : State) (b : Block) : (s.into b).actions = [] := rfl
@[simp] theorem into_start (s : State) (b : Block) : (s.into b).start = s.into b := rfl

/-- The buffer with the bytes received so far at its front, zeros after them. -/
def storedBytes (c : Cfg) (got : List Byte) : Memory := got ++ List.replicate (c.lMax - got.length) 0

/-- A block that received these leading bytes of a frame since it idled in REQUEST. -/
def Block.receiving (c : Cfg) (b : Block) (got : List Byte) : Block :=
  { b with
    frame := storedBytes c got
    cursor := BitVec.ofNat 8 got.length
    remain := BitVec.ofNat 8 (rxLen c b.role - got.length)
    inuse := true
    afilt := false
    pstate := if got.length = 1 then .command else .msgbody }

/-- A block that idled in REQUEST and holds a whole frame received (R44, row PROCESS). -/
def Block.holding (c : Cfg) (b : Block) (frame : List Byte) : Block :=
  { b.receiving c frame with afilt := true, pstate := .process }

/-- What the last byte makes of the frame received (R190). -/
def Block.received (c : Cfg) (b : Block) (frame : List Byte) : Block :=
  if crcVerify c frame = false then (b.push 8).inRequest c
  else if frame.getD 0 0 = 0x80 then (b.push 5).inRequest c
  else b.holding c frame

section
variable {c : Cfg} {got : List Byte}

theorem length_storedBytes (h : got.length ≤ c.lMax) : (storedBytes c got).length = c.lMax := by
  simp [storedBytes, h]

theorem take_storedBytes : (storedBytes c got).take got.length = got := by simp [storedBytes]

theorem byte0_storedBytes (h : 0 < got.length) : (storedBytes c got).byte 0 = got.getD 0 0 := by
  simp [storedBytes, Memory.byte, List.getD_eq_getElem?_getD, List.getElem?_append_left h]

theorem zeroFrom_storedBytes : (storedBytes c got).zeroFrom got.length = true := by
  simp [storedBytes, Memory.zeroFrom]

/-- The next byte is written over the first of the zeros. -/
theorem write_storedBytes (h : got.length < c.lMax) (d : Byte) :
    (storedBytes c got).write got.length d = storedBytes c (got ++ [d]) := by
  have hzeros : c.lMax - got.length = (c.lMax - (got ++ [d]).length) + 1 := by
    simp
    omega
  simp [storedBytes, Memory.write, hzeros, List.replicate_succ]

end

/-- REQUEST keeps nothing of a frame in the course of reception. -/
theorem inRequest_push_receiving (c : Cfg) (k : Byte) (b : Block) (got : List Byte) :
    ((b.receiving c got).push k).inRequest c = (b.push k).inRequest c := by
  by_cases h : b.sp.toNat < 8 <;> simp [Block.push, Block.inRequest, Block.receiving, h]

section
variable {s : State} (hl : s.legal = true) (hp : s.blk.pstate = .request)

section
include hl

/-- No counter wraps while a frame is received (R35). -/
theorem counters_receiving {got : List Byte} (h : got.length ≤ rxLen s.cfg s.blk.role) :
    (s.blk.receiving s.cfg got).cursor.toNat = got.length ∧
      (s.blk.receiving s.cfg got).remain.toNat = rxLen s.cfg s.blk.role - got.length := by
  obtain ⟨-, hmax, -⟩ := rxLen_bounds (legal_iff.mp hl).1 s.blk.role
  constructor <;> simp only [Block.receiving, BitVec.toNat_ofNat] <;> omega

/-- The receive store in MSGBODY adds the byte to those received (R69). -/
theorem rxStore_receiving {got : List Byte} (h2 : 2 ≤ got.length) (h : got.length < rxLen s.cfg s.blk.role) (d : Byte) :
    rxStore d (s.into (s.blk.receiving s.cfg got)) = s.into (s.blk.receiving s.cfg (got ++ [d])) := by
  obtain ⟨-, hmax, hmem⟩ := rxLen_bounds (legal_iff.mp hl).1 s.blk.role
  obtain ⟨hcursor, hremain⟩ := counters_receiving hl h.le
  obtain ⟨hcursor', hremain'⟩ := counters_receiving hl (got := got ++ [d]) (by simpa using h)
  have hc : (s.blk.receiving s.cfg got).cursor + 1 = (s.blk.receiving s.cfg (got ++ [d])).cursor := by
    apply BitVec.eq_of_toNat_eq
    rw [BitVec.toNat_add, hcursor, hcursor', List.length_append]
    exact Nat.mod_eq_of_lt (show got.length + 1 < 256 by omega)
  have hr : (s.blk.receiving s.cfg got).remain - 1 = (s.blk.receiving s.cfg (got ++ [d])).remain := by
    rw [BitVec.sub_eq_iff_eq_add]
    apply BitVec.eq_of_toNat_eq
    rw [BitVec.toNat_add, hremain, hremain', List.length_append]
    change _ = (rxLen s.cfg s.blk.role - (got.length + 1) + 1) % 256
    omega
  have hone : got.length ≠ 1 := by omega
  have hnil : got ≠ [] := List.ne_nil_of_length_pos (by omega)
  have hf : (s.blk.receiving s.cfg got).frame.write got.length d = (s.blk.receiving s.cfg (got ++ [d])).frame :=
    write_storedBytes (by omega) d
  rw [rxStore, into_blk, hcursor, hc, hr, hf]
  simp [State.into, State.start, Block.receiving, hone, hnil]

end

include hl hp

/-- While bytes are to come the block is on the row COMMAND or MSGBODY of the table. -/
theorem legal_receiving {got : List Byte} (h1 : 1 ≤ got.length) (h2 : got.length < rxLen s.cfg s.blk.role) :
    (s.into (s.blk.receiving s.cfg got)).legal = true := by
  obtain ⟨hc, hv, -, hsp, ht, -⟩ := legal_iff.mp hl
  obtain ⟨hdir, htxph, -⟩ := (onTable_request hp).mp ht
  obtain ⟨-, -, hmem⟩ := rxLen_bounds hc s.blk.role
  obtain ⟨hcursor, hremain⟩ := counters_receiving hl h2.le
  refine legal_iff.mpr ⟨hc, hv, length_storedBytes (by omega), fun _ => hsp (by simp [Block.lost, hp]), ?_, ?_⟩
  · by_cases hcmd : got.length = 1
    · have hcommand : (s.blk.receiving s.cfg got).pstate = .command := if_pos hcmd
      exact (onTable_command hcommand).mpr ⟨rfl, rfl, .inl ⟨hdir, htxph, hcmd ▸ hcursor, hcmd ▸ hremain⟩⟩
    · have hbody : (s.blk.receiving s.cfg got).pstate = .msgbody := if_neg hcmd
      refine (onTable_msgbody hbody).mpr ⟨rfl, rfl, .inl ⟨hdir, htxph, ?_⟩⟩
      rw [hcursor, hremain]
      change _ ∧ got.length ≤ rxLen s.cfg s.blk.role - 1 ∧ _ = rxLen s.cfg s.blk.role
      omega
  · by_cases hcmd : got.length = 1
    · have hcommand : (s.blk.receiving s.cfg got).pstate = .command := if_pos hcmd
      have hnone : (s.blk.receiving s.cfg got).txph = .none := htxph
      simp only [into_blk, Block.frameOnTable, hcommand, hnone, if_true]
      exact hcmd ▸ zeroFrom_storedBytes
    · have hbody : (s.blk.receiving s.cfg got).pstate = .msgbody := if_neg hcmd
      have hnone : (s.blk.receiving s.cfg got).txph = .none := htxph
      simp only [into_blk, Block.frameOnTable, hbody, hnone, if_true, hcursor]
      exact zeroFrom_storedBytes

/-- A frame that verifies and is not addressed to 0x80 puts the block on the row PROCESS of the table. -/
theorem legal_holding {frame : List Byte} (hlen : frame.length = rxLen s.cfg s.blk.role)
    (hcrc : crcVerify s.cfg frame = true) (h0 : frame.getD 0 0 ≠ 0x80) :
    (s.into (s.blk.holding s.cfg frame)).legal = true := by
  obtain ⟨hc, hv, -, hsp, ht, -⟩ := legal_iff.mp hl
  obtain ⟨hdir, htxph, -⟩ := (onTable_request hp).mp ht
  obtain ⟨h4, -, hmem⟩ := rxLen_bounds hc s.blk.role
  obtain ⟨hcursor, hremain⟩ := counters_receiving hl hlen.le
  refine legal_iff.mpr ⟨hc, hv, length_storedBytes (by omega), fun _ => hsp (by simp [Block.lost, hp]),
    (onTable_process rfl).mpr ⟨hdir, htxph, rfl, rfl, hlen ▸ hcursor, hremain.trans (by omega)⟩, ?_⟩
  change Memory.holdsFrame s.cfg (rxLen s.cfg s.blk.role) (storedBytes s.cfg frame) = true
  rw [← hlen]
  simp only [Memory.holdsFrame, take_storedBytes, byte0_storedBytes (by omega : 0 < frame.length), hcrc,
    zeroFrom_storedBytes, Bool.and_true, Bool.true_and, bne_iff_ne]
  exact h0

/-- The address byte with the mark the node needs begins a reception (R186). -/
theorem exec_rxb_first {mark : Bool} {b0 : Byte}
    (hm : s.blk.role = .slave → mark = true ∧ addressMatch s.blk.laddr b0 = true) :
    exec (.rxb mark b0) s = .next (s.into (s.blk.receiving s.cfg [b0])) := by
  obtain ⟨hc, -, -, -, ht, -⟩ := legal_iff.mp hl
  obtain ⟨hdir, -, hafilt, -⟩ := (onTable_request hp).mp ht
  obtain ⟨h4, -, hmem⟩ := rxLen_bounds hc s.blk.role
  have hpass : ¬ (s.blk.afilt = true ∧ mark = false) := by
    rintro ⟨ha, hk⟩
    rw [hafilt, idleFilter_eq, decide_eq_true_eq] at ha
    rw [(hm ha).1] at hk
    cases hk
  have hmine : ¬ (s.blk.role = .slave ∧ addressMatch s.blk.laddr b0 = false) := by
    rintro ⟨hr, hk⟩
    rw [(hm hr).2] at hk
    cases hk
  have hframe : (Memory.zeros s.cfg.lMax).write 0 b0 = storedBytes s.cfg [b0] :=
    write_storedBytes (got := []) (show 0 < s.cfg.lMax by omega) b0
  have hexec : exec (.rxb mark b0) s = .next (rxRequest b0 s.start) := by
    simp [exec, execRxb, guarded_legal hl, Block.lost, hp, hdir, hpass]
  rw [hexec, rxRequest, start_blk, if_neg hmine, frame_of_request hl hp, hframe]
  rfl

/-- An unmarked byte in MSGBODY is stored, and if it is the last the frame is complete (R189). -/
theorem exec_rxb_body {got : List Byte} (h2 : 2 ≤ got.length) (h : got.length < rxLen s.cfg s.blk.role) (d : Byte) :
    exec (.rxb false d) (s.into (s.blk.receiving s.cfg got)) =
      .next (if got.length + 1 = rxLen s.cfg s.blk.role
        then frameComplete (s.into (s.blk.receiving s.cfg (got ++ [d])))
        else s.into (s.blk.receiving s.cfg (got ++ [d]))) := by
  obtain ⟨-, -, -, -, ht, -⟩ := legal_iff.mp hl
  obtain ⟨hdir, -⟩ := (onTable_request hp).mp ht
  have hbody : (s.blk.receiving s.cfg got).pstate = .msgbody := if_neg (by omega)
  have hlast : (s.blk.receiving s.cfg (got ++ [d])).remain = 0 ↔ got.length + 1 = rxLen s.cfg s.blk.role := by
    obtain ⟨-, hremain⟩ := counters_receiving hl (got := got ++ [d]) (by simpa using h)
    rw [List.length_append, List.length_singleton] at hremain
    rw [← BitVec.toNat_inj, hremain]
    change _ = 0 ↔ _
    omega
  rw [exec_rxb_msgbody (legal_receiving hl hp (by omega) h) hbody hdir, rxBody, into_start, rxStore_receiving hl h2 h]
  rw [if_neg Bool.false_ne_true]
  exact congrArg _ (if_congr hlast rfl rfl)

/-- A later byte that is not the last is added to those received (R187, R189). -/
theorem exec_rxb_receiving {got : List Byte} (h1 : 1 ≤ got.length) (h2 : got.length + 1 < rxLen s.cfg s.blk.role)
    (d : Byte) : exec (.rxb false d) (s.into (s.blk.receiving s.cfg got)) =
      .next (s.into (s.blk.receiving s.cfg (got ++ [d]))) := by
  by_cases hcmd : got.length = 1
  · obtain ⟨-, -, -, -, ht, -⟩ := legal_iff.mp hl
    obtain ⟨hdir, -⟩ := (onTable_request hp).mp ht
    obtain ⟨-, -, hmem⟩ := rxLen_bounds (legal_iff.mp hl).1 s.blk.role
    have hcommand : (s.blk.receiving s.cfg got).pstate = .command := if_pos hcmd
    have hrx : (s.blk.receiving s.cfg got).dir = .rx := hdir
    have hframe : (s.blk.receiving s.cfg got).frame.write 1 d = storedBytes s.cfg (got ++ [d]) :=
      hcmd ▸ write_storedBytes (by omega) d
    have hexec : exec (.rxb false d) (s.into (s.blk.receiving s.cfg got)) =
        .next (rxCommand false d (s.into (s.blk.receiving s.cfg got))) := by
      have hafilt : (s.blk.receiving s.cfg got).afilt = false := rfl
      simp [exec, execRxb, guarded_legal (legal_receiving hl hp h1 (by omega)), Block.lost, hcommand, hrx, hafilt]
    rw [hexec, rxCommand, into_blk, hframe]
    simp [State.into, State.start, Block.receiving, hcmd]
  · rw [exec_rxb_body hl hp (by omega) (by omega), if_neg (by omega)]

/-- A frame all of whose bytes are received is classified (R190). -/
theorem frameComplete_receiving {frame : List Byte} (hlen : frame.length = rxLen s.cfg s.blk.role) :
    frameComplete (s.into (s.blk.receiving s.cfg frame)) = s.into (s.blk.received s.cfg frame) := by
  obtain ⟨hc, -, -, -, ht, -⟩ := legal_iff.mp hl
  obtain ⟨-, htxph, -⟩ := (onTable_request hp).mp ht
  obtain ⟨h4, -, hmem⟩ := rxLen_bounds hc s.blk.role
  have hdiscard (k : Byte) : enterRequest (sinkPush k (s.into (s.blk.receiving s.cfg frame))) =
      s.into ((s.blk.push k).inRequest s.cfg) := by
    have hcancels : (s.blk.receiving s.cfg frame).cancels = [] := if_neg (by simp [Block.receiving, htxph])
    simp [enterRequest_eq, hcancels, inRequest_push_receiving]
    rfl
  have hlength : (s.blk.receiving s.cfg frame).frame.length = s.cfg.lMax := length_storedBytes (by omega)
  have hcases := frameComplete_cases (s := s.into (s.blk.receiving s.cfg frame))
    (by rw [into_blk, hlength]; exact hmem) h4
  have htake : (s.blk.receiving s.cfg frame).frame.take (rxLen s.cfg s.blk.role) = frame := hlen ▸ take_storedBytes
  have hbyte : (s.blk.receiving s.cfg frame).frame.byte 0 = frame.getD 0 0 := byte0_storedBytes (by omega)
  have hrole : (s.blk.receiving s.cfg frame).role = s.blk.role := rfl
  simp only [into_cfg, into_blk, hrole, htake, hbyte] at hcases
  obtain ⟨hcrc, h⟩ | ⟨hcrc, h0, h⟩ | ⟨hcrc, h0, h⟩ := hcases
  · rw [h, hdiscard, Block.received, if_pos hcrc]
    rfl
  · rw [h, hdiscard, Block.received, if_neg (by simp [hcrc]), if_pos h0]
    rfl
  · rw [h, Block.received, if_neg (by simp [hcrc]), if_neg h0]
    rfl

/-- The last byte of a frame classifies it (R189, R190). -/
theorem exec_rxb_last {got : List Byte} {d : Byte} (h : got.length + 1 = rxLen s.cfg s.blk.role) :
    exec (.rxb false d) (s.into (s.blk.receiving s.cfg got)) =
      .next (s.into (s.blk.received s.cfg (got ++ [d]))) := by
  obtain ⟨h4, -, -⟩ := rxLen_bounds (legal_iff.mp hl).1 s.blk.role
  rw [exec_rxb_body hl hp (by omega) (by omega), if_pos h, frameComplete_receiving hl hp (by simpa using h)]

/-- The bytes after the first few, unmarked: the frame is classified. -/
theorem runOps_receiving (d : Byte) (rest : List Byte) {got : List Byte} (h1 : 1 ≤ got.length)
    (hlen : got.length + (rest.length + 1) = rxLen s.cfg s.blk.role) :
      runOps ((d :: rest).map (.rxb false)) (s.into (s.blk.receiving s.cfg got)) =
        some (s.into (s.blk.received s.cfg (got ++ d :: rest)), []) := by
  induction rest generalizing d got with
  | nil => exact runOps_cons (exec_rxb_last hl hp hlen) (runOps_nil _)
  | cons d' rest ih =>
    have hstep := exec_rxb_receiving hl hp h1 (by simp at hlen; omega) d
    have hrest := ih d' (got := got ++ [d]) (by simp) (by simp at hlen ⊢; omega)
    rw [List.append_assoc] at hrest
    exact runOps_cons hstep hrest

/-- The whole reception: the address byte with its mark and the other bytes without, and the frame is classified. -/
theorem runOps_reception {mark : Bool} {b0 : Byte} {body : List Byte}
    (hm : s.blk.role = .slave → mark = true ∧ addressMatch s.blk.laddr b0 = true)
    (hlen : body.length + 1 = rxLen s.cfg s.blk.role) :
    runOps (.rxb mark b0 :: body.map (.rxb false)) s = some (s.into (s.blk.received s.cfg (b0 :: body)), []) := by
  obtain ⟨h4, -, -⟩ := rxLen_bounds (legal_iff.mp hl).1 s.blk.role
  cases body with
  | nil => simp at hlen; omega
  | cons d rest =>
    exact runOps_cons (exec_rxb_first hl hp hm)
      (runOps_receiving hl hp d rest (got := [b0]) (by simp) (by simp at hlen ⊢; omega))

end

/-! ### The round trip through a node (R127, R155, R156) -/

theorem consumeFrame_result (s : State) : (consumeFrame s).result =
    .message 0 (some (messageView (s.blk.frame.take (rxLen s.cfg s.blk.role)) (rxN s.cfg s.blk.role))) := rfl

/-- CONSUME of a received frame is silent, no timer being armed. -/
theorem consumeFrame_actions {s : State} (hx : s.blk.txph = .none) : (consumeFrame s).actions = s.actions := by
  have hcancels : s.blk.cancels = [] := if_neg (by simp [hx])
  simp only [consumeFrame, returns_actions]
  split <;> simp [hcancels]

theorem rxN_add_four {c : Cfg} (hc : c.inRange = true) (r : Role) : rxN c r + 4 = rxLen c r := by
  obtain ⟨h4, -, -⟩ := rxLen_bounds hc r
  exact Nat.sub_add_cancel h4

/-- A frame that verifies and is not addressed to 0x80 is received and consumed without an output action. -/
theorem runOps_reception_consume {s : State} (hl : s.legal = true) (hp : s.blk.pstate = .request) {mark : Bool}
    {b0 : Byte} {body : List Byte} (hm : s.blk.role = .slave → mark = true ∧ addressMatch s.blk.laddr b0 = true)
    (hlen : (b0 :: body).length = rxLen s.cfg s.blk.role) (hcrc : crcVerify s.cfg (b0 :: body) = true)
    (h0 : b0 ≠ 0x80) :
    runOps (.rxb mark b0 :: body.map (.rxb false) ++ [.consume]) s =
      some (consumeFrame (s.into (s.blk.holding s.cfg (b0 :: body))), []) := by
  obtain ⟨-, -, -, -, ht, -⟩ := legal_iff.mp hl
  obtain ⟨-, htxph, -⟩ := (onTable_request hp).mp ht
  have hreceived : s.blk.received s.cfg (b0 :: body) = s.blk.holding s.cfg (b0 :: body) :=
    (if_neg (by simp [hcrc])).trans (if_neg h0)
  have hreception := runOps_reception hl hp hm hlen
  rw [hreceived] at hreception
  have hconsume : exec .consume (s.into (s.blk.holding s.cfg (b0 :: body))) =
      .next (consumeFrame (s.into (s.blk.holding s.cfg (b0 :: body)))) :=
    (guarded_legal (legal_holding hl hp hlen hcrc h0) _).trans (if_neg (not_not_intro rfl))
  have hactions : (consumeFrame (s.into (s.blk.holding s.cfg (b0 :: body)))).actions = [] :=
    consumeFrame_actions htxph
  have hrun := runOps_append (runOps_cons hconsume (runOps_nil _)) hreception
  rwa [hactions] at hrun

/-- Settles O58: the frame of a valid message ends the reception in PROCESS, and CONSUME decodes it. -/
theorem receivedMessageIsConsumedUnchanged : Obligations.ReceivedMessageIsConsumedUnchanged := by
  intro s mark m b0 body hl hp hv hframe hm
  have hlen : (b0 :: body).length = rxLen s.cfg s.blk.role := by
    rw [← hframe, length_encodeFrame, rxN_add_four (legal_iff.mp hl).1]
  have hb0 : b0 = addressByte m.rr m.address := by
    rw [← encodeFrame_byte0 s.cfg m (rxN s.cfg s.blk.role), hframe]
    rfl
  have hmine : s.blk.role = .slave → mark = true ∧ addressMatch s.blk.laddr b0 = true := by
    intro hr
    rw [addressMatch_true, hb0, addressByte_address]
    exact (hm hr).imp_right (Or.imp_right fun h => by rw [h]; rfl)
  have hcrc : crcVerify s.cfg (b0 :: body) = true := hframe ▸ crcVerify_encodeFrame _ _ _
  have htake : (s.blk.holding s.cfg (b0 :: body)).frame.take (rxLen s.cfg s.blk.role) =
      encodeFrame s.cfg m (rxN s.cfg s.blk.role) := by
    rw [hframe, ← hlen]
    exact take_storedBytes
  have hrr : ((s.blk.holding s.cfg (b0 :: body)).frame.byte 0).getLsbD 7 = m.rr := by
    rw [← addressByte_rr m.rr m.address, ← hb0]
    rfl
  refine ⟨_, runOps_reception_consume hl hp hmine hlen hcrc (hb0 ▸ addressByte_ne hv), ?_, ?_, ?_⟩
  · rw [take_encodeFrame, ← messageView_encodeFrame hv, ← htake]
    exact consumeFrame_result _
  · rw [consumeFrame_blk, into_blk, hrr]
    exact apply_ite Block.pstate _ _ _
  · rw [consumeFrame_blk]
    split <;> exact ⟨rfl, rfl⟩

end Sys2Proof.Machine
end

section
/-! PROOFS of the statements of 42_bus_direction.md. That a step keeps the table of R44 (O44) is one lemma for each way
an operation changes the row, assembled operation by operation (`inv_of_exec`). A whole transmission (O57) needs it: each
TXC runs because the state the last one left is on the table. The two internal operations (O15), the timer (O16, O17) and
who hands over characters (O19) stand in between. -/

namespace Sys2Proof.Machine

/-! ### The rows of a transmission (R44, R137, R143, R193) -/

/-- A node that waits for the timer has a frame loaded: a master its request, a slave its response. -/
theorem settling_row {s : State} (hl : s.legal = true) (hn : s.blk.lost = false) (hx : s.blk.txph = .settle) :
    s.blk.remain.toNat = txLen s.cfg s.blk.role ∧
      (s.blk.pstate = .command ∧ s.blk.role = .master ∨ s.blk.pstate = .response ∧ s.blk.role = .slave) := by
  obtain ⟨-, -, -, -, ht, -⟩ := legal_iff.mp hl
  cases hp : s.blk.pstate with
  | command =>
    rw [onTable_command hp] at ht
    simp only [hx, reduceCtorEq, false_and, and_false, false_or, or_false, true_and] at ht
    obtain ⟨-, -, hr, -, -, hrem⟩ := ht
    exact ⟨by rw [hr]; exact hrem, .inl ⟨rfl, hr⟩⟩
  | response =>
    rw [onTable_response hp] at ht
    simp only [hx, reduceCtorEq, false_and, and_false, false_or, or_false, true_and] at ht
    obtain ⟨hr, -, -, -, -, hrem⟩ := ht
    exact ⟨by rw [hr]; exact hrem, .inr ⟨rfl, hr⟩⟩
  | init => simp [onTable_init hp, hx] at ht
  | request => simp [onTable_request hp, hx] at ht
  | msgbody => simp [onTable_msgbody hp, hx] at ht
  | process => simp [onTable_process hp, hx] at ht
  | unknown | reset => simp [Block.lost, hp] at hn

/-- REMAIN counts down to the bytes still to be handed over (R35). -/
theorem remain_after_first {s : State} (hl : s.legal = true) (hn : s.blk.lost = false) (hx : s.blk.txph = .settle) :
    (s.blk.remain - 1).toNat = txLen s.cfg s.blk.role - 1 := by
  obtain ⟨hrem, -⟩ := settling_row hl hn hx
  obtain ⟨h4, -, -⟩ := txLen_bounds (legal_iff.mp hl).1 s.blk.role
  bv_omega

/-- A node that sends has handed over the bytes before the cursor: a master of its request, a slave of its response. -/
theorem sending_row {s : State} (hl : s.legal = true) (hn : s.blk.lost = false) (hx : s.blk.txph = .sending) :
    1 ≤ s.blk.cursor.toNat ∧ s.blk.cursor.toNat + s.blk.remain.toNat = txLen s.cfg s.blk.role ∧
      ((s.blk.pstate = .command ∨ s.blk.pstate = .msgbody) ∧ s.blk.role = .master ∨
        s.blk.pstate = .response ∧ s.blk.role = .slave) := by
  obtain ⟨hc, -, -, -, ht, -⟩ := legal_iff.mp hl
  obtain ⟨h4, -, -⟩ := txLen_bounds hc .master
  cases hp : s.blk.pstate with
  | command =>
    rw [onTable_command hp] at ht
    simp only [hx, reduceCtorEq, false_and, and_false, false_or, true_and] at ht
    obtain ⟨-, -, hr, -, hcur, hrem⟩ := ht
    rw [hr, hcur, hrem]
    exact ⟨le_refl 1, Nat.add_sub_cancel' (by change 4 ≤ s.cfg.lReq at h4; omega), .inl ⟨.inl rfl, rfl⟩⟩
  | msgbody =>
    rw [onTable_msgbody hp] at ht
    simp only [hx, reduceCtorEq, false_and, and_false, false_or, true_and] at ht
    obtain ⟨-, -, hr, -, hcur, -, hsum⟩ := ht
    rw [hr]
    exact ⟨by omega, hsum, .inl ⟨.inr rfl, rfl⟩⟩
  | response =>
    rw [onTable_response hp] at ht
    simp only [hx, reduceCtorEq, false_and, and_false, false_or, true_and] at ht
    obtain ⟨hr, -, -, -, hcur, -, hsum⟩ := ht
    rw [hr]
    exact ⟨hcur, hsum, .inr ⟨rfl, rfl⟩⟩
  | init => simp [onTable_init hp, hx] at ht
  | request => simp [onTable_request hp, hx] at ht
  | process => simp [onTable_process hp, hx] at ht
  | unknown | reset => simp [Block.lost, hp] at hn

/-- A loaded response stands in the buffer while a slave sends it. -/
theorem encoded_of_sending_response {s : State} (hl : s.legal = true) (hp : s.blk.pstate = .response)
    (hx : s.blk.txph ≠ .none) : EncodedFrame s.cfg s.cfg.nRet s.blk.frame :=
  (frame_of_response hl hp).elim (fun hs => absurd hs.1 hx) (·.2)

/-! ### Each change of the row ends on a row (R44) -/

/-- What a state of the table meets besides the column `FRAME`. -/
theorem row_of_inv {s : State} (h : Inv s) : s.cfg.inRange = true ∧ s.blk.txph ≠ .value3 ∧
    s.blk.frame.length = s.cfg.lMax ∧ s.blk.sp.toNat ≤ 8 ∧ s.blk.onTable s.cfg = true := by
  obtain ⟨hc, hx, hf, hsp, ht, -⟩ := legal_iff.mp h.1
  exact ⟨hc, hx, hf, hsp (lost_of_inv h), ht⟩

theorem frameOk_command {c : Cfg} {b : Block} (hp : b.pstate = .command) : FrameOk c b ↔
    (b.txph = .none ∧ ∀ i, 1 ≤ i → b.frame.byte i = 0) ∨ (b.txph ≠ .none ∧ EncodedFrame c c.nParam b.frame) := by
  rw [FrameOk, hp]

theorem frameOk_msgbody {c : Cfg} {b : Block} (hp : b.pstate = .msgbody) : FrameOk c b ↔
    (b.txph = .none ∧ ∀ i, b.cursor.toNat ≤ i → b.frame.byte i = 0) ∨
      (b.txph ≠ .none ∧ EncodedFrame c c.nParam b.frame) := by
  rw [FrameOk, hp]

theorem frameOk_response {c : Cfg} {b : Block} (hp : b.pstate = .response) : FrameOk c b ↔
    (b.txph = .none ∧ ValidFrame c c.lReq b.frame ∧ (b.frame.byte 0).getLsbD 7 = true) ∨
      (b.txph ≠ .none ∧ EncodedFrame c c.nRet b.frame) := by
  rw [FrameOk, hp]

theorem toNat_ofNat_of_le {n : Nat} (h : n ≤ 255) : (BitVec.ofNat 8 n).toNat = n :=
  Nat.mod_eq_of_lt (by omega)

/-- A write at the first of the zero bytes leaves zeros after it. -/
theorem byte_write_of_zero {m : Memory} {i : Nat} (h : ∀ j, i ≤ j → m.byte j = 0) (v : Byte) {j : Nat} (hj : i < j) :
    (m.write i v).byte j = 0 := by
  rw [byte_write_ne (by omega), h j (by omega)]

section
variable {s : State} (h : Inv s)
include h

theorem inv_desync : Inv (desync s.start) := by
  obtain ⟨hc, -, -, hsp, -⟩ := row_of_inv h
  exact inv_enterRequest hc (push_sp_le hsp)

/-- ERRPOP leaves the row (R213). -/
theorem inv_pop : Inv (s.into s.blk.pop) := by
  obtain ⟨hc, hx, hf, hsp, ht⟩ := row_of_inv h
  have hpop := pop_sp_le hsp
  rw [pop_eq] at hpop ⊢
  exact inv_of hc hx hf hpop ht h.2

/-- CONSUME by a slave that owes a response: PROCESS to RESPONSE (R155). -/
theorem inv_consumed (hp : s.blk.pstate = .process) (hr : s.blk.role = .slave)
    (hrr : (s.blk.frame.byte 0).getLsbD 7 = true) : Inv (s.into { s.blk with pstate := .response }) := by
  obtain ⟨hc, hx, hf, hsp, ht⟩ := row_of_inv h
  obtain ⟨hd, hnone, hfilt, huse, hcur, hrem⟩ := (onTable_process hp).mp ht
  have hv := frame_of_process h.1 hp
  rw [hr] at hcur hv
  exact inv_of hc hx hf hsp ((onTable_response rfl).mpr ⟨hr, hfilt, huse, .inl ⟨hd, hnone, hcur, hrem⟩⟩)
    ((frameOk_response rfl).mpr (.inl ⟨hnone, hv, hrr⟩))

/-- An accepted RESPOND: the settle delay of RESPONSE (R162). -/
theorem inv_respondLoad {m : Msg} (hp : s.blk.pstate = .response) (hv : validate m s.cfg.nRet = none) :
    Inv (respondLoad m s.start) := by
  obtain ⟨hc, -, -, hsp, ht⟩ := row_of_inv h
  obtain ⟨hr, hfilt, huse, -⟩ := (onTable_response hp).mp ht
  obtain ⟨-, h255, -⟩ := txLen_bounds hc .slave
  have hp' : (respondLoad m s.start).blk.pstate = .response := hp
  exact inv_of hc nofun (length_frameImage _ _ _) hsp
    ((onTable_response hp').mpr ⟨hr, hfilt, huse, .inr (.inl ⟨rfl, rfl, rfl, toNat_ofNat_of_le h255⟩)⟩)
    ((frameOk_response hp').mpr (.inr ⟨nofun, m, hv, rfl⟩))

/-- An accepted SEND: the settle delay of COMMAND (R170). -/
theorem inv_sendLoad {m : Msg} (hr : s.blk.role = .master) (hv : validate m s.cfg.nParam = none) :
    Inv (sendLoad m s.start) := by
  obtain ⟨hc, -, -, hsp, -⟩ := row_of_inv h
  obtain ⟨-, h255, -⟩ := txLen_bounds hc .master
  exact inv_of hc nofun (length_frameImage _ _ _) hsp
    ((onTable_command rfl).mpr ⟨rfl, rfl, .inr (.inl ⟨hr, rfl, rfl, rfl, toNat_ofNat_of_le h255⟩)⟩)
    ((frameOk_command rfl).mpr (.inr ⟨nofun, m, hv, rfl⟩))

/-- The address byte: REQUEST to COMMAND (R186). -/
theorem inv_addressed (hp : s.blk.pstate = .request) (d : Byte) : Inv (s.into { s.blk with
    frame := s.blk.frame.write 0 d
    cursor := 1
    remain := BitVec.ofNat 8 (rxLen s.cfg s.blk.role - 1)
    inuse := true
    afilt := false
    pstate := .command }) := by
  obtain ⟨hc, hx, hf, hsp, ht⟩ := row_of_inv h
  obtain ⟨hd, hnone, -⟩ := (onTable_request hp).mp ht
  obtain ⟨-, h255, -⟩ := rxLen_bounds hc s.blk.role
  have hz : ∀ j, 0 ≤ j → s.blk.frame.byte j = 0 := fun j _ => by rw [frame_of_request h.1 hp, byte_zeros]
  exact inv_of hc hx ((length_write _ _ _).trans hf) hsp
    ((onTable_command rfl).mpr ⟨rfl, rfl, .inl ⟨hd, hnone, rfl, toNat_ofNat_of_le (by omega)⟩⟩)
    ((frameOk_command rfl).mpr (.inl ⟨hnone, fun _ => byte_write_of_zero hz d⟩))

/-- The command byte: COMMAND to MSGBODY (R187). -/
theorem inv_commanded (hp : s.blk.pstate = .command) (hd : s.blk.dir = .rx) (d : Byte) : Inv (s.into { s.blk with
    frame := s.blk.frame.write 1 d
    cursor := 2
    remain := BitVec.ofNat 8 (rxLen s.cfg s.blk.role - 2)
    pstate := .msgbody }) := by
  obtain ⟨hc, hx, hf, hsp, ht⟩ := row_of_inv h
  obtain ⟨hfilt, huse, -⟩ := (onTable_command hp).mp ht
  obtain ⟨h4, h255, -⟩ := rxLen_bounds hc s.blk.role
  have hnone : s.blk.txph = .none := by simpa [hd] using dir_tx_iff ht (lost_of_inv h)
  have hz := (frame_of_command h.1 hp).elim (·.2) (fun hs => absurd hnone hs.1)
  have hrem : (BitVec.ofNat 8 (rxLen s.cfg s.blk.role - 2)).toNat = rxLen s.cfg s.blk.role - 2 :=
    toNat_ofNat_of_le (by omega)
  have hrow : 2 ≤ rxLen s.cfg s.blk.role - 1 ∧
      2 + (BitVec.ofNat 8 (rxLen s.cfg s.blk.role - 2)).toNat = rxLen s.cfg s.blk.role := by omega
  exact inv_of hc hx ((length_write _ _ _).trans hf) hsp
    ((onTable_msgbody rfl).mpr ⟨hfilt, huse, .inl ⟨hd, hnone, le_refl 2, hrow⟩⟩)
    ((frameOk_msgbody rfl).mpr (.inl ⟨hnone, fun _ => byte_write_of_zero hz d⟩))

section
variable (hp : s.blk.pstate = .msgbody) (hd : s.blk.dir = .rx)
include hp hd

/-- After the receive store the bytes from the new cursor on are zero (R69). -/
theorem zero_after_rxStore (d : Byte) : ∀ j, s.blk.cursor.toNat + 1 ≤ j → (rxStore d s.start).blk.frame.byte j = 0 := by
  obtain ⟨-, -, hnone, -⟩ := body_facts h.1 hp hd
  have hz := (frame_of_msgbody h.1 hp).elim (·.2) (fun hs => absurd hnone hs.1)
  exact fun _ => byte_write_of_zero hz d

/-- A byte that is not the last: MSGBODY stays (R189). -/
theorem inv_rxStore (hlast : s.blk.remain ≠ 1) (d : Byte) : Inv (rxStore d s.start) := by
  obtain ⟨hc, hx, hf, hsp, -⟩ := row_of_inv h
  obtain ⟨hfilt, huse, hnone, h2, -, hsum⟩ := body_facts h.1 hp hd
  obtain ⟨hcursor, hremain⟩ := counters_of_receiving_body h.1 hp hd
  have hp' : (rxStore d s.start).blk.pstate = .msgbody := hp
  have hmore : s.blk.remain.toNat ≠ 1 := fun e => hlast (BitVec.eq_of_toNat_eq e)
  refine inv_of hc hx ((length_write _ _ _).trans hf) hsp
    ((onTable_msgbody hp').mpr ⟨hfilt, huse, .inl ⟨hd, hnone, ?_⟩⟩)
    ((frameOk_msgbody hp').mpr (.inl ⟨hnone, fun j hj => zero_after_rxStore h hp hd d j (hcursor ▸ hj)⟩))
  change 2 ≤ (s.blk.cursor + 1).toNat ∧ (s.blk.cursor + 1).toNat ≤ rxLen s.cfg s.blk.role - 1 ∧
    (s.blk.cursor + 1).toNat + (s.blk.remain - 1).toNat = rxLen s.cfg s.blk.role
  omega

/-- The last byte: MSGBODY to PROCESS, or back to REQUEST (R190). -/
theorem inv_frameComplete (hlast : s.blk.remain = 1) (d : Byte) : Inv (frameComplete (rxStore d s.start)) := by
  obtain ⟨hc, hx, hf, hsp, -⟩ := row_of_inv h
  obtain ⟨-, huse, hnone, -, -, hsum⟩ := body_facts h.1 hp hd
  obtain ⟨hcursor, hremain⟩ := counters_of_receiving_body h.1 hp hd
  obtain ⟨h4, -, hm⟩ := rxLen_bounds hc s.blk.role
  have hone : s.blk.remain.toNat = 1 := congrArg BitVec.toNat hlast
  have hfull : s.blk.cursor.toNat + 1 = rxLen s.cfg s.blk.role := by omega
  have hzero : (s.blk.remain - 1).toNat = 0 := by omega
  have hlen : (rxStore d s.start).blk.frame.length = s.cfg.lMax := (length_write _ _ _).trans hf
  obtain ⟨-, e⟩ | ⟨-, -, e⟩ | ⟨hcrc, h0, e⟩ := frameComplete_cases (s := rxStore d s.start) (by rw [hlen]; exact hm) h4
  · exact e ▸ inv_enterRequest hc (push_sp_le hsp)
  · exact e ▸ inv_enterRequest hc (push_sp_le hsp)
  · rw [e]
    exact inv_of hc hx hlen hsp
      ((onTable_process rfl).mpr ⟨hd, hnone, rfl, huse, hcursor.trans hfull, hzero⟩)
      ⟨hcrc, h0, hfull ▸ zero_after_rxStore h hp hd d⟩

end

/-- TMR hands over byte 0: SETTLE to SENDING in COMMAND or RESPONSE (R143). -/
theorem inv_tmrFirstByte (hx : s.blk.txph = .settle) : Inv (tmrFirstByte s.start) := by
  obtain ⟨hc, -, hf, hsp, ht⟩ := row_of_inv h
  have hn := lost_of_inv h
  have hd : s.blk.dir = .tx := (dir_tx_iff ht hn).mpr (by simp [hx])
  have hrem := remain_after_first h.1 hn hx
  obtain ⟨-, ⟨hp, hr⟩ | ⟨hp, hr⟩⟩ := settling_row h.1 hn hx
  · obtain ⟨hfilt, huse, -⟩ := (onTable_command hp).mp ht
    have hp' : (tmrFirstByte s.start).blk.pstate = .command := hp
    have he := encoded_of_sending_request h.1 (.inl hp) (by simp [hx])
    rw [hr] at hrem
    exact inv_of hc nofun hf hsp
      ((onTable_command hp').mpr ⟨hfilt, huse, .inr (.inr ⟨hr, hd, rfl, rfl, hrem⟩)⟩)
      ((frameOk_command hp').mpr (.inr ⟨nofun, he⟩))
  · obtain ⟨-, hfilt, huse, -⟩ := (onTable_response hp).mp ht
    have hp' : (tmrFirstByte s.start).blk.pstate = .response := hp
    have he := encoded_of_sending_response h.1 hp (by simp [hx])
    obtain ⟨h4, -, -⟩ := txLen_bounds hc .slave
    have hrow : 1 ≤ txLen s.cfg .slave ∧ 1 + (s.blk.remain - 1).toNat = txLen s.cfg .slave := by
      rw [hr] at hrem
      omega
    exact inv_of hc nofun hf hsp
      ((onTable_response hp').mpr ⟨hr, hfilt, huse, .inr (.inr ⟨hd, rfl, le_refl 1, hrow⟩)⟩)
      ((frameOk_response hp').mpr (.inr ⟨nofun, he⟩))

/-- Neither counter wraps while a frame is sent (R35). -/
theorem counters_of_sending (hx : s.blk.txph = .sending) (hmore : 0 < s.blk.remain.toNat) :
    (s.blk.cursor + 1).toNat = s.blk.cursor.toNat + 1 ∧ (s.blk.remain - 1).toNat + 1 = s.blk.remain.toNat := by
  obtain ⟨-, hsum, -⟩ := sending_row h.1 (lost_of_inv h) hx
  obtain ⟨-, h255, -⟩ := txLen_bounds (row_of_inv h).1 s.blk.role
  constructor <;> bv_omega

/-- TXC hands over a later byte: COMMAND and MSGBODY to MSGBODY, RESPONSE stays (R193). -/
theorem inv_nextSent (hx : s.blk.txph = .sending) (hmore : 0 < s.blk.remain.toNat) :
    Inv (s.into { (txNext false s.start).blk with
      pstate := if s.blk.pstate = .command then .msgbody else s.blk.pstate }) := by
  obtain ⟨hc, -, hf, hsp, ht⟩ := row_of_inv h
  have hn := lost_of_inv h
  have hd : s.blk.dir = .tx := (dir_tx_iff ht hn).mpr (by simp [hx])
  have hv3 : s.blk.txph ≠ .value3 := by simp [hx]
  have hnone : s.blk.txph ≠ .none := by simp [hx]
  obtain ⟨h1, hsum, hrow⟩ := sending_row h.1 hn hx
  obtain ⟨hcursor, hremain⟩ := counters_of_sending h hx hmore
  have hcount : 2 ≤ (s.blk.cursor + 1).toNat ∧ (s.blk.cursor + 1).toNat ≤ txLen s.cfg s.blk.role ∧
      (s.blk.cursor + 1).toNat + (s.blk.remain - 1).toNat = txLen s.cfg s.blk.role := by omega
  obtain ⟨hp, hr⟩ | ⟨hp, hr⟩ := hrow
  · have hp' : (if s.blk.pstate = .command then .msgbody else s.blk.pstate) = PState.msgbody := by
      rcases hp with hp | hp <;> simp [hp]
    have hflags : s.blk.afilt = false ∧ s.blk.inuse = true := by
      rcases hp with hp | hp
      · exact ((onTable_command hp).mp ht).imp_right (·.1)
      · exact ((onTable_msgbody hp).mp ht).imp_right (·.1)
    have he := encoded_of_sending_request h.1 hp hnone
    rw [hr] at hcount
    exact inv_of hc hv3 hf hsp
      ((onTable_msgbody hp').mpr ⟨hflags.1, hflags.2, .inr ⟨hr, hd, hx, hcount⟩⟩)
      ((frameOk_msgbody hp').mpr (.inr ⟨hnone, he⟩))
  · have hp' : (if s.blk.pstate = .command then .msgbody else s.blk.pstate) = PState.response := by simp [hp]
    obtain ⟨-, hfilt, huse, -⟩ := (onTable_response hp).mp ht
    have he := encoded_of_sending_response h.1 hp hnone
    rw [hr] at hcount
    exact inv_of hc hv3 hf hsp
      ((onTable_response hp').mpr ⟨hr, hfilt, huse, .inr (.inr ⟨hd, hx, Nat.le_of_succ_le hcount.1, hcount.2⟩)⟩)
      ((frameOk_response hp').mpr (.inr ⟨hnone, he⟩))

/-- Every operation but the two internal ones keeps the table (R44). -/
theorem inv_of_exec {i : Instr} {t : State} (hi : i.internal = false) (he : exec i s = .next t) : Inv t := by
  obtain ⟨hc, -, -, hsp, -⟩ := row_of_inv h
  by_cases hpure : i.isPure = true
  · obtain ⟨-, r, rfl⟩ := exec_pure hpure he
    exact inv_congr h rfl rfl
  cases i with
  | init r a =>
    obtain ⟨-, -, -, rfl⟩ := exec_init he
    exact inv_enterRequest hc hsp
  | consume =>
    obtain ⟨-, ⟨-, rfl⟩ | ⟨hp, r, -, ⟨hr, hrr, rfl⟩ | ⟨-, rfl⟩⟩⟩ := exec_consume he
    · exact inv_push h rfl _ rfl
    · exact inv_congr (inv_consumed h hp hr hrr) rfl rfl
    · exact inv_congr (inv_enterRequest (u := s.start) hc hsp) rfl rfl
  | respond m =>
    obtain ⟨-, ⟨-, rfl⟩ | ⟨-, -, e, -, rfl⟩ | ⟨hp, -, hv, rfl⟩⟩ := exec_respond he
    · exact inv_push h rfl _ rfl
    · exact inv_push h rfl _ rfl
    · exact inv_respondLoad h hp hv
  | send m =>
    obtain ⟨-, ⟨-, rfl⟩ | ⟨-, -, e, -, rfl⟩ | ⟨-, hr, hv, rfl⟩⟩ := exec_send he
    · exact inv_push h rfl _ rfl
    · exact inv_push h rfl _ rfl
    · exact inv_sendLoad h hr hv
  | errpush c =>
    obtain ⟨-, rfl⟩ := exec_errpush he
    exact inv_push h rfl c rfl
  | errpop =>
    obtain ⟨-, rfl⟩ := exec_errpop he
    exact inv_congr (inv_pop h) rfl rfl
  | rxb k d =>
    obtain ⟨-, rfl | ⟨-, rfl⟩ | ⟨hp, -, -, -, rfl⟩ | ⟨-, -, -, rfl⟩ | ⟨hp, hd, -, rfl⟩ | ⟨hp, hd, -, hlast, rfl⟩ |
      ⟨hp, hd, -, hlast, rfl⟩ | ⟨-, -, -, -, rfl⟩⟩ := exec_rxb he
    · exact inv_congr h rfl rfl
    · exact inv_desync h
    · exact inv_addressed h hp d
    · exact inv_desync h
    · exact inv_commanded h hp hd d
    · exact inv_rxStore h hp hd hlast d
    · exact inv_frameComplete h hp hd hlast d
    · exact inv_push h rfl _ rfl
  | txc =>
    obtain ⟨-, rfl | ⟨-, rfl⟩ | ⟨-, -, hx, hmore, rfl⟩ | ⟨-, -, -, -, rfl⟩⟩ := exec_txc he
    · exact inv_congr h rfl rfl
    · exact inv_desync h
    · exact inv_congr (inv_nextSent h hx hmore) rfl rfl
    · exact inv_enterRequest hc hsp
  | rxerr =>
    obtain ⟨-, ⟨-, rfl⟩ | ⟨-, rfl⟩ | ⟨-, -, rfl⟩⟩ := exec_rxerr he
    · exact inv_congr h rfl rfl
    · exact inv_desync h
    · exact inv_enterRequest hc (push_sp_le hsp)
  | tmr =>
    obtain ⟨-, rfl | ⟨-, rfl⟩ | ⟨-, -, hx, rfl⟩⟩ := exec_tmr he
    · exact inv_congr h rfl rfl
    · exact inv_desync h
    · exact inv_tmrFirstByte h hx
  | desync =>
    obtain ⟨-, ⟨-, rfl⟩ | ⟨-, rfl⟩⟩ := exec_desync he
    · exact inv_congr h rfl rfl
    · exact inv_desync h
  | dirtx | dirrx => cases hi
  | avail | isresp _ | errpeek | errovf | crc16 _ | crcvfy _ | encode _ _ | decode _ => exact absurd rfl hpure

end

/-- Settles O44: a step is an operation that is no internal one, and each of its outcomes is on a row. -/
theorem stepKeepsTheTableOfStates : Obligations.StepKeepsTheTableOfStates := by
  intro s t h hstep
  obtain ⟨i, s', hi, hc, hb, he⟩ := exec_of_step hstep
  exact inv_of_exec (inv_congr h hc hb) hi he

/-! ### DIRTX and DIRRX (R92, R138, R139) -/

/-- The two refusals asked of an internal operation are asked of a legal state too. -/
theorem guardedInternal_legal {s : State} (hl : s.legal = true) (k : StepResult) : guardedInternal s k = k := by
  obtain ⟨hc, hx, -⟩ := legal_iff.mp hl
  simp [guardedInternal, hc, hx]

/-- The word of an internal operation is refused at the host port. -/
theorem step_of_internal {s : State} {i : Instr} {rest : List Byte} (hd : decodeBytes s.input = some (i, rest))
    (hi : i.internal = true) : step s = .refused .internalStimulus := by
  cases hb : s.input with
  | nil => rw [hb] at hd; cases hd
  | cons b bs =>
    rw [hb] at hd
    simp [step, present, hb, decodeStimulus, hd, hi]

/-- Settles O15: each runs its direction part at a legal state, and its word decodes to an internal operation. -/
theorem directionOperationsSwitchTheLine : Obligations.DirectionOperationsSwitchTheLine := by
  intro s hl
  refine ⟨guardedInternal_legal hl _, (guardedInternal_legal hl _).trans (congrArg _ ?_), fun t rest ht => ?_⟩
  · exact state_ext (by simp) (by simp) (by simp) (by simp) (dirRx_actions s.start)
  · obtain ht | ht := ht
    · exact step_of_internal (i := .dirtx) (rest := rest) (by rw [ht, decodeBytes_wordBytes]; rfl) rfl
    · exact step_of_internal (i := .dirrx) (rest := rest) (by rw [ht, decodeBytes_wordBytes]; rfl) rfl

/-! ### TMR and TXC in the states with a transmission (R142, R192) -/

section
variable {s : State} (hl : s.legal = true) (hinit : s.blk.pstate ≠ .init) (hn : s.blk.lost = false)
include hl hinit hn

/-- After INIT the timer's expiry ends a settle delay or is ignored. -/
theorem exec_tmr_eq : exec .tmr s =
    .next (if s.blk.txph = .settle then tmrFirstByte s.start else ignored s) := by
  simp only [exec, execTmr, guarded_legal hl, if_neg hinit, hn, Bool.false_eq_true, if_false]
  exact (apply_ite _ _ _ _).symm

/-- After INIT a sent character goes on with the transmission or is ignored. -/
theorem exec_txc_eq : exec .txc s = .next (if s.blk.txph = .sending then txcSending s.start else ignored s) := by
  simp only [exec, execTxc, guarded_legal hl, if_neg hinit, hn, Bool.false_eq_true, if_false]
  exact (apply_ite _ _ _ _).symm

end

/-- A block that settles or sends is past INIT (R44). -/
theorem pstate_ne_init_of_txph {s : State} (hl : s.legal = true) (hx : s.blk.txph ≠ .none) : s.blk.pstate ≠ .init := by
  obtain ⟨-, -, -, -, ht, -⟩ := legal_iff.mp hl
  exact fun hp => hx ((onTable_init hp).mp ht).2.1

theorem not_lost_of_ne {b : Block} (hu : b.pstate ≠ .unknown) (hr : b.pstate ≠ .reset) : b.lost = false := by
  simp [Block.lost, hu, hr]

/-- TMR at the end of the settle delay (R143). -/
theorem exec_tmr_settling {s : State} (hl : s.legal = true) (hn : s.blk.lost = false) (hx : s.blk.txph = .settle) :
    exec .tmr s = .next (tmrFirstByte s.start) := by
  rw [exec_tmr_eq hl (pstate_ne_init_of_txph hl (by simp [hx])) hn, if_pos hx]

/-- Settles O16: the line of R143, and the two rows of the table that settle. -/
theorem timerHandsOverTheFirstByte : Obligations.TimerHandsOverTheFirstByte := by
  intro s hl hx hu hr
  have hn := not_lost_of_ne hu hr
  refine ⟨exec_tmr_settling hl hn hx, remain_after_first hl hn hx, ?_⟩
  obtain ⟨-, ⟨hp, hrole⟩ | ⟨hp, hrole⟩⟩ := settling_row hl hn hx <;> simp [hp, hrole]

/-- Settles O17: in these states the dispatch passes INIT and the lost states, and the phase decides. -/
theorem strayTimerAndSentEventsAreIgnored : Obligations.StrayTimerAndSentEventsAreIgnored := by
  intro s rest hl hp
  have hinit : s.blk.pstate ≠ .init := fun e => by simp [e] at hp
  have hn : s.blk.lost = false := not_lost_of_mem (List.mem_cons_of_mem _ hp)
  refine ⟨decodeStimulus_formatZ .tmr 19 (by decide) rest (fun _ _ _ => rfl) rfl, fun hx => ?_, fun hx => ?_⟩
  · rw [exec_tmr_eq hl hinit hn, if_neg hx]
    rfl
  · rw [exec_txc_eq hl hinit hn, if_neg hx]
    rfl

/-! ### Characters handed to the UART (R143, R145, R193) -/

/-- A TMR that hands over a character ended a settle delay. -/
theorem txph_of_tmr_sends {s t : State} {mark : Bool} {b : Byte} (h : exec .tmr s = .next t)
    (ha : .uartTx mark b ∈ t.actions) : s.blk.txph = .settle := by
  obtain ⟨-, rfl | ⟨-, rfl⟩ | ⟨-, -, hx, -⟩⟩ := exec_tmr h
  · cases ha
  · simp [desync, mem_cancels] at ha
  · exact hx

/-- Settles O19: of the effects an operation can have two hand over a character, one each. -/
theorem charactersLeaveOnlyAfterTheTimer : Obligations.CharactersLeaveOnlyAfterTheTimer := by
  intro i s t mark b h hmem
  cases effect_of_exec h with
  | firstSent hi hb ha =>
    subst hi
    have hx := txph_of_tmr_sends h hmem
    rw [ha, List.mem_singleton] at hmem
    injection hmem with hmark hbyte
    exact ⟨by rw [ha, hmark, hbyte], hb ▸ rfl, .inl ⟨rfl, hx, hmark, hbyte⟩⟩
  | nextSent hi hx hb ha =>
    rw [ha, List.mem_singleton] at hmem
    injection hmem with hmark hbyte
    exact ⟨by rw [ha, hmark, hbyte], hb ▸ hx, .inr ⟨hi, hx, hmark, hbyte⟩⟩
  | kept _ ha | pushed _ _ ha | popped _ _ ha | consumed _ _ _ _ ha | addressed _ _ _ _ ha | commanded _ _ _ _ _ ha
    | stored _ _ _ _ ha | completed _ _ _ _ ha | requested _ _ _ _ ha | responded _ _ _ _ ha | lineToTx _ _ ha =>
    simp [ha] at hmem
  | initialised _ _ _ _ _ ha | released _ _ ha | discarded _ _ _ ha | lineToRx _ _ ha =>
    simp [ha, mem_cancels] at hmem

/-! ### A whole transmission (R143, R193, R198) -/

section
variable {s : State} (h : Inv s) (hx : s.blk.txph = .sending)
include h hx

theorem exec_txc_sending : exec .txc s = .next (txcSending s.start) := by
  rw [exec_txc_eq h.1 (pstate_ne_init_of_txph h.1 (by simp [hx])) (lost_of_inv h), if_pos hx]

/-- TXC with bytes left hands over the byte at the cursor, and a master's COMMAND becomes MSGBODY. -/
theorem exec_txc_more (hmore : 0 < s.blk.remain.toNat) : exec .txc s = .next { s with
    blk := { s.blk with
      cursor := s.blk.cursor + 1
      remain := s.blk.remain - 1
      pstate := if s.blk.pstate = .command then .msgbody else s.blk.pstate }
    result := .nothing
    actions := [.uartTx false (s.blk.frame.byte s.blk.cursor.toNat)] } := by
  rw [exec_txc_sending h hx, txcSending, start_blk, if_pos hmore]
  by_cases hp : s.blk.pstate = .command
  · rw [if_pos hp]
    exact congrArg _ (if_pos hp)
  · rw [if_neg hp]
    exact congrArg _ (if_neg hp)

/-- TXC with no byte left ends the transfer in REQUEST. -/
theorem exec_txc_last (hlast : s.blk.remain.toNat = 0) : exec .txc s = .next (s.into (s.blk.inRequest s.cfg)) := by
  have hcancels : s.blk.cancels = [] := if_neg (by simp [hx])
  rw [exec_txc_sending h hx, txcSending, start_blk, if_neg (by omega), enterRequest_eq]
  simp [hcancels, State.into]

end

/-- As many TXC as bytes are left, and one more, hand over those bytes and end in REQUEST. -/
theorem runOps_txc (n : Nat) : ∀ {s : State}, Inv s → s.blk.txph = .sending → s.blk.remain.toNat = n →
    ∃ t, runOps (List.replicate (n + 1) .txc) s =
        some (t, (List.range' s.blk.cursor.toNat n).map fun j => .uartTx false (s.blk.frame.byte j)) ∧
      t.cfg = s.cfg ∧ t.blk = s.blk.inRequest s.cfg := by
  induction n with
  | zero =>
    intro s h hx hn
    exact ⟨_, runOps_cons (exec_txc_last h hx hn) (runOps_nil _), rfl, rfl⟩
  | succ n ih =>
    intro s h hx hn
    have hstep := exec_txc_more h hx (by omega)
    obtain ⟨hcursor, hremain⟩ := counters_of_sending h hx (by omega)
    obtain ⟨t, hrun, hc, hb⟩ := ih (inv_of_exec h rfl hstep) hx (Nat.succ.inj (hremain.trans hn))
    refine ⟨t, ?_, hc, hb⟩
    rw [List.replicate_succ, runOps_cons hstep hrun, List.range'_succ, ← hcursor]
    rfl

/-- Settles O57: TMR hands over byte 0, and the TXC the bytes from the cursor on. -/
theorem transmissionHandsOverTheWholeFrame : Obligations.TransmissionHandsOverTheWholeFrame := by
  intro s hl hx hu hr
  have hn := not_lost_of_ne hu hr
  obtain ⟨h4, -, -⟩ := txLen_bounds (legal_iff.mp hl).1 s.blk.role
  have hlen : txLen s.cfg s.blk.role = txLen s.cfg s.blk.role - 1 + 1 := by omega
  have hfirst := exec_tmr_settling hl hn hx
  obtain ⟨t, hrun, hc, hb⟩ := runOps_txc (txLen s.cfg s.blk.role - 1) (inv_of_exec (inv_of_legal hl hn) rfl hfirst)
    rfl (remain_after_first hl hn hx)
  have hmark : (s.blk.role == .master) = decide ((0 : Nat) = 0 ∧ s.blk.role = .master) :=
    decide_eq_decide.mpr (by simp)
  have hlater : ∀ j ∈ List.range' 1 (txLen s.cfg s.blk.role - 1),
      Action.uartTx false (s.blk.frame.byte j) =
        .uartTx (decide (j = 0 ∧ s.blk.role = .master)) (s.blk.frame.byte j) := by
    intro j hj
    have hpos : j ≠ 0 := Nat.ne_of_gt (List.mem_range'_1.mp hj).1
    simp [hpos]
  refine ⟨t, ?_, hc, hb⟩
  rw [hlen, runOps_cons hfirst hrun, List.range_eq_range', List.range'_succ, List.map_cons, ← hmark,
    ← List.map_congr_left hlater]
  rfl

end Sys2Proof.Machine
end

section
/-! PROOFS of the statements of 43_psm_api.md: who turns the line (O20), what an initialised slave owns (O45), where
each error code comes from (O51), and what INIT (O21), CONSUME (O23), ISRESP (O24), RESPOND (O25) and SEND (O26) do. -/

namespace Sys2Proof.Machine

/-! ### The line (R136) -/

/-- Settles O20: only an accepted SEND and an accepted RESPOND write TX to the line, and a rejected one does not. -/
theorem lineTurnsToTransmitOnlyInSendAndRespond : Obligations.LineTurnsToTransmitOnlyInSendAndRespond := by
  intro i s t hi h hrx htx
  have hturned : t.blk.dir ≠ s.blk.dir := by simp [hrx, htx]
  cases effect_of_exec h with
  | requested m hi' =>
    subst hi'
    obtain ⟨-, ⟨-, rfl⟩ | ⟨-, -, e, -, rfl⟩ | ⟨hp, hr, hv, -⟩⟩ := exec_send h
    · exact absurd (push_dir _ _) hturned
    · exact absurd (push_dir _ _) hturned
    · exact .inl ⟨m, rfl, hp, hr, hv⟩
  | responded m hi' =>
    subst hi'
    obtain ⟨hl, ⟨-, rfl⟩ | ⟨-, -, e, -, rfl⟩ | ⟨hp, hx, hv, -⟩⟩ := exec_respond h
    · exact absurd (push_dir _ _) hturned
    · exact absurd (push_dir _ _) hturned
    · exact .inr ⟨m, rfl, hp, role_of_response hl hp, hx, hv⟩
  | pushed k hb => exact absurd (hb ▸ push_dir k _) hturned
  | popped _ hb => exact absurd (by rw [hb, pop_eq]) hturned
  | kept hb | consumed _ _ _ hb | addressed _ _ _ hb | commanded _ _ _ _ hb | stored _ _ _ hb | completed _ _ _ hb
    | firstSent _ hb | nextSent _ _ hb => exact absurd (hb ▸ rfl) hturned
  | initialised _ _ _ _ hb | released _ hb | discarded _ _ hb => simp [hb] at htx
  | lineToTx hi' | lineToRx hi' => rw [hi'] at hi; cases hi

/-! ### The address of a slave (R23, R151, R152) -/

theorem internal_of_isEvent {i : Instr} (hi : i.isEvent = true) : i.internal = false := by
  obtain ⟨k, d, rfl⟩ | rfl | rfl | rfl | rfl := isEvent_iff.mp hi <;> rfl

/-- An event before INIT is ignored (R183). -/
theorem exec_event_of_init {i : Instr} {s : State} (hl : s.legal = true) (hp : s.blk.pstate = .init)
    (hi : i.isEvent = true) : exec i s = .next (ignored s) := by
  obtain ⟨k, d, rfl⟩ | rfl | rfl | rfl | rfl := isEvent_iff.mp hi <;> exact (guarded_legal hl _).trans (if_pos hp)

/-- No operation but INIT leaves the state INIT. -/
theorem pstate_of_init {i : Instr} {s t : State} (hi : ∀ r a, i ≠ .init r a) (hp : s.blk.pstate = .init)
    (h : exec i s = .next t) : t.blk.pstate = .init := by
  by_cases hevent : i.isEvent = true
  · rw [exec_event_of_init (legal_of_exec (internal_of_isEvent hevent) h) hp hevent] at h
    cases h
    exact hp
  cases effect_of_exec h with
  | kept hb | responded _ _ _ hb | lineToTx _ hb => exact hb ▸ hp
  | pushed k hb | lineToRx _ hb => simp [hb, hp]
  | popped _ hb => rw [hb, pop_eq, hp]
  | initialised r a hi' => exact absurd hi' (hi r a)
  | consumed _ hp' | requested _ _ hp' => rw [hp] at hp'; cases hp'
  | released hi' =>
    obtain ⟨-, hp'⟩ | rfl := hi'
    · rw [hp] at hp'; cases hp'
    · exact absurd rfl hevent
  | discarded k hi' => exact absurd hi' hevent
  | addressed _ _ hi' | commanded _ _ hi' | stored _ _ hi' | completed _ _ hi' | firstSent hi' | nextSent hi' =>
    exact absurd (hi' ▸ rfl) hevent

/-- A 7-bit address other than 0 keeps a bit when it is stored. -/
theorem storedAddress_ne_zero {a : Byte} (h0 : a ≠ 0) (h : a.toNat ≤ 127) : a.extractLsb' 0 7 ≠ 0 := by
  intro hz
  apply h0
  rw [← address_of_low7 h, hz]
  rfl

/-- Settles O45: INIT stores an address it has tested, and no other operation leaves INIT or writes the address. -/
theorem slaveNeverOwnsTheBroadcastAddress : Obligations.SlaveNeverOwnsTheBroadcastAddress := by
  intro i s t howned h
  by_cases hi : ∃ r a, i = .init r a
  · obtain ⟨r, a, rfl⟩ := hi
    obtain ⟨-, -, haddr, rfl⟩ := exec_init h
    intro _ hr
    rw [enterRequest_blk] at hr ⊢
    obtain ⟨h0, h127⟩ := haddr hr
    exact storedAddress_ne_zero h0 h127
  · push Not at hi
    obtain ⟨-, hrole, hladdr⟩ := identity_eq_iff.mp (exec_keeps_identity hi h)
    intro hp hr
    rw [hladdr]
    exact howned (fun hinit => hp (pstate_of_init hi hinit h)) (hrole ▸ hr)

/-! ### The codes (R221) -/

/-- A sink that holds what it held, or less, has got no code. -/
theorem not_raised {a b : Block} {c : Byte} (h : a.held.length ≤ b.held.length) : a.held ≠ b.held ++ [c] := by
  intro hc
  simp [hc] at h

theorem length_pop_held (b : Block) : b.pop.held.length ≤ b.held.length := by
  by_cases h : b.sp.toNat ≤ 8
  · simp [pop_held h]
  · rw [(pop_beyond (Nat.lt_of_not_le h)).1]

/-- The code a push adds is the one pushed. -/
theorem code_of_push {k c : Byte} {b : Block} (h : (b.push k).held = b.held ++ [c]) : c = k := by
  obtain hk | hk := push_held k b
  · exact absurd h (not_raised (hk ▸ Nat.le_refl _))
  · rw [hk] at h
    simpa using h.symm

/-- The codes of the three checks, each with the check that fails (R123). -/
theorem check_of_validate {m : Msg} {n : Nat} {e : ErrCode} (h : validate m n = some e) :
    (e = .addressInvalid ∧ 127 < m.address.toNat) ∨ (e = .broadcastNoResponse ∧ m.address = 0 ∧ m.rr = true) ∨
      (e = .invalidParamSize ∧ n < m.params.length) := by
  unfold validate at h
  split at h
  · next h1 => exact .inl ⟨(Option.some.inj h).symm, h1⟩
  split at h
  · next h2 => exact .inr (.inl ⟨(Option.some.inj h).symm, h2⟩)
  split at h
  · next h3 => exact .inr (.inr ⟨(Option.some.inj h).symm, h3⟩)
  · cases h

/-- After INIT a block that is not lost is in one of the five states of an exchange. -/
theorem pstate_mem_of_not_lost {b : Block} (hinit : b.pstate ≠ .init) (hn : b.lost = false) :
    b.pstate ∈ [PState.request, .command, .msgbody, .process, .response] := by
  cases hp : b.pstate with
  | init => exact absurd hp hinit
  | unknown | reset => simp [Block.lost, hp] at hn
  | request | command | msgbody | process | response => decide

theorem slave_of_ne_master {r : Role} (h : r ≠ .master) : r = .slave := by
  cases r with
  | slave => rfl
  | master => exact absurd rfl h

section
variable {s t : State} {c : Byte} (hc : t.blk.held = s.blk.held ++ [c])
include hc

/-- An event that discards the exchange raises its code and ends in REQUEST (R182, R190, R195). -/
theorem code_of_discard {k : Byte} (hb : t.blk = (s.blk.push k).inRequest s.cfg) :
    c = k ∧ t.blk.pstate = .request := by
  rw [hb] at hc ⊢
  exact ⟨code_of_push hc, rfl⟩

theorem code_of_desync (ht : t = desync s.start) : c = 10 ∧ t.blk.pstate = .request :=
  code_of_discard hc (by rw [ht, desync_eq]; rfl)

/-- SEND raises code 1 when it is not expected, or the code of the check that fails (R168, R169). -/
theorem code_of_send {m : Msg} (h : exec (.send m) s = .next t) :
    (c = 1 ∧ (s.blk.pstate ≠ .request ∨ s.blk.role = .slave)) ∨
      ∃ e, c = e.code ∧ validate m s.cfg.nParam = some e := by
  obtain ⟨-, ⟨hr, rfl⟩ | ⟨-, -, e, he, rfl⟩ | ⟨-, -, -, rfl⟩⟩ := exec_send h
  · exact .inl ⟨code_of_push hc, (not_and_or.mp hr).imp_right slave_of_ne_master⟩
  · exact .inr ⟨e, code_of_push hc, he⟩
  · exact absurd hc (not_raised (Nat.le_refl _))

/-- RESPOND raises code 2 when it is not eligible, or the code of the check that fails (R160, R161). -/
theorem code_of_respond {m : Msg} (h : exec (.respond m) s = .next t) :
    (c = 2 ∧ ¬(s.blk.pstate = .response ∧ s.blk.txph = .none)) ∨
      ∃ e, c = e.code ∧ validate m s.cfg.nRet = some e := by
  obtain ⟨-, ⟨hr, rfl⟩ | ⟨-, -, e, he, rfl⟩ | ⟨-, -, -, rfl⟩⟩ := exec_respond h
  · exact .inl ⟨code_of_push hc, hr⟩
  · exact .inr ⟨e, code_of_push hc, he⟩
  · exact absurd hc (not_raised (Nat.le_refl _))

/-- CONSUME raises code 3 outside PROCESS (R154). -/
theorem code_of_consume (h : exec .consume s = .next t) : c = 3 ∧ s.blk.pstate ≠ .process := by
  obtain ⟨-, ⟨hp, rfl⟩ | ⟨-, r, -, ⟨-, -, rfl⟩ | ⟨-, rfl⟩⟩⟩ := exec_consume h
  · exact ⟨code_of_push hc, hp⟩
  · exact absurd hc (not_raised (Nat.le_refl _))
  · exact absurd hc (not_raised (by simp))

/-- The last byte of a frame raises code 8 when the frame does not verify, and code 5 when it does and is addressed to
0x80 (R190). -/
theorem code_of_frameComplete {b : Byte} (hl : s.legal = true) (hp : s.blk.pstate = .msgbody) (hd : s.blk.dir = .rx)
    (ht : t = frameComplete (rxStore b s.start)) : t.blk.pstate = .request ∧
      ((c = 8 ∧ crcVerify s.cfg ((s.blk.frame.set s.blk.cursor.toNat b).take (rxLen s.cfg s.blk.role)) = false) ∨
       (c = 5 ∧ crcVerify s.cfg ((s.blk.frame.set s.blk.cursor.toNat b).take (rxLen s.cfg s.blk.role)) = true ∧
          s.blk.frame.byte 0 = 0x80)) := by
  obtain ⟨hcfg, -, hf, -⟩ := legal_iff.mp hl
  obtain ⟨h4, -, hmax⟩ := rxLen_bounds hcfg s.blk.role
  have hlen : (rxStore b s.start).blk.frame.length = s.cfg.lMax := (length_write _ _ _).trans hf
  have hdiscard {k : Byte} (he : frameComplete (rxStore b s.start) = enterRequest (sinkPush k (rxStore b s.start))) :
      c = k ∧ t.blk.pstate = .request :=
    code_of_discard hc (by rw [ht, he, enterRequest_blk]; exact inRequest_push_rxStore _ _ _ _)
  obtain ⟨hcrc, he⟩ | ⟨hcrc, h0, he⟩ | ⟨-, -, he⟩ :=
    frameComplete_cases (s := rxStore b s.start) (by rw [hlen]; exact hmax) h4
  · obtain ⟨hk, hr⟩ := hdiscard he
    exact ⟨hr, .inl ⟨hk, hcrc⟩⟩
  · obtain ⟨hk, hr⟩ := hdiscard he
    have hcursor : 0 ≠ s.blk.cursor.toNat := by
      obtain ⟨-, -, -, h2, -⟩ := body_facts hl hp hd
      omega
    have hbyte : (rxStore b s.start).blk.frame.byte 0 = s.blk.frame.byte 0 := byte_write_ne hcursor b
    exact ⟨hr, .inr ⟨hk, hcrc, hbyte ▸ h0⟩⟩
  · rw [ht, he] at hc
    exact absurd hc (not_raised (Nat.le_refl _))

/-- A desynchronization in UNKNOWN or RESET (R28, R182 b). -/
theorem code_of_lost (hn : s.blk.lost = true) (ht : t = desync s.start) :
    t.blk.pstate = .request ∧ c = 10 ∧ (s.blk.pstate = .unknown ∨ s.blk.pstate = .reset) := by
  obtain ⟨hcode, hreq⟩ := code_of_desync hc ht
  exact ⟨hreq, hcode, lost_iff.mp hn⟩

/-- RXB raises code 9 for a frame it drops (R188), code 8 or 5 for the last byte of a frame (R190), or code 10 (R182). -/
theorem code_of_rxb {k : Bool} {b : Byte} (h : exec (.rxb k b) s = .next t) :
    (c = 9 ∧ k = true ∧ (s.blk.pstate = .process ∨ s.blk.pstate = .response) ∧ s.blk.dir = .rx ∧
      (s.blk.role = .master ∨ addressMatch s.blk.laddr b = true)) ∨
    t.blk.pstate = .request ∧
      ((c = 10 ∧ (s.blk.pstate = .unknown ∨ s.blk.pstate = .reset)) ∨
       (c = 10 ∧ k = true ∧ (s.blk.pstate = .command ∨ s.blk.pstate = .msgbody) ∧ s.blk.dir = .rx) ∨
       (k = false ∧ s.blk.pstate = .msgbody ∧ s.blk.dir = .rx ∧ s.blk.remain = 1 ∧
        ((c = 8 ∧ crcVerify s.cfg ((s.blk.frame.set s.blk.cursor.toNat b).take (rxLen s.cfg s.blk.role)) = false) ∨
         (c = 5 ∧ crcVerify s.cfg ((s.blk.frame.set s.blk.cursor.toNat b).take (rxLen s.cfg s.blk.role)) = true ∧
            s.blk.frame.byte 0 = 0x80)))) := by
  obtain ⟨hl, rfl | ⟨hn, ht⟩ | ⟨-, -, -, -, rfl⟩ | ⟨hp, hd, hk, ht⟩ | ⟨-, -, -, rfl⟩ | ⟨-, -, -, -, rfl⟩ |
    ⟨hp, hd, hk, hr, ht⟩ | ⟨hp, hd, hk, hm, rfl⟩⟩ := exec_rxb h
  case inr.inr.inr.inr.inr.inr.inr => exact .inl ⟨code_of_push hc, hk, hp, hd, hm⟩
  case inr.inl => exact .inr ((code_of_lost hc hn ht).imp_right .inl)
  case inr.inr.inr.inl =>
    obtain ⟨hcode, hreq⟩ := code_of_desync hc ht
    exact .inr ⟨hreq, .inr (.inl ⟨hcode, hk, hp, hd⟩)⟩
  case inr.inr.inr.inr.inr.inr.inl =>
    obtain ⟨hreq, hlast⟩ := code_of_frameComplete hc hl hp hd ht
    exact .inr ⟨hreq, .inr (.inr ⟨hk, hp, hd, hr, hlast⟩)⟩
  all_goals exact absurd hc (not_raised (Nat.le_refl _))

/-- An event other than RXB raises code 7 (R195) or code 10 (R182, R196). -/
theorem code_of_event {i : Instr} (hi : i.isEvent = true) (hrxb : ∀ k b, i ≠ .rxb k b) (h : exec i s = .next t) :
    t.blk.pstate = .request ∧
      ((c = 7 ∧ i = .rxerr ∧ s.blk.pstate ∈ [PState.request, .command, .msgbody, .process, .response]) ∨
       (c = 10 ∧ (s.blk.pstate = .unknown ∨ s.blk.pstate = .reset)) ∨
       (c = 10 ∧ i = .desync ∧ s.blk.pstate ≠ .init)) := by
  obtain ⟨k, b, rfl⟩ | rfl | rfl | rfl | rfl := isEvent_iff.mp hi
  · exact absurd rfl (hrxb k b)
  · obtain ⟨-, rfl | ⟨hn, ht⟩ | ⟨-, -, -, -, rfl⟩ | ⟨-, -, -, -, rfl⟩⟩ := exec_txc h
    · exact absurd hc (not_raised (Nat.le_refl _))
    · exact (code_of_lost hc hn ht).imp_right fun hp => .inr (.inl hp)
    · exact absurd hc (not_raised (Nat.le_refl _))
    · exact absurd hc (not_raised (by simp))
  · obtain ⟨-, ⟨-, rfl⟩ | ⟨hn, ht⟩ | ⟨hn, hinit, ht⟩⟩ := exec_rxerr h
    · exact absurd hc (not_raised (Nat.le_refl _))
    · exact (code_of_lost hc hn ht).imp_right fun hp => .inr (.inl hp)
    · obtain ⟨hcode, hreq⟩ := code_of_discard hc (k := 7) (by rw [ht, enterRequest_blk]; rfl)
      exact ⟨hreq, .inl ⟨hcode, rfl, pstate_mem_of_not_lost hinit hn⟩⟩
  · obtain ⟨-, rfl | ⟨hn, ht⟩ | ⟨-, -, -, rfl⟩⟩ := exec_tmr h
    · exact absurd hc (not_raised (Nat.le_refl _))
    · exact (code_of_lost hc hn ht).imp_right fun hp => .inr (.inl hp)
    · exact absurd hc (not_raised (Nat.le_refl _))
  · obtain ⟨-, ⟨-, rfl⟩ | ⟨hinit, ht⟩⟩ := exec_desync h
    · exact absurd hc (not_raised (Nat.le_refl _))
    · obtain ⟨hcode, hreq⟩ := code_of_desync hc ht
      exact ⟨hreq, .inr (.inr ⟨hcode, rfl, hinit⟩)⟩

/-- The operations that neither report nor discard an exchange raise no code. -/
theorem raising_operation {i : Instr} (h : exec i s = .next t) (hpush : ∀ x, i ≠ .errpush x) :
    (∃ m, i = .send m) ∨ (∃ m, i = .respond m) ∨ i = .consume ∨ i.isEvent = true := by
  cases i with
  | send m => exact .inl ⟨m, rfl⟩
  | respond m => exact .inr (.inl ⟨m, rfl⟩)
  | consume => exact .inr (.inr (.inl rfl))
  | rxb _ _ | txc | rxerr | tmr | desync => exact .inr (.inr (.inr rfl))
  | errpush x => exact absurd rfl (hpush x)
  | init r a =>
    obtain ⟨-, -, -, rfl⟩ := exec_init h
    exact absurd hc (not_raised (by simp [storeIdentity, Block.held]))
  | errpop =>
    obtain ⟨-, rfl⟩ := exec_errpop h
    exact absurd hc (not_raised (length_pop_held _))
  | dirtx =>
    obtain rfl := exec_dirtx h
    exact absurd hc (not_raised (Nat.le_refl _))
  | dirrx =>
    obtain rfl := exec_dirrx h
    exact absurd hc (not_raised (by simp [Block.held]))
  | avail | isresp _ | errpeek | errovf | crc16 _ | crcvfy _ | encode _ _ | decode _ =>
    obtain ⟨-, r, rfl⟩ := exec_pure rfl h
    exact absurd hc (not_raised (Nat.le_refl _))

end

/-- Settles O51: for each operation that raises a code, the code is one of its rows. -/
theorem codesAreRaisedOnlyWhereListed : Obligations.CodesAreRaisedOnlyWhereListed := by
  intro i s t c h hc hpush
  obtain ⟨m, rfl⟩ | ⟨m, rfl⟩ | rfl | hi := raising_operation hc h hpush
  · obtain hk | ⟨e, rfl, he⟩ := code_of_send hc h
    · simp [hk]
    · obtain ⟨rfl, hv⟩ | ⟨rfl, hv⟩ | ⟨rfl, hv⟩ := check_of_validate he <;> simp [ErrCode.code, hv]
  · obtain hk | ⟨e, rfl, he⟩ := code_of_respond hc h
    · simp [hk]
    · obtain ⟨rfl, hv⟩ | ⟨rfl, hv⟩ | ⟨rfl, hv⟩ := check_of_validate he <;> simp [ErrCode.code, hv]
  · simp [code_of_consume hc h]
  by_cases hrxb : ∃ k b, i = .rxb k b
  · obtain ⟨k, b, rfl⟩ := hrxb
    obtain ⟨rfl, hk⟩ | ⟨hreq, ⟨rfl, hp | hp⟩ | ⟨rfl, hk⟩ | ⟨rfl, hp, hd, hr, ⟨rfl, hcrc⟩ | ⟨rfl, hcrc, h0⟩⟩⟩ :=
      code_of_rxb hc h
    · simp [hk]
    · simp [hreq, hi, hp]
    · simp [hreq, hi, hp]
    · simp [hreq, hk, Instr.isEvent]
    · simp [hreq, hp, hd, hr, hcrc]
    · simp [hreq, hp, hd, hr, hcrc, h0]
  · push Not at hrxb
    obtain ⟨hreq, ⟨rfl, hk⟩ | ⟨rfl, hp | hp⟩ | ⟨rfl, hk⟩⟩ := code_of_event hc hi hrxb h
    · simpa [hreq, hk.1] using hk.2
    · simp [hreq, hi, hp]
    · simp [hreq, hi, hp]
    · simp [hreq, hk, Instr.isEvent]

/-! ### INIT (R151, R152) -/

theorem roleOfBit_bitOfRole (r : Role) : roleOfBit (bitOfRole r) = r := by cases r <;> rfl

/-- The word of INIT: the role in bit 8, the address in the low byte (R90). -/
theorem init_word (role : Role) (addr : Byte) :
    (if role = .master then 0x0100 else 0x0000) + addr.setWidth 16 = mkWord 0 (bitOfRole role) addr := by
  rw [← word_eq_mkWord]
  cases role <;> rfl

/-- No timer is armed in INIT (R44). -/
theorem cancels_of_init {s : State} (hl : s.legal = true) (hp : s.blk.pstate = .init) : s.blk.cancels = [] := by
  obtain ⟨-, -, -, -, ht, -⟩ := legal_iff.mp hl
  simp [Block.cancels, ((onTable_init hp).mp ht).2.1]

/-- Settles O21: a format FB word, and at a legal state the state and then the operands are tested. -/
theorem initEntersRequestOnceOrIsRefused : Obligations.InitEntersRequestOnceOrIsRefused := by
  intro s role addr rest hl
  refine ⟨?_, fun hp haddr => ?_, fun hp => ?_, fun hp => ?_, fun hp h127 => ?_⟩
  · have hdec := decodeStimulus_formatFB (fun f b => .init (roleOfBit f) b) 0 (bitOfRole role) addr
      (init_word role addr) rest (fun _ _ _ => rfl) rfl
    rwa [roleOfBit_bitOfRole] at hdec
  · have hzero : ¬(role = .slave ∧ addr = 0) := by
      rintro ⟨hr, rfl⟩
      exact absurd (haddr hr).1 (by decide)
    have hrange : ¬(role = .slave ∧ Config.addrMax < addr.toNat) := fun ⟨hr, h⟩ =>
      Nat.not_le_of_lt h (haddr hr).2
    have hcancels : (storeIdentity role addr s.start).blk.cancels = [] :=
      (rfl : _ = s.blk.cancels).trans (cancels_of_init hl hp)
    simp only [exec, execInit, guarded_legal hl, if_neg (not_not_intro hp), if_neg hzero, if_neg hrange]
    rw [enterRequest_eq, hcancels]
    cases role <;> rfl
  · exact (guarded_legal hl _).trans (if_pos hp)
  · exact (guarded_legal hl _).trans ((if_neg (not_not_intro hp)).trans (if_pos ⟨rfl, rfl⟩))
  · have hzero : ¬(Role.slave = .slave ∧ addr = 0) := by
      rintro ⟨-, rfl⟩
      exact absurd h127 (by decide)
    exact (guarded_legal hl _).trans ((if_neg (not_not_intro hp)).trans ((if_neg hzero).trans (if_pos ⟨rfl, h127⟩)))

/-! ### CONSUME (R154, R155, R156) -/

/-- CONSUME of a frame touches neither the configuration nor the input. -/
theorem consumeFrame_environment (s : State) : (consumeFrame s).cfg = s.cfg ∧ (consumeFrame s).input = s.input := by
  simp only [consumeFrame, returns_cfg, returns_input]
  split <;> simp

/-- Settles O23: a format Z word, and at a legal state the protocol state decides. In PROCESS the message is the view of
the frame, and no timer is armed. -/
theorem consumeReturnsTheFrameOrReportsNone : Obligations.ConsumeReturnsTheFrameOrReportsNone := by
  intro s rest hl
  refine ⟨decodeStimulus_formatZ .consume 2 (by decide) rest (fun _ _ _ => rfl) rfl,
    fun hp => (guarded_legal hl _).trans (if_pos hp), fun hp => ?_⟩
  refine (guarded_legal hl _).trans ((if_neg (not_not_intro hp)).trans (congrArg _ ?_))
  obtain ⟨hc, -, hf, -, ht, -⟩ := legal_iff.mp hl
  obtain ⟨-, hx, -⟩ := (onTable_process hp).mp ht
  obtain ⟨-, -, hmax⟩ := rxLen_bounds hc s.blk.role
  obtain ⟨hcfg, hinput⟩ := consumeFrame_environment s.start
  refine state_ext hcfg (consumeFrame_blk s.start) hinput ?_ (consumeFrame_actions hx)
  rw [consumeFrame_result, start_blk, start_cfg, messageView_take (rxN_add_four hc _).symm (hf ▸ hmax)]

/-! ### ISRESP (R157) -/

/-- Settles O24: a format M word, and at a legal state the guard passes. -/
theorem isrespAnswersTheOperandsFlag : Obligations.IsrespAnswersTheOperandsFlag := fun _ m rest hl hlen =>
  ⟨decodeStimulus_formatM .isresp 3 (by decide) m rest (decide_eq_true hlen) (fun _ _ _ => rfl) rfl,
    guarded_legal hl _⟩

/-! ### RESPOND (R160 to R162) -/

theorem respondEligible_iff {b : Block} : b.respondEligible = true ↔ b.pstate = .response ∧ b.txph = .none := by
  simp [Block.respondEligible]

/-- Settles O25: a format M word; at a legal state eligibility is tested, and then `validate` decides. -/
theorem respondLoadsTheResponseOrReports : Obligations.RespondLoadsTheResponseOrReports := by
  intro s m rest hl
  have heligible (hp : s.blk.pstate = .response) (hx : s.blk.txph = .none) : ¬ s.blk.respondEligible = false := by
    simp [respondEligible_iff.mpr ⟨hp, hx⟩]
  refine ⟨fun hlen => decodeStimulus_formatM .respond 4 (by decide) m rest (decide_eq_true hlen) (fun _ _ _ => rfl) rfl,
    fun h => ?_, fun hp hx e he => ?_, fun hp hx hv => ?_⟩
  · exact (guarded_legal hl _).trans (if_pos (Bool.eq_false_iff.mpr fun h' => h (respondEligible_iff.mp h')))
  · refine (guarded_legal hl _).trans ((if_neg (heligible hp hx)).trans ?_)
    rw [he]
    rfl
  · refine (guarded_legal hl _).trans ((if_neg (heligible hp hx)).trans ?_)
    rw [hv]
    rfl

/-! ### SEND (R168 to R170) -/

/-- Settles O26: a format M word; at a legal state `PSTATE` and `ROLE` are tested, and then `validate` decides. -/
theorem sendLoadsTheRequestOrReports : Obligations.SendLoadsTheRequestOrReports := by
  intro s m rest hl
  refine ⟨fun hlen => decodeStimulus_formatM .send 5 (by decide) m rest (decide_eq_true hlen) (fun _ _ _ => rfl) rfl,
    fun h => (guarded_legal hl _).trans (if_pos h), fun hp hr e he => ?_, fun hp hr hv => ?_⟩
  · refine (guarded_legal hl _).trans ((if_neg (not_not_intro ⟨hp, hr⟩)).trans ?_)
    rw [he]
    rfl
  · refine (guarded_legal hl _).trans ((if_neg (not_not_intro ⟨hp, hr⟩)).trans ?_)
    rw [hv]
    rfl

end Sys2Proof.Machine
end

section
/-! PROOFS of the statements of 44_psm_events.md. Where the dispatch of RXB takes a character (R185) is said once for
each launch state. The lines it leads to (O27 to O30, O33), the last byte of a frame (O32), the whole reception (O56)
and the one way into PROCESS (O55) follow, then TXC (O34), RXERR (O35), DESYNC (O36) and the events before INIT
(O37). -/

namespace Sys2Proof.Machine

/-! ### The dispatch of a character (R185) -/

theorem dir_rx_of_ne_tx {d : Dir} (h : d ≠ .tx) : d = .rx := by
  cases d with
  | rx => rfl
  | tx => exact absurd rfl h

/-- The states of an exchange are past INIT and have rows in the table. -/
theorem live_of_mem {b : Block} (hp : b.pstate ∈ [PState.request, .command, .msgbody, .process, .response]) :
    b.pstate ≠ .init ∧ b.lost = false :=
  ⟨fun e => by simp [e] at hp, not_lost_of_mem (List.mem_cons_of_mem _ hp)⟩

section
variable {s : State} (hl : s.legal = true)
include hl

/-- A character is ignored while the node drives the bus, and by the filter when it is unmarked. -/
theorem exec_rxb_gated (hinit : s.blk.pstate ≠ .init) (hn : s.blk.lost = false) {k : Bool}
    (hg : s.blk.dir = .tx ∨ (s.blk.afilt = true ∧ k = false)) (b : Byte) : exec (.rxb k b) s = .next (ignored s) := by
  by_cases hd : s.blk.dir = .tx
  · simp [exec, execRxb, guarded_legal hl, hinit, hn, hd]
  · have hfilter := hg.resolve_left hd
    simp [exec, execRxb, guarded_legal hl, hinit, hn, hd, hfilter]

/-- In REQUEST the line of R186 is reached; the filter of an idle slave lets marked characters through. -/
theorem exec_rxb_request (hp : s.blk.pstate = .request) {k : Bool} (hk : s.blk.role = .slave → k = true) (b : Byte) :
    exec (.rxb k b) s = .next (rxRequest b s.start) := by
  obtain ⟨-, -, -, -, ht, -⟩ := legal_iff.mp hl
  obtain ⟨hd, -, hafilt, -⟩ := (onTable_request hp).mp ht
  have hpass : ¬(s.blk.afilt = true ∧ k = false) := by
    rintro ⟨ha, rfl⟩
    rw [hafilt, idleFilter_eq, decide_eq_true_eq] at ha
    cases hk ha
  simp [exec, execRxb, guarded_legal hl, Block.lost, hp, hd, hpass]

/-- In COMMAND the line of R187 is reached, the filter being off. -/
theorem exec_rxb_command (hp : s.blk.pstate = .command) (hd : s.blk.dir = .rx) (k : Bool) (b : Byte) :
    exec (.rxb k b) s = .next (rxCommand k b s.start) := by
  obtain ⟨-, hcommand, -⟩ := filterFits_of_legal hl
  simp [exec, execRxb, guarded_legal hl, Block.lost, hp, hd, hcommand hp]

/-- While a frame is held the line of R188 is reached by a marked character. -/
theorem exec_rxb_held (hp : s.blk.pstate = .process ∨ s.blk.pstate = .response) (hd : s.blk.dir = .rx) (b : Byte) :
    exec (.rxb true b) s = .next (rxBusy b s.start) := by
  obtain hp | hp := hp <;> simp [exec, execRxb, guarded_legal hl, Block.lost, hp, hd]

/-- No timer is armed while a node that is not lost does not drive the bus. -/
theorem cancels_of_dir_rx (hn : s.blk.lost = false) (hd : s.blk.dir = .rx) : s.blk.cancels = [] := by
  obtain ⟨-, -, -, -, ht, -⟩ := legal_iff.mp hl
  have hnone : s.blk.txph = .none := by simpa [hd] using dir_tx_iff ht hn
  exact if_neg (by simp [hnone])

/-- A desynchronization is silent while the node does not drive the bus. -/
theorem desync_of_dir_rx (hn : s.blk.lost = false) (hd : s.blk.dir = .rx) :
    desync s.start = s.into ((s.blk.push 10).inRequest s.cfg) := by
  rw [desync_eq, start_blk, cancels_of_dir_rx hl hn hd]
  rfl

/-- Inside a frame a marked character is a desynchronization (R182 c). -/
theorem exec_rxb_marked (hp : s.blk.pstate = .command ∨ s.blk.pstate = .msgbody) (hd : s.blk.dir = .rx) (b : Byte) :
    exec (.rxb true b) s = .next (desync s.start) := by
  obtain hp | hp := hp
  · exact exec_rxb_command hl hp hd true b
  · exact exec_rxb_msgbody hl hp hd true b

end

/-! ### What a character does in REQUEST and while a frame is held (R186, R188) -/

section
variable {s : State} {b : Byte}

theorem rxRequest_of_other (hr : s.blk.role = .slave) (hm : addressMatch s.blk.laddr b = false) : rxRequest b s = s :=
  if_pos ⟨hr, hm⟩

theorem rxBusy_of_other (hr : s.blk.role = .slave) (hm : addressMatch s.blk.laddr b = false) : rxBusy b s = s :=
  if_neg (by simp [hr, hm])

end

/-- Settles O27: a character that passes the gates is marked at a slave, and then its address decides. -/
theorem charactersForOthersAreIgnored : Obligations.CharactersForOthersAreIgnored := by
  intro s k b hl hp hwhy
  obtain ⟨hinit, hn⟩ := live_of_mem hp
  by_cases hg : s.blk.dir = .tx ∨ (s.blk.afilt = true ∧ k = false)
  · exact exec_rxb_gated hl hinit hn hg b
  obtain ⟨hd, hpass⟩ := not_or.mp hg
  obtain ⟨hpr, hr, hladdr, hzero⟩ := (hwhy.resolve_left hd).resolve_left hpass
  have hother : addressMatch s.blk.laddr b = false := addressMatch_false.mpr ⟨hladdr, hzero⟩
  obtain ⟨hrequest, -, -, hprocess, hresponse, -⟩ := filterFits_of_legal hl
  have hmark (ha : s.blk.afilt = true) : k = true := by simpa using not_and.mp hpass ha
  have hheld (hp : s.blk.pstate = .process ∨ s.blk.pstate = .response) (ha : s.blk.afilt = true) :
      exec (.rxb k b) s = .next s.start := by
    rw [hmark ha, exec_rxb_held hl hp (dir_rx_of_ne_tx hd), rxBusy_of_other (s := s.start) hr hother]
  simp only [List.mem_cons, List.not_mem_nil, or_false] at hpr
  obtain hp | hp | hp := hpr
  · have hk : k = true := hmark (by simp [hrequest hp, hr])
    exact (exec_rxb_request hl hp (fun _ => hk) b).trans
      (congrArg _ (rxRequest_of_other (s := s.start) hr hother))
  · exact hheld (.inl hp) (hprocess hp)
  · exact hheld (.inr hp) (hresponse hp).1

/-- The word of RXB: the mark in bit 8, the character in the low byte (R90). -/
theorem rxb_word (k : Bool) (b : Byte) :
    (if k then 0x8100 else 0x8000) + b.setWidth 16 = mkWord 16 k b := by
  rw [← word_eq_mkWord]
  cases k <;> rfl

/-- Settles O28: a format FB word; the line of R186 at a character the node takes, and O27 at another. -/
theorem addressByteStartsAFrame : Obligations.AddressByteStartsAFrame := by
  intro s k b rest hl hp
  refine ⟨decodeStimulus_formatFB .rxb 16 k b (rxb_word k b) rest (fun _ _ _ => rfl) rfl, fun hm => ?_,
    fun hr hladdr hzero => ?_⟩
  · have hmine : ¬(s.blk.role = .slave ∧ addressMatch s.blk.laddr b = false) := by
      rintro ⟨hr, hother⟩
      rw [addressMatch_true.mpr (hm hr).2] at hother
      cases hother
    exact (exec_rxb_request hl hp (fun hr => (hm hr).1) b).trans (congrArg _ (if_neg hmine))
  · exact charactersForOthersAreIgnored s k b hl (by simp [hp]) (.inr (.inr ⟨by simp [hp], hr, hladdr, hzero⟩))

/-- Settles O30: the desynchronization cancels nothing, since a receiving node has no timer armed. -/
theorem markedCharacterInsideAFrameResynchronizes : Obligations.MarkedCharacterInsideAFrameResynchronizes := by
  intro s b hl hp hd
  have hn : s.blk.lost = false := not_lost_of_mem (by obtain hp | hp := hp <;> simp [hp])
  rw [exec_rxb_marked hl hp hd, desync_of_dir_rx hl hn hd]
  rfl

/-- Settles O29: the line of R187 for an unmarked character, and O30 for a marked one. -/
theorem commandByteIsStored : Obligations.CommandByteIsStored := fun s b hl hp hd =>
  ⟨exec_rxb_command hl hp hd false b, markedCharacterInsideAFrameResynchronizes s b hl (.inl hp) hd⟩

/-- Settles O33: the filter is on in both rows of the table, and the line of R188 tests role and address. -/
theorem newFrameIsDroppedWhileOneIsHeld : Obligations.NewFrameIsDroppedWhileOneIsHeld := by
  intro s b hl hp hd
  obtain ⟨-, -, -, hprocess, hresponse, -⟩ := filterFits_of_legal hl
  refine ⟨hp.elim hprocess fun hp => (hresponse hp).1, fun hm => ?_, fun hr hladdr hzero => ?_⟩
  · have hmine : s.blk.role = .master ∨ addressMatch s.blk.laddr b = true := hm.imp_right addressMatch_true.mpr
    exact (exec_rxb_held hl hp hd b).trans (congrArg _ (if_pos hmine))
  · have hother : addressMatch s.blk.laddr b = false := addressMatch_false.mpr ⟨hladdr, hzero⟩
    exact (exec_rxb_held hl hp hd b).trans (congrArg _ (rxBusy_of_other (s := s.start) hr hother))

/-! ### The last byte of a frame (R189, R190) -/

/-- The last unmarked character is stored and the frame classified. -/
theorem rxBody_of_last {s : State} (hr : s.blk.remain = 1) (b : Byte) :
    rxBody false b s = frameComplete (rxStore b s) := by
  have hlast : (rxStore b s).blk.remain = 0 := by simp [rxStore, hr]
  simp only [rxBody, Bool.false_eq_true, if_false, if_pos hlast]

/-- A frame discarded at its last byte leaves the block of REQUEST and the code of the check that failed. -/
theorem discard_stored {s : State} (hcancels : s.blk.cancels = []) (k b : Byte) :
    enterRequest (sinkPush k (rxStore b s.start)) = s.into ((s.blk.push k).inRequest s.cfg) := by
  have hnone : (sinkPush k (rxStore b s.start)).blk.cancels = [] := (push_cancels k _).trans hcancels
  rw [enterRequest_eq, hnone, sinkPush_blk, ← inRequest_push_rxStore s.cfg k b s]
  rfl

/-- Settles O32: the store leaves CURSOR at the length, and the two checks of `frame_complete` decide in turn. -/
theorem lastByteClassifiesTheFrame : Obligations.LastByteClassifiesTheFrame := by
  rintro s b f l hl hp hd hr rfl rfl
  obtain ⟨-, -, -, h2, -, hsum⟩ := body_facts hl hp hd
  obtain ⟨h4, hmax, -⟩ := rxLen_bounds (legal_iff.mp hl).1 s.blk.role
  have hone : s.blk.remain.toNat = 1 := congrArg BitVec.toNat hr
  have hstep : exec (.rxb false b) s = .next (frameComplete (rxStore b s.start)) := by
    rw [exec_rxb_msgbody hl hp hd, rxBody_of_last (s := s.start) hr]
  have hcancels := cancels_of_dir_rx hl (by simp [Block.lost, hp]) hd
  have hfield (f : Memory) : crcField f (rxLen s.cfg s.blk.role - 2) =
      f.byte (rxLen s.cfg s.blk.role - 1) ++ f.byte (rxLen s.cfg s.blk.role - 2) := by
    have hidx : rxLen s.cfg s.blk.role - 2 + 1 = rxLen s.cfg s.blk.role - 1 := by omega
    rw [crcField, hidx]
    rfl
  rw [← hfield, hstep]
  refine ⟨by omega, fun hcrc => ?_, fun hcrc h0 => ?_, fun hcrc h0 => ?_⟩
  · have hclass : frameComplete (rxStore b s.start) = _ := if_pos hcrc
    rw [hclass, discard_stored hcancels]
    rfl
  · have hclass : frameComplete (rxStore b s.start) = _ := (if_neg (not_not_intro hcrc)).trans (if_pos h0)
    rw [hclass, discard_stored hcancels]
    rfl
  · have hclass : frameComplete (rxStore b s.start) = _ := (if_neg (not_not_intro hcrc)).trans (if_neg h0)
    have hcursor : s.blk.cursor + 1 = BitVec.ofNat 8 (rxLen s.cfg s.blk.role) := by
      apply BitVec.eq_of_toNat_eq
      rw [BitVec.toNat_add, toNat_ofNat_of_le hmax]
      simp
      omega
    have hremain : s.blk.remain - 1 = 0 := by simp [hr]
    rw [hclass, ← hcursor, ← hremain]
    rfl

/-! ### A whole reception (R186 to R190) -/

/-- The block of a whole frame received, written out. -/
theorem holding_eq {c : Cfg} {b : Block} {frame : List Byte} (hlen : frame.length = rxLen c b.role) :
    b.holding c frame = { b with
      frame := frame ++ List.replicate (c.lMax - rxLen c b.role) 0
      cursor := BitVec.ofNat 8 (rxLen c b.role)
      remain := 0
      inuse := true
      afilt := true
      pstate := .process } := by
  simp [Block.holding, Block.receiving, storedBytes, hlen]

/-- Settles O56: the run of the reception ends in the block its classification gives. -/
theorem receptionClassifiesEveryFrame : Obligations.ReceptionClassifiesEveryFrame := by
  intro s k b0 body hl hp hm hlen
  refine ⟨_, runOps_reception hl hp (fun hr => (hm hr).imp_right addressMatch_true.mpr) hlen, rfl, ?_⟩
  rw [into_blk, Block.received, holding_eq (by simpa using hlen)]
  rfl

/-! ### The way into PROCESS (R39, R153) -/

/-- Of the effects an operation can have one enters PROCESS, that of a character. -/
theorem rxb_of_enters_process {i : Instr} {s t : State} (h : exec i s = .next t) (hs : s.blk.pstate ≠ .process)
    (ht : t.blk.pstate = .process) : ∃ k b, i = .rxb k b := by
  cases effect_of_exec h with
  | addressed k d hi | commanded k d hi | stored k d hi | completed k d hi => exact ⟨k, d, hi⟩
  | kept hb | responded _ _ _ hb | firstSent _ hb | lineToTx _ hb =>
    exact absurd ((congrArg Block.pstate hb).symm.trans ht) hs
  | pushed k hb | lineToRx _ hb => exact absurd (by simpa [hb] using ht) hs
  | popped _ hb => exact absurd (by rwa [hb, pop_eq] at ht) hs
  | initialised _ _ _ _ hb | released _ hb | discarded _ _ hb | consumed _ _ _ hb | requested _ _ _ hb =>
    rw [hb] at ht
    cases ht
  | nextSent _ _ hb =>
    rw [hb] at ht
    change (if s.blk.pstate = .command then PState.msgbody else s.blk.pstate) = .process at ht
    split at ht
    · cases ht
    · exact absurd ht hs

/-- The classification of a stored frame ends in PROCESS only when both its checks pass. -/
theorem valid_of_frameComplete {s : State} (hb : rxLen s.cfg s.blk.role ≤ s.blk.frame.length)
    (h4 : 4 ≤ rxLen s.cfg s.blk.role) (ht : (frameComplete s).blk.pstate = .process) :
    crcVerify s.cfg ((frameComplete s).blk.frame.take (rxLen s.cfg s.blk.role)) = true ∧
      (frameComplete s).blk.frame.byte 0 ≠ 0x80 ∧ (frameComplete s).blk.role = s.blk.role := by
  obtain ⟨-, h⟩ | ⟨-, -, h⟩ | ⟨hcrc, h0, h⟩ := frameComplete_cases hb h4
  · simp [h] at ht
  · simp [h] at ht
  · rw [h]
    exact ⟨hcrc, h0, rfl⟩

/-- Settles O55: of the things a character does only the last byte of a frame leads into PROCESS. -/
theorem onlyValidatedFramesBecomeAvailable : Obligations.OnlyValidatedFramesBecomeAvailable := by
  intro i s t h hs ht
  obtain ⟨k, b, rfl⟩ := rxb_of_enters_process h hs ht
  obtain ⟨hl, rfl | ⟨-, rfl⟩ | ⟨-, -, -, -, rfl⟩ | ⟨-, -, -, rfl⟩ | ⟨-, -, -, rfl⟩ | ⟨-, -, -, -, rfl⟩ |
    ⟨hp, -, hk, hr, rfl⟩ | ⟨-, -, -, -, rfl⟩⟩ := exec_rxb h
  · exact absurd ht hs
  · simp [desync] at ht
  · cases ht
  · simp [desync] at ht
  · cases ht
  · exact absurd ht hs
  · obtain ⟨hc, -, hf, -⟩ := legal_iff.mp hl
    obtain ⟨h4, -, hmax⟩ := rxLen_bounds hc s.blk.role
    have hlen : (rxStore b s.start).blk.frame.length = s.cfg.lMax := (length_write _ _ _).trans hf
    obtain ⟨hcrc, h0, hrole⟩ := valid_of_frameComplete (s := rxStore b s.start) (by rw [hlen]; exact hmax) h4 ht
    rw [exec_keeps_cfg h, hrole]
    exact ⟨⟨b, by rw [hk]⟩, hp, hr, hcrc, h0⟩
  · exact absurd (by simpa using ht) hs

/-! ### TXC, RXERR and DESYNC (R192 to R196) -/

/-- Settles O34: a format Z word; the two lines of R193, and the cursor of a node that sends lies inside its frame. -/
theorem sentEventHandsOverTheNextByte : Obligations.SentEventHandsOverTheNextByte := by
  intro s rest hl hx hu hr
  have hn := not_lost_of_ne hu hr
  have hinv := inv_of_legal hl hn
  refine ⟨decodeStimulus_formatZ .txc 17 (by decide) rest (fun _ _ _ => rfl) rfl,
    fun hmore => ⟨?_, exec_txc_more hinv hx hmore⟩, exec_txc_last hinv hx⟩
  obtain ⟨hc, -, hf, -⟩ := legal_iff.mp hl
  obtain ⟨-, hsum, -⟩ := sending_row hl hn hx
  obtain ⟨-, -, hmax⟩ := txLen_bounds hc s.blk.role
  omega

/-- Settles O35: a format Z word; INIT and the lost states are tested before the code is pushed. -/
theorem uartErrorDiscardsTheExchange : Obligations.UartErrorDiscardsTheExchange := by
  intro s rest hl
  refine ⟨decodeStimulus_formatZ .rxerr 18 (by decide) rest (fun _ _ _ => rfl) rfl,
    fun hp => exec_event_of_init hl hp rfl, fun hp => ?_, fun hp => ?_⟩
  · rw [exec_event_of_lost (lost_iff.mpr hp) hl rfl, desync_eq]
    rfl
  · obtain ⟨hinit, hn⟩ := live_of_mem hp
    refine (guarded_legal hl _).trans ((if_neg hinit).trans ((if_neg (Bool.eq_false_iff.mp hn)).trans ?_))
    rw [enterRequest_eq, sinkPush_blk, push_cancels]
    rfl

/-- Settles O36: a format Z word; INIT alone is tested. -/
theorem desyncForcesRequest : Obligations.DesyncForcesRequest := by
  intro s rest hl
  refine ⟨decodeStimulus_formatZ .desync 20 (by decide) rest (fun _ _ _ => rfl) rfl,
    fun hp => exec_event_of_init hl hp rfl, fun hp => ?_⟩
  refine (guarded_legal hl _).trans ((if_neg hp).trans ?_)
  rw [desync_eq]
  rfl

/-- Settles O37: the first line of each event's dispatch. -/
theorem eventsBeforeInitAreIgnored : Obligations.EventsBeforeInitAreIgnored := fun _ _ hl hp hi =>
  exec_event_of_init hl hp hi

end Sys2Proof.Machine
end

section
/-! PROOFS of the statements of 45_error_sink.md. What each of ERRPUSH and ERRPOP does at a legal state is said once
(`exec_errpush_of_legal`, `exec_errpop_of_legal`), the state it leaves is legal again, and so runs of either follow by
induction (`runOps_errpush`, `runOps_errpop`). One operation at a time (O39, O40, O41), what every operation does to the
held codes (O50), and nine pushes and the pops after them (O42). -/

namespace Sys2Proof.Machine

/-! ### The held codes (R40, R211, R213) -/

theorem held_eq_nil_iff {b : Block} : b.held = [] ↔ b.sp.toNat = 0 := by
  simp [Block.held, ← List.length_eq_zero_iff]

/-- A full sink holds all eight entries. -/
theorem held_of_full {b : Block} (h : b.sp.toNat = 8) : b.held = b.stk.toList := by
  rw [Block.held, h]
  exact List.take_of_length_le (by simp)

/-- The push of R211 with its index in range. -/
theorem push_eq_set {b : Block} (c : Byte) (h : b.sp.toNat < 8) :
    b.push c = { b with stk := b.stk.set b.sp.toNat c h, sp := b.sp + 1 } := by
  have hset : b.stk.setIfInBounds b.sp.toNat c = b.stk.set b.sp.toNat c h := by
    ext i hi
    rw [Vector.getElem_setIfInBounds, Vector.getElem_set]
  rw [Block.push, Config.sinkDepth, if_pos h, hset]

theorem pop_eq_sub {b : Block} (h : 0 < b.sp.toNat) : b.pop = { b with sp := b.sp - 1 } := if_pos h

/-- A pop and a peek answer the newest held code. -/
theorem top_of_held_concat {b : Block} {older : List Byte} {c : Byte} (hsp : b.sp.toNat ≤ 8)
    (h : b.held = older ++ [c]) : b.top = c := by
  rw [top_eq hsp, h, List.getLastD_concat]

/-! ### The operations of the sink at a legal state (R212 to R215) -/

section
variable {s : State} (hl : s.legal = true)
include hl

theorem exec_errpush_of_legal (c : Byte) : exec (.errpush c) s = .next (s.into (s.blk.push c)) := guarded_legal hl _

theorem exec_errpop_of_legal : exec .errpop s = .next (returns (.code s.blk.top) (s.into s.blk.pop)) :=
  guarded_legal hl _

/-- A push keeps the row of the table, and a lost block stays lost. -/
theorem legal_push (c : Byte) : (s.into (s.blk.push c)).legal = true := by
  obtain ⟨hc, hv, hf, hsp, ht, hk⟩ := legal_iff.mp hl
  refine legal_iff.mpr ⟨hc, ?_, ?_, fun hn => push_sp_le (hsp ?_), ?_, ?_⟩
  · simpa using hv
  · simpa using hf
  · simpa using hn
  · simpa using ht
  · simpa using hk

/-- A pop keeps the row of the table, and a lost block stays lost. -/
theorem legal_pop : (s.into s.blk.pop).legal = true := by
  obtain ⟨hc, hv, hf, hsp, ht, hk⟩ := legal_iff.mp hl
  have hdepth (hn : s.blk.lost = false) : s.blk.pop.sp.toNat ≤ 8 := pop_sp_le (hsp hn)
  rw [pop_eq] at hdepth ⊢
  exact legal_iff.mpr ⟨hc, hv, hf, hdepth, ht, hk⟩

end

/-- Settles O39: a format B word, and at a legal state the push of R211. -/
theorem pushStoresOrSetsTheOverflowFlag : Obligations.PushStoresOrSetsTheOverflowFlag := by
  intro s c rest hl
  refine ⟨decodeStimulus_formatB .errpush 6 c (word_eq_mkWord 6 false c) rest (fun _ _ _ => rfl) rfl,
    fun h => ⟨?_, (push_room h).1⟩, fun h => ⟨?_, ?_⟩⟩
  · rw [exec_errpush_of_legal hl, push_eq_set c h]
    rfl
  · rw [exec_errpush_of_legal hl, push_full h]
    rfl
  · rw [push_full h]
    rfl

/-- Settles O40: a format Z word, and at a legal state the pop of R213, of codes, of entries beyond the eight and of
nothing. -/
theorem popReturnsTheNewestCode : Obligations.PopReturnsTheNewestCode := by
  intro s rest hl
  refine ⟨decodeStimulus_formatZ .errpop 7 (by decide) rest (fun _ _ _ => rfl) rfl, fun older c hsp hheld => ?_,
    fun hsp => ?_, fun hheld => ?_⟩
  · have hpos : 0 < s.blk.sp.toNat := by
      rw [← length_held hsp, hheld]
      simp
    refine ⟨_, exec_errpop_of_legal hl, ?_, ?_⟩
    · rw [returns_blk, into_blk, pop_held hsp, hheld, List.dropLast_concat]
    · rw [top_of_held_concat hsp hheld, pop_eq_sub hpos]
      rfl
  · obtain ⟨-, -, htop⟩ := pop_beyond hsp
    rw [exec_errpop_of_legal hl, htop, pop_eq_sub (by omega)]
    rfl
  · have hempty : s.blk.sp.toNat = 0 := held_eq_nil_iff.mp hheld
    rw [exec_errpop_of_legal hl, top_eq (by omega), hheld, pop_empty (by omega)]
    rfl

/-- Settles O41: format Z words, and at a legal state their guards pass; the peek reads what a pop would answer. -/
theorem peekAndOverflowAnswerWithoutChange : Obligations.PeekAndOverflowAnswerWithoutChange := by
  intro s rest hl
  have htop : s.blk.top =
      if s.blk.sp.toNat ≤ 8 then s.blk.held.getLastD 0 else Config.stkBeyond (s.blk.sp.toNat - 1) := by
    split
    · next hsp => exact top_eq hsp
    · next hsp => exact (pop_beyond (Nat.lt_of_not_le hsp)).2.2
  refine ⟨decodeStimulus_formatZ .errpeek 8 (by decide) rest (fun _ _ _ => rfl) rfl,
    decodeStimulus_formatZ .errovf 9 (by decide) rest (fun _ _ _ => rfl) rfl, ?_, guarded_legal hl _⟩
  rw [← htop]
  exact guarded_legal hl _

/-! ### What every operation does to the held codes (R217, R230) -/

/-- Every operation but ERRPOP leaves the held codes as they were or pushes one code. -/
theorem held_of_exec {i : Instr} {s t : State} (hi : i ≠ .errpop) (h : exec i s = .next t) :
    t.blk.held = s.blk.held ∨ ∃ c, t.blk.held = (s.blk.push c).held := by
  cases effect_of_exec h with
  | popped hpop => exact absurd hpop hi
  | pushed c hb | discarded c _ hb => exact .inr ⟨c, hb ▸ rfl⟩
  | lineToRx _ hb => exact .inl (hb.trans (dirRx_blk s) ▸ rfl)
  | kept hb | initialised _ _ _ _ hb | released _ hb | consumed _ _ _ hb | requested _ _ _ hb | responded _ _ _ hb
    | addressed _ _ _ hb | commanded _ _ _ _ hb | stored _ _ _ hb | completed _ _ _ hb | firstSent _ hb
    | nextSent _ _ hb | lineToTx _ hb => exact .inl (hb ▸ rfl)

/-- A pop removes the newest of at most eight codes; with `SP` above 8 no entry is lost (log entry 11). -/
theorem pop_held_eq (b : Block) : b.pop.held = if b.sp.toNat ≤ 8 then b.held.dropLast else b.held := by
  split
  · next h => exact pop_held h
  · next h => exact (pop_beyond (Nat.lt_of_not_le h)).1

/-- Settles O50: ERRPOP pops, and any other operation pushes at most one code, which adds at most that code. -/
theorem oneCodeAtMostPerStep : Obligations.OneCodeAtMostPerStep := by
  intro i s t h
  by_cases hi : i = .errpop
  · subst hi
    obtain ⟨-, rfl⟩ := exec_errpop h
    exact .inr ⟨rfl, pop_held_eq s.blk⟩
  · refine .inl ⟨hi, ?_⟩
    obtain hkept | ⟨c, hpush⟩ := held_of_exec hi h
    · exact .inl hkept
    · rw [hpush]
      exact (push_held c s.blk).imp_right fun hc => ⟨c, hc⟩

/-! ### Runs of pushes and of pops (R216) -/

/-- Pushes into a sink with room for all of them stack their codes in order. -/
theorem runOps_errpush (cs : List Byte) : ∀ {s : State}, s.legal = true → s.blk.sp.toNat + cs.length ≤ 8 →
    ∃ t, runOps (cs.map .errpush) s = some (t, []) ∧ t.legal = true ∧ t.blk.held = s.blk.held ++ cs ∧
      t.blk.sp.toNat = s.blk.sp.toNat + cs.length := by
  induction cs with
  | nil =>
    intro s hl _
    exact ⟨s, runOps_nil s, hl, by simp, by simp⟩
  | cons c cs ih =>
    intro s hl hroom
    rw [List.length_cons] at hroom
    obtain ⟨hheld, hsp, -⟩ := push_room (c := c) (by omega : s.blk.sp.toNat < 8)
    obtain ⟨t, hrun, hlt, hheldt, hspt⟩ := ih (legal_push hl c) (by rw [into_blk, hsp]; omega)
    refine ⟨t, runOps_cons (exec_errpush_of_legal hl c) hrun, hlt, ?_, ?_⟩
    · rw [hheldt, into_blk, hheld, List.append_assoc, List.singleton_append]
    · rw [hspt, into_blk, hsp, List.length_cons, Nat.add_right_comm, Nat.add_assoc]

/-- As many pops take that many codes off the top, or all there are, and leave the flag. -/
theorem runOps_errpop (k : Nat) : ∀ {s : State}, s.legal = true → s.blk.sp.toNat ≤ 8 →
    ∃ u, runOps (List.replicate k .errpop) s = some (u, []) ∧ u.legal = true ∧
      u.blk.held = s.blk.held.take (s.blk.held.length - k) ∧ u.blk.sp.toNat ≤ 8 ∧ u.blk.ovf = s.blk.ovf := by
  induction k with
  | zero =>
    intro s hl hsp
    exact ⟨s, runOps_nil s, hl, by simp, hsp, rfl⟩
  | succ k ih =>
    intro s hl hsp
    have hlegal : (returns (.code s.blk.top) (s.into s.blk.pop)).legal = true := legal_pop hl
    obtain ⟨u, hrun, hlu, hheld, hspu, hovf⟩ := ih hlegal (pop_sp_le hsp)
    refine ⟨u, runOps_cons (exec_errpop_of_legal hl) hrun, hlu, ?_, hspu, hovf.trans (pop_ovf s.blk)⟩
    rw [hheld, returns_blk, into_blk, pop_held hsp, List.dropLast_eq_take, List.take_take, List.length_take]
    congr 1
    omega

/-- Nine pushes into an empty sink: the eighth fills it, the ninth only sets the flag. -/
theorem runOps_nine_errpush {s : State} (hl : s.legal = true) (h0 : s.blk.sp = 0) {cs : List Byte}
    (hlen : cs.length = 9) : ∃ t, runOps (cs.map .errpush) s = some (t, []) ∧ t.legal = true ∧
      t.blk.held = cs.take 8 ∧ t.blk.sp.toNat = 8 ∧ t.blk.ovf = true := by
  obtain rfl | ⟨front, c, rfl⟩ := cs.eq_nil_or_concat'
  · cases hlen
  have hfront : front.length = 8 := by simpa using hlen
  have hempty : s.blk.sp.toNat = 0 := by simp [h0]
  obtain ⟨t, hrun, hlt, hheld, hsp⟩ := runOps_errpush front hl (by omega)
  rw [hempty, hfront, Nat.zero_add] at hsp
  rw [held_eq_nil_iff.mpr hempty, List.nil_append] at hheld
  have hfull : t.blk.push c = { t.blk with ovf := true } := push_full (by omega)
  refine ⟨t.into (t.blk.push c), ?_, legal_push hlt c, ?_, ?_, ?_⟩
  · rw [List.map_append]
    exact runOps_append (runOps_cons (exec_errpush_of_legal hlt c) (runOps_nil _)) hrun
  · rw [List.take_left' hfront, ← hheld, into_blk, hfull]
    rfl
  · rw [into_blk, hfull]
    exact hsp
  · rw [into_blk, hfull]

/-- The newest of the first n codes is the one at n - 1. -/
theorem getLastD_take {cs : List Byte} {n : Nat} (h : n ≤ cs.length) :
    (cs.take n).getLastD 0 = if 0 < n then cs.getD (n - 1) 0 else 0 := by
  cases n with
  | zero => rfl
  | succ m =>
    rw [List.take_succ_eq_append_getElem h, List.getLastD_concat, if_pos m.succ_pos, Nat.add_sub_cancel,
      List.getD_eq_getElem]

/-- Settles O42: the nine pushes fill the sink with the first eight codes, k pops leave the first 8 - k of them, and the
next pop answers the newest of these. -/
theorem sinkSaturatesAndPopsInReverse : Obligations.SinkSaturatesAndPopsInReverse := by
  intro s cs hl h0 hlen
  obtain ⟨t, hpushes, hlt, hheld, hsp, hovf⟩ := runOps_nine_errpush hl h0 hlen
  refine ⟨t, hpushes, BitVec.eq_of_toNat_eq hsp, (held_of_full hsp).symm.trans hheld, hovf, fun k _ => ?_⟩
  obtain ⟨u, hpops, hlu, hheldu, hspu, hovfu⟩ := runOps_errpop k hlt hsp.le
  have hleft : u.blk.held = cs.take (8 - k) := by
    rw [hheldu, length_held hsp.le, hsp, hheld, List.take_take, Nat.min_eq_left (Nat.sub_le 8 k)]
  refine ⟨u, _, hpops, hleft, hovfu.trans hovf, exec_errpop_of_legal hlu,
    (pop_ovf u.blk).trans (hovfu.trans hovf), ?_⟩
  rw [returns_result, top_eq hspu, hleft, getLastD_take (by omega), Nat.sub_right_comm]
  simp only [Nat.sub_pos_iff_lt, Nat.reduceSub]

end Sys2Proof.Machine
end

section
/-! PROOFS of the statements of 60_exceptions.md: every operation but INIT completes (O46). At a legal state the guard
passes (`completes_guarded`), and behind it the meanings answer a next state on every path but three, which refuse an
operand (U11). -/

namespace Sys2Proof.Machine

/-- The operation answers a next state: no refusal, no fault (R225). -/
def Completes (r : StepResult) : Prop := ∃ t, r = .next t

theorem completes_next (t : State) : Completes (.next t) := ⟨t, rfl⟩

/-- A line of a dispatch that answers leaves the lines after it to be looked at. -/
theorem completes_ite_next {p : Prop} [Decidable p] (t : State) {k : StepResult} (h : Completes k) :
    Completes (if p then .next t else k) := by
  split
  · exact completes_next t
  · exact h

/-- A refusal whose test fails is passed by. -/
theorem completes_ite_refused {p : Prop} [Decidable p] (r : Refusal) {k : StepResult} (hp : ¬p) (h : Completes k) :
    Completes (if p then .refused r else k) := by
  rwa [if_neg hp]

section
variable {s : State} (hl : s.legal = true)
include hl

theorem completes_guarded {k : StepResult} (h : Completes k) : Completes (guarded s k) := by
  rwa [guarded_legal hl]

theorem completes_guardedInternal {k : StepResult} (h : Completes k) : Completes (guardedInternal s k) := by
  rwa [guardedInternal_legal hl]

/-- A query whose operands are long enough, or whose count is in range, answers. -/
theorem completes_query {i : Instr} (hi : i.isPure = true) (hok : i.operandsOk = true) : Completes (exec i s) := by
  cases i with
  | avail | isresp _ | errpeek | errovf | crc16 _ => exact completes_guarded hl (completes_next _)
  | crcvfy bs =>
    have hlong : 2 ≤ bs.length := of_decide_eq_true hok
    exact completes_guarded hl (completes_ite_refused _ (Nat.not_lt.mpr hlong) (completes_next _))
  | decode bs =>
    have hlong : 4 ≤ bs.length := of_decide_eq_true hok
    exact completes_guarded hl (completes_ite_refused _ (Nat.not_lt.mpr hlong) (completes_next _))
  | encode n m =>
    have hcount : n.toNat ≤ 251 := of_decide_eq_true hok
    refine completes_guarded hl (completes_ite_refused _ (Nat.not_lt.mpr hcount) ?_)
    cases validate m n.toNat with
    | none | some e => exact completes_next _
  | init _ _ | consume | respond _ | send _ | errpush _ | errpop | rxb _ _ | txc | rxerr | tmr | desync | dirtx
    | dirrx => cases hi

/-- Every line of an event's dispatch answers, an event of no use being ignored (R142, R185, R192, R195, R196). -/
theorem completes_event {i : Instr} (hi : i.isEvent = true) : Completes (exec i s) := by
  obtain ⟨k, b, rfl⟩ | rfl | rfl | rfl | rfl := isEvent_iff.mp hi <;> refine completes_guarded hl ?_
  · iterate 7 refine completes_ite_next _ ?_
    exact completes_next _
  · exact completes_ite_next _ (completes_ite_next _ (completes_ite_next _ (completes_next _)))
  · exact completes_ite_next _ (completes_ite_next _ (completes_next _))
  · exact completes_ite_next _ (completes_ite_next _ (completes_ite_next _ (completes_next _)))
  · exact completes_ite_next _ (completes_next _)

/-- RESPOND reports or loads, whatever the state and the message (R160 to R162). -/
theorem completes_respond (m : Msg) : Completes (exec (.respond m) s) := by
  refine completes_guarded hl (completes_ite_next _ ?_)
  cases validate m s.cfg.nRet with
  | none | some e => exact completes_next _

/-- SEND reports or loads, whatever the state and the message (R168 to R170). -/
theorem completes_send (m : Msg) : Completes (exec (.send m) s) := by
  refine completes_guarded hl (completes_ite_next _ ?_)
  cases validate m s.cfg.nParam with
  | none | some e => exact completes_next _

end

/-- Settles O46: the guard passes at a legal state, and behind it only operands that are excluded are refused. -/
theorem engineNeverHalts : Obligations.EngineNeverHalts := by
  intro i s hl hok hinit
  cases i with
  | init r a => exact absurd rfl (hinit r a)
  | avail | isresp _ | errpeek | errovf | crc16 _ | crcvfy _ | encode _ _ | decode _ => exact completes_query hl rfl hok
  | consume => exact completes_guarded hl (completes_ite_next _ (completes_next _))
  | respond m => exact completes_respond hl m
  | send m => exact completes_send hl m
  | errpush c => exact ⟨_, exec_errpush_of_legal hl c⟩
  | errpop => exact ⟨_, exec_errpop_of_legal hl⟩
  | rxb _ _ | txc | rxerr | tmr | desync => exact completes_event hl rfl
  | dirtx | dirrx => exact completes_guardedInternal hl (completes_next _)

end Sys2Proof.Machine
end
